-- ==== Sys2Proof/Word.lean ====
section
/-! DEFINITION. The value types of the block: bytes, words, pins, tokens, port indices.
Widths: 00_scope.md R8, 10_state.md R16-R41, 30_encoding.md R69. -/

namespace Sys2Proof

/-- A device register, or the `tx_count` field: 8 bits (10_state.md section 5, R20). -/
abbrev Byte := BitVec 8

/-- A command word, argument word, response word or caller identifier: 32 bits (R8, R69, R86). -/
abbrev Word := BitVec 32

/-- A pin identifier, or NC: 16 bits (R8, R51). -/
abbrev Pin := BitVec 16

/-- The absent pin, 0xFFFF (R8, R51). -/
abbrev NC : Pin := 0xFFFF#16

/-- A handler token: 24 bits, opaque (R8). -/
abbrev HandlerToken := BitVec 24

/-- The PORT field of a command: 3 bits, of which only 0..3 name a port (R49, R69). -/
abbrev PortField := BitVec 3

/-- A port index, 0..N_PORTS−1 with N_PORTS = 4 (R3, R49). -/
abbrev Port := Fin 4

end Sys2Proof
end

