-- ==== Sys2Proof/Config.lean ====
section
/-! DEFINITION. The implementation parameters of 00_scope.md R8, the environment's choices for one
step (R12-R14), and the free values: opaque constants with no body, which no proof can evaluate. -/

namespace Sys2Proof

/-- A UART signal of the pin-mux service (60_exceptions.md R188). -/
inductive Signal where
  | tx | rx | rts | cts
  deriving DecidableEq, Repr, Inhabited

/-- One entry of the pin-mux tables: `pin` can carry `signal` of port `port` (R188). -/
structure PinEntry where
  pin    : Pin
  signal : Signal
  port   : Port
  deriving DecidableEq, Repr, Inhabited

/-- DC_ARITH (R8): how the divisor search computes errors. -/
inductive DcArith where
  | exact | binary32
  deriving DecidableEq, Repr, Inhabited

/-- HANDLER_SLOTS (R8, R25): one handler slot for all ports, or one per port. -/
inductive HandlerSlots where
  | global | perPort
  deriving DecidableEq, Repr, Inhabited

/-- The parameters of R8 that the source or the platform leaves open, the position of LSR.TXE, and
the code of a trigger level (R9). They are fixed for a whole run: no step writes them. DESIGN CHOICE, log 8:
they stand in State, so that a statement about every state is a statement about every choice of parameters. -/
structure Platform where
  /-- PCLK_HZ - 1, where PCLK_HZ is the peripheral clock in Hz, 1 to 2^32 - 1 (R8, R191). Log 10. -/
  pclkLess1       : Fin 4294967295
  /-- DC_ARITH (R8). -/
  dcArith         : DcArith
  /-- HANDLER_SLOTS (R8). -/
  handlerSlots    : HandlerSlots
  /-- IIR_RESPECTS_IER, an assumption on the environment (R8, R124). -/
  iirRespectsIer  : Bool
  /-- The tables behind PINMAP (R8, R188). Log 9. -/
  pinTable        : List PinEntry
  /-- CONSOLE_PORT; no rule reads it (R8, R162). -/
  consolePort     : Port
  /-- LSR.TXE is LSR bit `txeBit + 1`: any bit but bit 0, which is LSR.RDR (R9, R32). Log 11. -/
  txeBit          : Fin 7
  /-- The code of the level ONE in FCR.RX_TRIGGER, which the source does not give (R9, R36). Log 12. -/
  rxTriggerOne    : BitVec 2
  deriving DecidableEq, Repr, Inhabited

/-- The draws of one step (R14): the values the environment answers with if this step asks. -/
structure Draws where
  /-- The LSR value (R32). -/
  lsr    : Byte
  /-- The IIR value (R31, R124). -/
  iir    : Byte
  /-- The RBR byte (R34). -/
  rbr    : Byte
  /-- The level read from a CTS GPIO pin (R38, R189). -/
  cts    : Bool
  /-- Whether the step that takes a PUTC, GETC, SET_FLOW_CONTROL or INIT also runs the first
  micro-step of its hold or flow sequence, or leaves room for other agents before it (R17, R151).
  DESIGN CHOICE, log 6. -/
  prompt : Bool
  /-- The three bits of an FCR write that are in none of its named fields (R36). Log 12. -/
  fcrRest : BitVec 3
  deriving DecidableEq, Repr, Inhabited

/-- PCLK_HZ, in Hz: 1 ≤ PCLK_HZ ≤ 2^32 - 1 (R8). -/
def Platform.pclkHz (plat : Platform) : Nat := plat.pclkLess1.val + 1

/-- Which agent the environment lets move next (R12, R13, R123, R177). -/
inductive Move where
  /-- The foreground moves. -/
  | fg
  /-- The interrupt controller starts IRQ_ENTRY on ISRp (R123). -/
  | irq (p : Port)
  /-- The handler running on ISRp presents its next command (R129). -/
  | isr (p : Port)
  /-- The handler running on ISRp returns (R181). -/
  | ret (p : Port)
  deriving DecidableEq, Repr, Inhabited

/-- The environment's choices for one step. Log 1. -/
structure EnvInput where
  move  : Move
  draws : Draws
  deriving DecidableEq, Repr, Inhabited

/-- TX_FIFO_DEPTH (R8). -/
def Config.txFifoDepth : Nat := 16

/-- DEFAULT_BAUD (R8). -/
def Config.defaultBaud : Nat := 9600

/-- AUTO_FLOW_PORT: the one port with hardware auto-flow control (R3, R8, R142). -/
def Config.autoFlowPort : Port := 1

/-- PCLK_HZ - 1, OPEN (R8). Log 10. -/
opaque Config.pclkLess1 : Fin 4294967295

/-- The pin-mux tables behind PINMAP, OPEN (R8). -/
opaque Config.pinTable : List PinEntry

/-- CONSOLE_PORT, OPEN (R8). -/
opaque Config.consolePort : Port

/-- The position of LSR.TXE, which the source does not give (R9). -/
opaque Config.txeBit : Fin 7

/-- The code of the trigger level ONE, which the source does not give (R9, R36). -/
opaque Config.rxTriggerOne : BitVec 2

/-- The platform of a run from reset: the spec's defaults for DC_ARITH, HANDLER_SLOTS and
IIR_RESPECTS_IER, and opaque values for what R8 leaves OPEN. Log 8. -/
def Config.platform : Platform where
  pclkLess1      := Config.pclkLess1
  dcArith        := .exact
  handlerSlots   := .global
  iirRespectsIer := false
  pinTable       := Config.pinTable
  consolePort    := Config.consolePort
  txeBit         := Config.txeBit
  rxTriggerOne   := Config.rxTriggerOne

/-- The move of step `n` when State.inputs holds none: a free value. Log 2. -/
opaque Config.freeMove : Nat → Move

/-- The draws of step `n` when State.inputs holds none: a free value (R14). Log 2. -/
opaque Config.freeDraws : Nat → Draws

/-- The draws State holds at reset, which no step reads. Log 2. -/
opaque Config.resetDraws : Draws

/-- The unspecified reset value of LCR[p] (R47). Log 13. -/
opaque Config.resetLcr : Port → Byte

/-- The unspecified reset value of DLL[p] (R47). Log 13. -/
opaque Config.resetDll : Port → Byte

/-- The unspecified reset value of DLM[p] (R47). Log 13. -/
opaque Config.resetDlm : Port → Byte

/-- The unspecified reset value of FDR[p] (R47). Log 13. -/
opaque Config.resetFdr : Port → Byte

/-- The reset value of the IER[p] bits the block never writes (R30). Log 13. -/
opaque Config.resetIerRest : Port → BitVec 6

/-- The unspecified reset value of MCR[1].AUTO_RTS (R47). Log 13. -/
opaque Config.resetAutoRts : Bool

/-- The unspecified reset value of MCR[1].AUTO_CTS (R47). Log 13. -/
opaque Config.resetAutoCts : Bool

/-- The reset value of the MCR[1] bits the block never writes (R35). Log 13. -/
opaque Config.resetMcrRest : BitVec 6

end Sys2Proof
end

