-- ==== Sys2Proof/Syntax.lean ====
section
/-! DEFINITION. The commands of the block (30_encoding.md R69-R88): one constructor of `Instr` per row
of the opcode map R80, the opcodes, the pseudo-commands of R88 and the written syntax of R87. -/

namespace Sys2Proof

/-- A direction, which is also an event tag: RX-data-available or TX-holding-empty (R15, R81). -/
inductive Dir where
  | rx | tx
  deriving DecidableEq, Repr, Inhabited

/-- The MODE operand of SET_FLOW_CONTROL (R81). -/
inductive FlowMode where
  | none | rts | cts | rtsCts
  deriving DecidableEq, Repr, Inhabited

/-- The sixteen opcodes (R80). -/
inductive Op where
  | baud | format | breakSet | breakClear | irqSet | flowIrqSet | irqHandler | irqEntry
  | readable | writable | getc | putc | setFlowControl | init | free | clear
  deriving DecidableEq, Repr, Inhabited

/-- A command, with its operands as the command word carries them (R70-R77, R83: out-of-range
operand values are legal encodings). -/
inductive Instr where
  /-- BAUD pN, rate (R103). -/
  | baud (port : PortField) (rate : Word)
  /-- FORMAT pN, bits, parity, stops (R108). -/
  | format (port : PortField) (bits : BitVec 4) (par : BitVec 3) (stops : BitVec 2)
  /-- BREAK_SET pN (R110). -/
  | breakSet (port : PortField)
  /-- BREAK_CLEAR pN (R111). -/
  | breakClear (port : PortField)
  /-- IRQ_SET pN, dir, en (R117). -/
  | irqSet (port : PortField) (dir : Dir) (en : Bool)
  /-- FLOW_IRQ_SET pN, dir, en (R118). -/
  | flowIrqSet (port : PortField) (dir : Dir) (en : Bool)
  /-- IRQ_HANDLER pN, htok, id (R122). -/
  | irqHandler (port : PortField) (htok : HandlerToken) (id : Word)
  /-- IRQ_ENTRY pN (R125). -/
  | irqEntry (port : PortField)
  /-- READABLE pN (R134). -/
  | readable (port : PortField)
  /-- WRITABLE pN (R135). -/
  | writable (port : PortField)
  /-- GETC pN (R138). -/
  | getc (port : PortField)
  /-- PUTC pN, byte (R136). -/
  | putc (port : PortField) (byte : Byte)
  /-- SET_FLOW_CONTROL pN, mode, rx_flow_pin, tx_flow_pin (R143). -/
  | setFlowControl (port : PortField) (mode : FlowMode) (rxPin txPin : Pin)
  /-- INIT tx_pin, rx_pin (R155). -/
  | init (txPin rxPin : Pin)
  /-- FREE pN (R160). -/
  | free (port : PortField)
  /-- CLEAR pN (R161). -/
  | clear (port : PortField)
  deriving DecidableEq, Repr, Inhabited

/-- The opcode of a command. -/
def Instr.op : Instr → Op
  | .baud _ _ => .baud
  | .format _ _ _ _ => .format
  | .breakSet _ => .breakSet
  | .breakClear _ => .breakClear
  | .irqSet _ _ _ => .irqSet
  | .flowIrqSet _ _ _ => .flowIrqSet
  | .irqHandler _ _ _ => .irqHandler
  | .irqEntry _ => .irqEntry
  | .readable _ => .readable
  | .writable _ => .writable
  | .getc _ => .getc
  | .putc _ _ => .putc
  | .setFlowControl _ _ _ _ => .setFlowControl
  | .init _ _ => .init
  | .free _ => .free
  | .clear _ => .clear

/-- The PORT field of a command's word; INIT's must be 0 (R77). -/
def Instr.portField : Instr → PortField
  | .baud p _ => p
  | .format p _ _ _ => p
  | .breakSet p => p
  | .breakClear p => p
  | .irqSet p _ _ => p
  | .flowIrqSet p _ _ => p
  | .irqHandler p _ _ => p
  | .irqEntry p => p
  | .readable p => p
  | .writable p => p
  | .getc p => p
  | .putc p _ => p
  | .setFlowControl p _ _ _ => p
  | .init _ _ => 0
  | .free p => p
  | .clear p => p

/-- The pseudo-commands of R88. -/
inductive Pseudo where
  | irqOn (port : PortField) (dir : Dir)
  | irqOff (port : PortField) (dir : Dir)
  | flowOff (port : PortField)
  | formatDefault (port : PortField)
  | baudDefault (port : PortField)
  deriving DecidableEq, Repr, Inhabited

/-- Each pseudo-command expands to exactly one command (R88). -/
def Pseudo.expand : Pseudo → Instr
  | .irqOn p d => .irqSet p d true
  | .irqOff p d => .irqSet p d false
  | .flowOff p => .setFlowControl p .none NC NC
  | .formatDefault p => .format p 8 0 1
  | .baudDefault p => .baud p 9600

/-- The command names of R80, which are the table's mnemonics. -/
def Op.mnemonic : Op → String
  | .baud => "BAUD"
  | .format => "FORMAT"
  | .breakSet => "BREAK_SET"
  | .breakClear => "BREAK_CLEAR"
  | .irqSet => "IRQ_SET"
  | .flowIrqSet => "FLOW_IRQ_SET"
  | .irqHandler => "IRQ_HANDLER"
  | .irqEntry => "IRQ_ENTRY"
  | .readable => "READABLE"
  | .writable => "WRITABLE"
  | .getc => "GETC"
  | .putc => "PUTC"
  | .setFlowControl => "SET_FLOW_CONTROL"
  | .init => "INIT"
  | .free => "FREE"
  | .clear => "CLEAR"

namespace Assembly

/-- One hex digit. -/
def hexDigit (n : Nat) : Char := "0123456789ABCDEF".toList.getD n '0'

/-- `digits` hex digits of `n`, most significant first. -/
def hexDigits : Nat → Nat → List Char
  | 0, _ => []
  | k + 1, n => hexDigits k (n / 16) ++ [hexDigit (n % 16)]

/-- A number written as `0x` and `digits` hex digits (R87). -/
def hex (digits n : Nat) : String := "0x" ++ String.ofList (hexDigits digits n)

/-- A port, written p0 to p7 (R87). -/
def port (p : PortField) : String := "p" ++ Nat.repr p.toNat

/-- A pin, written as a hex number or NC (R87). -/
def pin (p : Pin) : String := if p = NC then "NC" else hex 4 p.toNat

/-- A direction (R87). -/
def dir : Dir → String
  | .rx => "RX"
  | .tx => "TX"

/-- A flow mode (R87). -/
def mode : FlowMode → String
  | .none => "none"
  | .rts => "rts"
  | .cts => "cts"
  | .rtsCts => "rtscts"

/-- A parity code; R87 names the codes 0..4, and an out-of-range code is written as a number. -/
def parity (p : BitVec 3) : String :=
  match p.toNat with
  | 0 => "none"
  | 1 => "odd"
  | 2 => "even"
  | 3 => "one"
  | 4 => "zero"
  | n => Nat.repr n

/-- The operands of a command, in the order of R87. -/
def operands : Instr → List String
  | .baud p r => [port p, Nat.repr r.toNat]
  | .format p b par st => [port p, Nat.repr b.toNat, parity par, Nat.repr st.toNat]
  | .breakSet p => [port p]
  | .breakClear p => [port p]
  | .irqSet p d en => [port p, dir d, if en then "1" else "0"]
  | .flowIrqSet p d en => [port p, dir d, if en then "1" else "0"]
  | .irqHandler p h id => [port p, hex 6 h.toNat, hex 8 id.toNat]
  | .irqEntry p => [port p]
  | .readable p => [port p]
  | .writable p => [port p]
  | .getc p => [port p]
  | .putc p b => [port p, hex 2 b.toNat]
  | .setFlowControl p m rx tx => [port p, mode m, pin rx, pin tx]
  | .init tx rx => [pin tx, pin rx]
  | .free p => [port p]
  | .clear p => [port p]

/-- A command written in the syntax of R87: the mnemonic, then the operands separated by commas. -/
def render (i : Instr) : String := i.op.mnemonic ++ " " ++ String.intercalate ", " (operands i)

end Assembly

end Sys2Proof
end

