-- ==== Sys2Proof/WellFormed.lean ====
section
/-! DEFINITION. Two checks. On words: the opcode map R80, as a table of masks and patterns, says which
command words name a command. On commands: which operand values R83 calls in range. (Every term of
`Instr` can be encoded: its operands have the widths of their fields.) -/

namespace Sys2Proof

/-- One row of the opcode map: a command word `c` selects it when `c &&& mask = pattern` (R80). -/
structure OpcodeRow where
  op      : Op
  words   : Nat
  pattern : Word
  mask    : Word
  deriving DecidableEq, Repr

/-- The opcode map, transcribed row by row from R80. -/
def opcodeMap : List OpcodeRow :=
  [ ⟨.baud,           2, 0x08000000#32, 0xF8FFFFFF#32⟩,
    ⟨.format,         1, 0x10000000#32, 0xF8FFFC80#32⟩,
    ⟨.breakSet,       1, 0x18000000#32, 0xF8FFFFFF#32⟩,
    ⟨.breakClear,     1, 0x20000000#32, 0xF8FFFFFF#32⟩,
    ⟨.irqSet,         1, 0x28000000#32, 0xF8FFFEFE#32⟩,
    ⟨.flowIrqSet,     1, 0x30000000#32, 0xF8FFFEFE#32⟩,
    ⟨.irqHandler,     2, 0x38000000#32, 0xF8000000#32⟩,
    ⟨.irqEntry,       1, 0x40000000#32, 0xF8FFFFFF#32⟩ ] ++
  [ ⟨.readable,       1, 0x48000000#32, 0xF8FFFFFF#32⟩,
    ⟨.writable,       1, 0x50000000#32, 0xF8FFFFFF#32⟩,
    ⟨.getc,           1, 0x58000000#32, 0xF8FFFFFF#32⟩,
    ⟨.putc,           1, 0x60000000#32, 0xF8FFFF00#32⟩,
    ⟨.setFlowControl, 2, 0x68000000#32, 0xF8FFFFFC#32⟩,
    ⟨.init,           2, 0x70000000#32, 0xFFFFFFFF#32⟩,
    ⟨.free,           1, 0x78000000#32, 0xF8FFFFFF#32⟩,
    ⟨.clear,          1, 0x80000000#32, 0xF8FFFFFF#32⟩ ]

/-- The command word selects the row (R80). -/
def OpcodeRow.selectedBy (r : OpcodeRow) (c : Word) : Bool := c &&& r.mask == r.pattern

/-- The command word names a command: some row of R80 is selected. -/
def commandWordOk (c : Word) : Bool := opcodeMap.any fun r => r.selectedBy c

/-- A port field that names a port, 0..3 (R49, R83). -/
def portInRange (p : PortField) : Bool := p.toNat < 4

/-- FORMAT operands in range (R83, R107): bits 5..8, stops 1..2, parity code 0..4. -/
def formatInRange (bits : BitVec 4) (par : BitVec 3) (stops : BitVec 2) : Bool :=
  5 ≤ bits.toNat && bits.toNat ≤ 8 && 1 ≤ stops.toNat && stops.toNat ≤ 2 && par.toNat ≤ 4

/-- A well-formed command: every operand whose range R83 fixes by the operand alone is in range.
(Whether DC admits a RATE depends on PCLK_HZ too and is decided in execution, R91, R92.) -/
def Instr.wf : Instr → Bool
  | .baud p _ => portInRange p
  | .format p b par st => portInRange p && formatInRange b par st
  | .breakSet p => portInRange p
  | .breakClear p => portInRange p
  | .irqSet p _ _ => portInRange p
  | .flowIrqSet p _ _ => portInRange p
  | .irqHandler p _ _ => portInRange p
  | .irqEntry p => portInRange p
  | .readable p => portInRange p
  | .writable p => portInRange p
  | .getc p => portInRange p
  | .putc p _ => portInRange p
  | .setFlowControl p _ _ _ => portInRange p
  | .init _ _ => true
  | .free p => portInRange p
  | .clear p => portInRange p

end Sys2Proof
end

