-- ==== Sys2Proof/Decode.lean ====
section
/-! DEFINITION. The decoder, total on any list of words, rejecting by name (30_encoding.md R69-R85), and
the encoder, written from the same formats. There is no byte serialisation of words (R55, log 25). -/

namespace Sys2Proof

/-- Why a command word is refused: the sub-codes of REFUSED (R82, R164). -/
inductive RefusedSub where
  | opcode | reservedBits
  deriving DecidableEq, Repr, Inhabited

/-- What the decoder finds at the head of an agent's presented words. -/
inductive Decoded where
  /-- No command yet: no word, or a two-word command whose ARG has not arrived (R79). -/
  | waiting
  /-- The command word `cmd` is refused (R82); an ARG word, if any, stays in `rest`. -/
  | refused (why : RefusedSub) (cmd : Word) (rest : List Word)
  /-- A command, and the words after it. -/
  | command (i : Instr) (rest : List Word)
  deriving DecidableEq, Repr

/-- The opcode's number, CMD[31:27] (R80). -/
def Op.code : Op → BitVec 5
  | .baud => 0x01
  | .format => 0x02
  | .breakSet => 0x03
  | .breakClear => 0x04
  | .irqSet => 0x05
  | .flowIrqSet => 0x06
  | .irqHandler => 0x07
  | .irqEntry => 0x08
  | .readable => 0x09
  | .writable => 0x0A
  | .getc => 0x0B
  | .putc => 0x0C
  | .setFlowControl => 0x0D
  | .init => 0x0E
  | .free => 0x0F
  | .clear => 0x10

/-- The opcode of a number; 0x00 and 0x11..0x1F are reserved (R80, R82). -/
def Op.ofCode (c : BitVec 5) : Option Op :=
  match c.toNat with
  | 0x01 => some .baud
  | 0x02 => some .format
  | 0x03 => some .breakSet
  | 0x04 => some .breakClear
  | 0x05 => some .irqSet
  | 0x06 => some .flowIrqSet
  | 0x07 => some .irqHandler
  | 0x08 => some .irqEntry
  | 0x09 => some .readable
  | 0x0A => some .writable
  | 0x0B => some .getc
  | 0x0C => some .putc
  | 0x0D => some .setFlowControl
  | 0x0E => some .init
  | 0x0F => some .free
  | 0x10 => some .clear
  | _ => none

/-- The command carries an ARG word (R78): the length is told from OP alone. -/
def Op.hasArg : Op → Bool
  | .baud => true
  | .irqHandler => true
  | .setFlowControl => true
  | .init => true
  | _ => false

/-- CMD.OP, bits 31:27 (R69). -/
def opField (c : Word) : BitVec 5 := c.extractLsb' 27 5

/-- CMD.PORT, bits 26:24 (R69). -/
def portField (c : Word) : PortField := c.extractLsb' 24 3

/-- The must-be-0 bits of PORT and OPND are 0, by the opcode's format (R70-R77, R82). -/
def reservedBitsOk (op : Op) (c : Word) : Bool :=
  match op with
  | .format => c.getLsbD 7 == false && c.extractLsb' 10 14 == 0
  | .irqSet => c.extractLsb' 1 7 == 0 && c.extractLsb' 9 15 == 0
  | .flowIrqSet => c.extractLsb' 1 7 == 0 && c.extractLsb' 9 15 == 0
  | .irqHandler => true
  | .putc => c.extractLsb' 8 16 == 0
  | .setFlowControl => c.extractLsb' 2 22 == 0
  | .init => c.extractLsb' 0 27 == 0
  | _ => c.extractLsb' 0 24 == 0

/-- DIR: 0 = RX, 1 = TX (R81). -/
def Dir.ofBit (b : Bool) : Dir := if b then .tx else .rx

/-- DIR: 0 = RX, 1 = TX (R81). -/
def Dir.bit : Dir → Bool
  | .rx => false
  | .tx => true

/-- MODE: 0 none, 1 RTS, 2 CTS, 3 RTS+CTS (R81). -/
def FlowMode.ofCode (c : BitVec 2) : FlowMode :=
  match c.toNat with
  | 0 => .none
  | 1 => .rts
  | 2 => .cts
  | _ => .rtsCts

/-- MODE: 0 none, 1 RTS, 2 CTS, 3 RTS+CTS (R81). -/
def FlowMode.code : FlowMode → BitVec 2
  | .none => 0
  | .rts => 1
  | .cts => 2
  | .rtsCts => 3

/-- The command that opcode `op`, command word `c` and argument word `a` spell (R70-R77, R85); `a` is
used only by the opcodes with an ARG word. -/
def assemble (op : Op) (c a : Word) : Instr :=
  match op with
  | .baud => .baud (portField c) a
  | .format => .format (portField c) (c.extractLsb' 0 4) (c.extractLsb' 4 3) (c.extractLsb' 8 2)
  | .breakSet => .breakSet (portField c)
  | .breakClear => .breakClear (portField c)
  | .irqSet => .irqSet (portField c) (Dir.ofBit (c.getLsbD 8)) (c.getLsbD 0)
  | .flowIrqSet => .flowIrqSet (portField c) (Dir.ofBit (c.getLsbD 8)) (c.getLsbD 0)
  | .irqHandler => .irqHandler (portField c) (c.extractLsb' 0 24) a
  | .irqEntry => .irqEntry (portField c)
  | .readable => .readable (portField c)
  | .writable => .writable (portField c)
  | .getc => .getc (portField c)
  | .putc => .putc (portField c) (c.extractLsb' 0 8)
  | .setFlowControl =>
    .setFlowControl (portField c) (FlowMode.ofCode (c.extractLsb' 0 2)) (a.extractLsb' 0 16) (a.extractLsb' 16 16)
  | .init => .init (a.extractLsb' 0 16) (a.extractLsb' 16 16)
  | .free => .free (portField c)
  | .clear => .clear (portField c)

/-- A command word whose opcode and reserved bits are right: take its ARG, if it has one, from the
words that follow (R78, R79). -/
def decodeArgument (op : Op) (c : Word) (rest : List Word) : Decoded :=
  if op.hasArg then
    match rest with
    | [] => .waiting
    | a :: rest' => .command (assemble op c a) rest'
  else .command (assemble op c 0) rest

/-- The decoder (R69-R85). -/
def decode (ws : List Word) : Decoded :=
  match ws with
  | [] => .waiting
  | c :: rest =>
    match Op.ofCode (opField c) with
    | none => .refused .opcode c rest
    | some op => if reservedBitsOk op c then decodeArgument op c rest else .refused .reservedBits c rest

/-- A command word from its three fields (R69). -/
def commandWord (op : Op) (port : PortField) (opnd : BitVec 24) : Word := op.code ++ port ++ opnd

/-- The words of a command: CMD, then ARG for the two-word commands (R70-R79). -/
def encode : Instr → List Word
  | .baud p r => [commandWord .baud p 0, r]
  | .format p b par st => [commandWord .format p (0#14 ++ st ++ 0#1 ++ par ++ b)]
  | .breakSet p => [commandWord .breakSet p 0]
  | .breakClear p => [commandWord .breakClear p 0]
  | .irqSet p d en => [commandWord .irqSet p (0#15 ++ BitVec.ofBool d.bit ++ 0#7 ++ BitVec.ofBool en)]
  | .flowIrqSet p d en => [commandWord .flowIrqSet p (0#15 ++ BitVec.ofBool d.bit ++ 0#7 ++ BitVec.ofBool en)]
  | .irqHandler p h id => [commandWord .irqHandler p h, id]
  | .irqEntry p => [commandWord .irqEntry p 0]
  | .readable p => [commandWord .readable p 0]
  | .writable p => [commandWord .writable p 0]
  | .getc p => [commandWord .getc p 0]
  | .putc p b => [commandWord .putc p (0#16 ++ b)]
  | .setFlowControl p m rx tx => [commandWord .setFlowControl p (0#22 ++ m.code), tx ++ rx]
  | .init tx rx => [commandWord .init 0 0, rx ++ tx]
  | .free p => [commandWord .free p 0]
  | .clear p => [commandWord .clear p 0]

/-- The words of the instruction whose bits, numbered from the first word's bit 0, are `w`; every bit
from `nbits` up is 0. A one-word command has its command word alone (R55, R78). -/
def tableWords (nbits w : Nat) : List Word :=
  let v := w % 2 ^ nbits
  let c := BitVec.ofNat 32 v
  match Op.ofCode (opField c) with
  | some op => if op.hasArg then [c, BitVec.ofNat 32 (v / 2 ^ 32)] else [c]
  | none => [c]

/-- The command the decoder reads from an opcode-table word. -/
def decodeTableWord (nbits w : Nat) : Option Instr :=
  match decode (tableWords nbits w) with
  | .command i _ => some i
  | .waiting => none
  | .refused _ _ _ => none

end Sys2Proof
end

