-- ==== Sys2Proof/Machine/State.lean ====
section
/-! DEFINITION. The state of the block (10_state.md), as plain data, its value at reset (R47), and the
reasons a step can stop. -/

namespace Sys2Proof.Machine

/-- One Boolean per direction (10_state.md R22, R23, R30). -/
structure PerDir where
  rx : Bool
  tx : Bool
  deriving DecidableEq, Repr, Inhabited

/-- IER[p]: the two named enable bits and the six bits the block never writes (R30). Log 12. -/
structure Ier where
  /-- RX_EN and TX_EN. -/
  en   : PerDir
  rest : BitVec 6
  deriving DecidableEq, Repr, Inhabited

/-- MCR[1]: the two named auto-flow bits and the six bits the block never writes (R35). Log 12. -/
structure Mcr where
  autoRts : Bool
  autoCts : Bool
  rest    : BitVec 6
  deriving DecidableEq, Repr, Inhabited

/-- A receive trigger level, as far as the block knows it (R36). -/
inductive RxTrigger where
  | unknown | one
  deriving DecidableEq, Repr, Inhabited

/-- The image of FCR.FIFO_EN, unknown until the first write (R36). Log 15. -/
inductive FifoEnable where
  | unknown | off | on
  deriving DecidableEq, Repr, Inhabited

/-- A value written to FCR[p], 8 bits: its four named fields and the three bits in none of them (R36,
R57). Log 12: RX_TRIGGER is two bits wide. -/
structure Fcr where
  fifoEn    : Bool
  rxReset   : Bool
  txReset   : Bool
  rxTrigger : BitVec 2
  rest      : BitVec 3
  deriving DecidableEq, Repr, Inhabited

/-- The power record of a port (R39). -/
inductive Power where
  | unknown | on
  deriving DecidableEq, Repr, Inhabited

/-- step[ISRp] (R17). -/
inductive IsrStep where
  | idle | inHandler
  deriving DecidableEq, Repr, Inhabited

/-- gpio_dir[pin] (R38). -/
inductive GpioDir where
  | unconfigured | input | output
  deriving DecidableEq, Repr, Inhabited

/-- gpio_out[pin] (R38). -/
inductive GpioLevel where
  | unknown | low | high
  deriving DecidableEq, Repr, Inhabited

/-- What the block asked of one GPIO pin (R38). Log 16. -/
structure GpioPin where
  dir : GpioDir
  out : GpioLevel
  deriving DecidableEq, Repr, Inhabited

/-- The GPIO record: a list of (pin, record) pairs in the canonical form of Machine/Gpio.lean; an
unlisted pin is as at reset (R38, R47). Log 17. -/
abbrev GpioMap := List (Nat × GpioPin)

/-- Who presents or performs a command (R12, R178). -/
inductive Agent where
  /-- The foreground. -/
  | fg
  /-- The handler running on ISRp. -/
  | isr (p : Port)
  /-- The interrupt controller, which alone presents IRQ_ENTRY. -/
  | controller
  deriving DecidableEq, Repr, Inhabited

/-- The sub-codes of CONFIGURATION_ERROR (R164). -/
inductive ConfigSub where
  | port | baudRange | dataBits | stopBits | parity
  deriving DecidableEq, Repr, Inhabited

/-- The sub-codes of PIN_MAPPING_ERROR (R164). -/
inductive PinSub where
  | txNone | rxNone | mismatch
  deriving DecidableEq, Repr, Inhabited

/-- The block's fault codes with their sub-codes (R164). -/
inductive FaultCause where
  | configurationError (sub : ConfigSub)
  | pinMappingError (sub : PinSub)
  | refused (sub : RefusedSub)
  | contextViolation
  | notInitialized
  deriving DecidableEq, Repr, Inhabited

/-- The fault record (R40, R163, C12): cause, OP, port field and agent. -/
structure FaultRecord where
  cause : FaultCause
  op    : BitVec 5
  port  : PortField
  agent : Agent
  deriving DecidableEq, Repr, Inhabited

/-- The SET_FLOW_CONTROL or INIT command whose flow sequence is in progress (R143, R155): its operands,
and whether it responds with its port when the sequence ends (INIT). -/
structure FlowRequest where
  port    : Port
  mode    : FlowMode
  rxPin   : Pin
  txPin   : Pin
  respond : Bool
  deriving DecidableEq, Repr, Inhabited

/-- step[FG] (R17), with the operands of the command in progress. Log 7. -/
inductive FgStep where
  /-- No command in progress. -/
  | idle
  /-- PUTC holds until Writable (R136, R137). -/
  | putcW (p : Port) (b : Byte)
  /-- GETC holds until LSR.RDR (R138). -/
  | getcW (p : Port)
  /-- GETC's micro-step A is done, B is next (R138). -/
  | getcB (p : Port)
  /-- Before step 1 of the flow sequence (R144). -/
  | sfc1 (r : FlowRequest)
  /-- Before step 2 (R145). -/
  | sfc2 (r : FlowRequest)
  /-- Before step 3 (R146). -/
  | sfc3 (r : FlowRequest)
  /-- Before step 4 (R147). -/
  | sfc4 (r : FlowRequest)
  /-- Before step 5 (R148). -/
  | sfc5 (r : FlowRequest)
  /-- Before step 6 (R149). -/
  | sfc6 (r : FlowRequest)
  deriving DecidableEq, Repr, Inhabited

/-- A device register together with the value an access moves (R27-R36, R50, R57). -/
inductive RegValue where
  | lcr (v : Byte)
  | dll (v : Byte)
  | dlm (v : Byte)
  | fdr (v : Byte)
  | ier (v : Ier)
  | iir (v : Byte)
  | lsr (v : Byte)
  | thr (v : Byte)
  | rbr (v : Byte)
  | mcr (v : Mcr)
  | fcr (v : Fcr)
  deriving DecidableEq, Repr

/-- The pull a pin is given; only PULL_UP is ever requested (R188). -/
inductive PinPull where
  | pullUp
  deriving DecidableEq, Repr, Inhabited

/-- An external event of the trace (R41). -/
inductive Event where
  | regWrite (p : Port) (v : RegValue)
  | regRead (p : Port) (v : RegValue)
  | gpioInit (pin : Pin) (dir : GpioDir)
  | gpioWrite (pin : Pin) (level : Bool)
  | gpioRead (pin : Pin) (level : Bool)
  | nvicSetVector (p : Port)
  | nvicEnable (p : Port)
  | nvicDisable (p : Port)
  | pinOut (pin : Pin) (signal : Signal)
  | pinMode (pin : Pin) (pull : PinPull)
  | power (p : Port)
  | pclkDiv1 (p : Port)
  /-- Handler(h, id, ev); `none` stands for the slot value NONE (log 20). -/
  | handler (h : Option HandlerToken) (id : Word) (ev : Dir)
  | response (v : Word)
  deriving DecidableEq, Repr

/-- The state of one port: its row of the per-port table and the registry, its register images, its
interrupt line, its power record and its ISR's step (R17-R39). -/
structure PortState where
  /-- sw_rts[p] (R18). -/
  swRts       : Pin
  /-- sw_cts[p] (R19). -/
  swCts       : Pin
  /-- tx_count[p] (R20). -/
  txCount     : Byte
  /-- initialized[p] (R21). -/
  initialized : Bool
  /-- irq_api[p][d] (R22). -/
  irqApi      : PerDir
  /-- irq_flow[p][d] (R23). -/
  irqFlow     : PerDir
  /-- cb_id[p] (R24). -/
  cbId        : Word
  /-- handler[p] under HANDLER_SLOTS = PER_PORT; `none` is NONE (R25). Log 19. -/
  handler     : Option HandlerToken
  /-- LCR[p] (R27). -/
  lcr         : Byte
  /-- DLL[p] (R28). -/
  dll         : Byte
  /-- DLM[p] (R28). -/
  dlm         : Byte
  /-- FDR[p] (R29). -/
  fdr         : Byte
  /-- IER[p] (R30). -/
  ier         : Ier
  /-- fifo_en[p] (R36). -/
  fifoEn      : FifoEnable
  /-- rx_trigger[p] (R36). -/
  rxTrigger   : RxTrigger
  /-- nvic_en[p] (R37). -/
  nvicEn      : Bool
  /-- vec[p] (R37). -/
  vec         : Bool
  /-- power[p] (R39). -/
  power       : Power
  /-- pclk_div1[p] (R39). -/
  pclkDiv1    : Bool
  /-- step[ISRp] (R17). -/
  isrStep     : IsrStep
  deriving DecidableEq, Repr, Inhabited

/-- The state of the block. The first eight fields are the spec's; the rest are the environment's
choices and the interface the host presents commands on (log 1, log 2, log 3, log 29). -/
structure State where
  /-- The parameters, which no step writes (R8). Log 8. -/
  platform : Platform
  /-- The four ports (R3, R187). -/
  ports    : Vector PortState 4
  /-- MCR[1] (R35). -/
  mcr1     : Mcr
  /-- handler under HANDLER_SLOTS = GLOBAL; `none` is NONE (R25). Log 19. -/
  handler  : Option HandlerToken
  /-- gpio_dir and gpio_out (R38). -/
  gpio     : GpioMap
  /-- step[FG] (R17). -/
  fgStep   : FgStep
  /-- fault (R40). -/
  fault    : Option FaultRecord
  /-- trace, oldest first (R41). -/
  trace    : List Event
  /-- The words FG has presented and the block has not taken, oldest first (R79, R193). Log 3. -/
  fgWords  : List Word
  /-- The words the handler on each ISR has presented, oldest first (R129). Log 29. -/
  isrWords : Vector (List Word) 4
  /-- Who presents the command being performed (R178). -/
  agent    : Agent
  /-- The draws in force in this step (R14). -/
  draw     : Draws
  /-- The environment's choices for the coming steps, oldest first (R12-R14). -/
  inputs   : List EnvInput
  /-- How many steps have been taken: the argument of the free values of Config. -/
  tick     : Nat
  deriving DecidableEq, Repr

/-- Why a step of the machine stops. -/
inductive Fault where
  /-- Raised by `step` alone, in a state whose `fault` holds a record: "once it is set no agent has a
  step" (R40, R163). Safe: the block halts there too. -/
  | halted
  deriving DecidableEq, Repr

/-- Why an instruction has no meaning in the model. -/
inductive Refusal where
  /-- Raised by an arm of `exec` whose instruction has no meaning yet; no arm of this model does. Safe. -/
  | notModelled (mnemonic : String)
  deriving DecidableEq, Repr

/-- A port right after reset (R47). The device registers R47 leaves unspecified hold opaque values of
Config (log 13). -/
def PortState.reset (p : Port) : PortState where
  swRts       := NC
  swCts       := NC
  txCount     := 0
  initialized := false
  irqApi      := ⟨false, false⟩
  irqFlow     := ⟨false, false⟩
  cbId        := 0
  handler     := none
  lcr         := Config.resetLcr p
  dll         := Config.resetDll p
  dlm         := Config.resetDlm p
  fdr         := Config.resetFdr p
  ier         := ⟨⟨false, false⟩, Config.resetIerRest p⟩
  fifoEn      := .unknown
  rxTrigger   := .unknown
  nvicEn      := false
  vec         := false
  power       := .unknown
  pclkDiv1    := false
  isrStep     := .idle

/-- The block right after reset: the start of the process (R47, R194). -/
def State.reset : State where
  platform := Config.platform
  ports    := #v[PortState.reset 0, PortState.reset 1, PortState.reset 2, PortState.reset 3]
  mcr1     := ⟨Config.resetAutoRts, Config.resetAutoCts, Config.resetMcrRest⟩
  handler  := none
  gpio     := []
  fgStep   := .idle
  fault    := none
  trace    := []
  fgWords  := []
  isrWords := #v[[], [], [], []]
  agent    := .fg
  draw     := Config.resetDraws
  inputs   := []
  tick     := 0

end Sys2Proof.Machine
end

