-- ==== Sys2Proof/Machine/Gpio.lean ====
section
/-! DEFINITION. The GPIO record as a sparse map over the pin space (10_state.md R38): reading and writing
one pin, and the canonical form every operation keeps (log 17). -/

namespace Sys2Proof.Machine

/-- What an unlisted pin holds: every pin is UNCONFIGURED at reset (R38, R47), with no level recorded. -/
def GpioPin.reset : GpioPin := ⟨.unconfigured, .unknown⟩

/-- The record of pin `k`. -/
def gpioGet : GpioMap → Nat → GpioPin
  | [], _ => GpioPin.reset
  | (a, v) :: m, k => if a = k then v else gpioGet m k

/-- Put `v` at `k` in front of `m`, listing nothing for the reset value. -/
def gpioCons (k : Nat) (v : GpioPin) (m : GpioMap) : GpioMap :=
  if v = GpioPin.reset then m else (k, v) :: m

/-- The map with `v` at pin `k`, in canonical form again. -/
def gpioSet : GpioMap → Nat → GpioPin → GpioMap
  | [], k, v => gpioCons k v []
  | (a, w) :: m, k, v =>
    if k < a then gpioCons k v ((a, w) :: m)
    else if k = a then gpioCons k v m
    else (a, w) :: gpioSet m k v

/-- The canonical form: pins strictly rising and below 2^16, and no entry at the reset value. -/
abbrev Gpio.wf (m : GpioMap) : Prop :=
  (m.map Prod.fst).Pairwise (· < ·) ∧ (∀ e ∈ m, e.1 < 65536) ∧ (∀ e ∈ m, e.2 ≠ GpioPin.reset)

end Sys2Proof.Machine
end

