-- ==== Sys2Proof/Machine/Access.lean ====
section
/-! DEFINITION. The one home of each read and write of State: a port's row, a direction's flag, a GPIO
pin, the handler slot, the trace. Every operation of the machine goes through these. -/

namespace Sys2Proof.Machine

/-- The other direction: other(RX) = TX and other(TX) = RX (R113). -/
def otherDir : Dir → Dir
  | .rx => .tx
  | .tx => .rx

/-- The flag of direction `d`. -/
def PerDir.get (f : PerDir) (d : Dir) : Bool :=
  match d with
  | .rx => f.rx
  | .tx => f.tx

/-- The flags with direction `d`'s at `b`. -/
def PerDir.set (f : PerDir) (d : Dir) (b : Bool) : PerDir :=
  match d with
  | .rx => { f with rx := b }
  | .tx => { f with tx := b }

/-- Port `p`'s state. -/
def State.port (s : State) (p : Port) : PortState := s.ports[p]

/-- The state with `f` applied to port `p`'s state. -/
def State.modPort (s : State) (p : Port) (f : PortState → PortState) : State :=
  { s with ports := s.ports.set p (f (s.port p)) }

/-- The state with `es` appended to the trace (R41). -/
def State.emit (s : State) (es : List Event) : State := { s with trace := s.trace ++ es }

/-- gpio_dir and gpio_out of a pin (R38). -/
def State.pin (s : State) (pin : Pin) : GpioPin := gpioGet s.gpio pin.toNat

/-- The state with `v` recorded for a pin (R38). -/
def State.setPin (s : State) (pin : Pin) (v : GpioPin) : State :=
  { s with gpio := gpioSet s.gpio pin.toNat v }

/-- The state with step[FG] at `st` (R17). -/
def State.setFgStep (s : State) (st : FgStep) : State := { s with fgStep := st }

/-- The state with MCR[1] at `m` (R35). -/
def State.setMcr1 (s : State) (m : Mcr) : State := { s with mcr1 := m }

/-- handler_of(p) (R25). -/
def State.handlerOf (s : State) (p : Port) : Option HandlerToken :=
  match s.platform.handlerSlots with
  | .global => s.handler
  | .perPort => (s.port p).handler

/-- Write the handler slot that serves port `p` (R25, R122). -/
def State.setHandler (s : State) (p : Port) (h : HandlerToken) : State :=
  match s.platform.handlerSlots with
  | .global => { s with handler := some h }
  | .perPort => s.modPort p fun q => { q with handler := some h }

/-- The state in which `a` presents the command being performed (R178). -/
def State.presentedBy (s : State) (a : Agent) : State := { s with agent := a }

end Sys2Proof.Machine
end

