-- ==== Sys2Proof/Machine/Operands.lean ====
section
/-! DEFINITION. The operand forms: ports (R49), parity (R81), flow modes (R81), pins and the pin-mux
lookup (R142, R154, R188), the line-control word (R106, R107, R109), the IIR field (R126), and what each
agent may present (R178). -/

namespace Sys2Proof.Machine

/-- The port a PORT field names; 4..7 name none (R49). -/
def portOf (f : PortField) : Option Port :=
  if h : f.toNat < 4 then some ⟨f.toNat, h⟩ else none

/-- The PORT field that names port `p`. -/
def fieldOfPort (p : Port) : PortField := BitVec.ofNat 3 p.val

/-- A port index as a response word (R86). -/
def wordOfPort (p : Port) : Word := BitVec.ofNat 32 p.val

/-- A Boolean as a response word, 0 or 1 (R86). -/
def wordOfBool (b : Bool) : Word := if b then 1 else 0

/-- MODE includes RTS: MODE bit 0 (R81). -/
def includesRts : FlowMode → Bool
  | .none => false
  | .rts => true
  | .cts => false
  | .rtsCts => true

/-- MODE includes CTS: MODE bit 1 (R81). -/
def includesCts : FlowMode → Bool
  | .none => false
  | .rts => false
  | .cts => true
  | .rtsCts => true

/-- The first table entry for a pin and signal. -/
def lookupPin : List PinEntry → Pin → Signal → Option Port
  | [], _, _ => none
  | e :: es, pin, sig => if e.pin = pin ∧ e.signal = sig then some e.port else lookupPin es pin sig

/-- PINMAP(pin, signal) (R8, R188): NC maps to nothing. Log 9. -/
def pinmap (plat : Platform) (pin : Pin) (sig : Signal) : Option Port :=
  if pin = NC then none else lookupPin plat.pinTable pin sig

/-- AutoPin(p, pin, s): the pin is usable for hardware flow control of `s` on port `p` (R142). -/
def autoPin (plat : Platform) (p : Port) (pin : Pin) (sig : Signal) : Bool :=
  p == Config.autoFlowPort && pinmap plat pin sig == some Config.autoFlowPort

/-- ResolvePins(txpin, rxpin): the port two pins jointly select, checking TX, then RX, then that they
agree (R154). -/
def resolvePins (plat : Platform) (txPin rxPin : Pin) : Except FaultCause Port :=
  match pinmap plat txPin .tx with
  | none => .error (.pinMappingError .txNone)
  | some a =>
    match pinmap plat rxPin .rx with
    | none => .error (.pinMappingError .rxNone)
    | some b => if a = b then .ok a else .error (.pinMappingError .mismatch)

/-- A legal parity (R81). -/
inductive Parity where
  | none | odd | even | forced1 | forced0
  deriving DecidableEq, Repr, Inhabited

/-- The parity of a PAR code; 5..7 are out of range (R81). -/
def parityOf (c : BitVec 3) : Option Parity :=
  match c.toNat with
  | 0 => some .none
  | 1 => some .odd
  | 2 => some .even
  | 3 => some .forced1
  | 4 => some .forced0
  | _ => none

/-- PE and PS of a parity (R106). -/
def parityBits : Parity → BitVec 1 × BitVec 2
  | .none => (0, 0)
  | .odd => (1, 0)
  | .even => (1, 1)
  | .forced1 => (1, 2)
  | .forced0 => (1, 3)

/-- LcrFormat(bits, par, stops) (R106): bits 7:6 are 0, then PS, PE, SBS and WLS. -/
def lcrFormat (bits : BitVec 4) (par : Parity) (stops : BitVec 2) : Byte :=
  (0 : BitVec 2) ++ (parityBits par).2 ++ (parityBits par).1 ++ (stops - 1).setWidth 1 ++ (bits - 5).setWidth 2

/-- FORMAT's validation, in the order data bits, stop bits, parity (R107). -/
def validateFormat (bits : BitVec 4) (par : BitVec 3) (stops : BitVec 2) : Except FaultCause Parity :=
  if ¬ (5 ≤ bits.toNat ∧ bits.toNat ≤ 8) then .error (.configurationError .dataBits)
  else if ¬ (1 ≤ stops.toNat ∧ stops.toNat ≤ 2) then .error (.configurationError .stopBits)
  else match parityOf par with
    | some pr => .ok pr
    | none => .error (.configurationError .parity)

/-- The inverse decoding of a line-control word: data bits, parity and stop bits (R109). -/
def lcrDecode (v : Byte) : BitVec 4 × Parity × BitVec 2 :=
  let par : Parity :=
    if v.getLsbD 3 then
      match (v.extractLsb' 4 2).toNat with
      | 0 => .odd
      | 1 => .even
      | 2 => .forced1
      | _ => .forced0
    else .none
  ((v.extractLsb' 0 2).setWidth 4 + 5, par, (v.extractLsb' 2 1).setWidth 2 + 1)

/-- LCR with bit `n` at `b`, every other bit kept: the read-modify-write of one field (R27, R57). -/
def withBit (v : Byte) (n : Nat) (b : Bool) : Byte :=
  if b then v ||| (1#8 <<< n) else v &&& ~~~(1#8 <<< n)

/-- The bit of BC, the break bit (R27). -/
abbrev bitBc : Nat := 6

/-- The bit of DLAB, the divisor-latch-access bit (R27). -/
abbrev bitDlab : Nat := 7

/-- The event an IIR value reports: INTID is bits 3:1; 1 is TX-holding-empty, 2 is RX-data-available,
every other code is ignored (R31, R126). -/
def eventOf (iir : Byte) : Option Dir :=
  match (iir.extractLsb' 1 3).toNat with
  | 1 => some .tx
  | 2 => some .rx
  | _ => none

/-- What each context may present (R168, R170, R178). -/
def mayPresent (a : Agent) (op : Op) : Bool :=
  match a with
  | .fg => op != .irqEntry
  | .isr _ => op == .readable || op == .writable
  | .controller => op == .irqEntry

/-- The code numbers of R164. -/
def FaultCause.code : FaultCause → Nat
  | .configurationError _ => 1
  | .pinMappingError _ => 2
  | .refused _ => 16
  | .contextViolation => 17
  | .notInitialized => 18

/-- The sub-code numbers of R164. -/
def FaultCause.subCode : FaultCause → Nat
  | .configurationError .port => 1
  | .configurationError .baudRange => 2
  | .configurationError .dataBits => 3
  | .configurationError .stopBits => 4
  | .configurationError .parity => 5
  | .pinMappingError .txNone => 1
  | .pinMappingError .rxNone => 2
  | .pinMappingError .mismatch => 3
  | .refused .opcode => 1
  | .refused .reservedBits => 2
  | .contextViolation => 0
  | .notInitialized => 0

end Sys2Proof.Machine
end

