-- ==== Sys2Proof/Machine/Flags.lean ====
section
/-! DEFINITION. The Boolean predicates of the block (10_state.md R26): they are computed afresh by each
evaluation from the state and that step's draws, and are not stored. -/

namespace Sys2Proof.Machine

/-- LSR.RDR, LSR bit 0: the readable predicate (R32, R134). -/
def State.readable (s : State) : Bool := s.draw.lsr.getLsbD 0

/-- LSR.TXE, at the platform's position (R9, R32, C4). -/
def State.txeSeen (s : State) : Bool := s.draw.lsr.getLsbD (s.platform.txeBit.val + 1)

/-- Software CTS is in effect for the port (R19). -/
def State.softCts (s : State) (p : Port) : Bool := (s.port p).swCts != NC

/-- Software RTS is in effect for the port, exactly when sw_rts is not NC (R18, R152). -/
def State.softRts (s : State) (p : Port) : Bool := (s.port p).swRts != NC

/-- Software CTS is in effect and the remote says stop: the CTS pin reads 1 (R130, R189). -/
def State.ctsStops (s : State) (p : Port) : Bool := s.softCts p && s.draw.cts

/-- The writable predicate (R130). -/
def State.writable (s : State) (p : Port) : Bool :=
  if s.ctsStops p then false
  else if s.txeSeen then true
  else decide ((s.port p).txCount.toNat < Config.txFifoDepth)

/-- Some requester wants direction `d` of port `p` on: the OR of the two slots (R43, R112). -/
def State.requested (s : State) (p : Port) (d : Dir) : Bool :=
  (s.port p).irqApi.get d || (s.port p).irqFlow.get d

/-- IIR draws the environment may give: all of them, unless IIR_RESPECTS_IER is assumed; then INTID = 2
only while IER.RX_EN = 1 and INTID = 1 only while IER.TX_EN = 1 (R124). Log 23. -/
def State.iirAdmitted (s : State) (p : Port) : Bool :=
  !s.platform.iirRespectsIer ||
    match eventOf s.draw.iir with
    | none => true
    | some d => (s.port p).ier.en.get d

/-- IRQ_ENTRY can be started on ISRp: line enabled, vector installed, ISRp idle (R123); `step` has
already found no fault recorded. -/
def State.irqCanStart (s : State) (p : Port) : Bool :=
  (s.port p).nvicEn && (s.port p).vec && (s.port p).isrStep == .idle && s.iirAdmitted p

end Sys2Proof.Machine
end

