-- ==== Sys2Proof/Machine/Ops.lean ====
section
/-! DEFINITION. The named operations of the block: register accesses, requests to the collaborators,
responses, raising a fault and the checks before it, interrupt entry and return, the applicator, the
divisor programming sequence. Each records its external events in the trace (R41). -/

namespace Sys2Proof.Machine

/-! ### Register accesses (20_memory.md R57, log 18) -/

/-- RegWrite(p, LCR, v): a whole-register write (R27). -/
def State.writeLcr (s : State) (p : Port) (v : Byte) : State :=
  (s.modPort p fun q => { q with lcr := v }).emit [.regWrite p (.lcr v)]

/-- RegWrite(p, LCR.F, b) for the one-bit field at bit `n`: a read-modify-write (R11, R57). -/
def State.setLcrBit (s : State) (p : Port) (n : Nat) (b : Bool) : State :=
  (s.emit [.regRead p (.lcr (s.port p).lcr)]).writeLcr p (withBit (s.port p).lcr n b)

/-- RegWrite(p, DLM, v) (R28). -/
def State.writeDlm (s : State) (p : Port) (v : Byte) : State :=
  (s.modPort p fun q => { q with dlm := v }).emit [.regWrite p (.dlm v)]

/-- RegWrite(p, DLL, v) (R28). -/
def State.writeDll (s : State) (p : Port) (v : Byte) : State :=
  (s.modPort p fun q => { q with dll := v }).emit [.regWrite p (.dll v)]

/-- RegWrite(p, FDR, v) (R29). -/
def State.writeFdr (s : State) (p : Port) (v : Byte) : State :=
  (s.modPort p fun q => { q with fdr := v }).emit [.regWrite p (.fdr v)]

/-- RegWrite(p, IER.d_EN, b): a read-modify-write that keeps the other bits (R30). -/
def State.setIerBit (s : State) (p : Port) (d : Dir) (b : Bool) : State :=
  let old := (s.port p).ier
  let new : Ier := { old with en := old.en.set d b }
  (s.modPort p fun q => { q with ier := new }).emit [.regRead p (.ier old), .regWrite p (.ier new)]

/-- A read-modify-write of MCR[1] that keeps the bits the block does not own (R35). -/
def State.updateMcr (s : State) (new : Mcr) : State :=
  (s.setMcr1 new).emit [.regRead Config.autoFlowPort (.mcr s.mcr1), .regWrite Config.autoFlowPort (.mcr new)]

/-- RegWrite(1, MCR.[AUTO_RTS, AUTO_CTS], 0): one read-modify-write clears both (R144). -/
def State.clearAutoBits (s : State) : State :=
  s.updateMcr { s.mcr1 with autoRts := false, autoCts := false }

/-- RegWrite(1, MCR.AUTO_CTS, 1) (R148). -/
def State.setAutoCts (s : State) : State := s.updateMcr { s.mcr1 with autoCts := true }

/-- RegWrite(1, MCR.AUTO_RTS, 1) (R149). -/
def State.setAutoRts (s : State) : State := s.updateMcr { s.mcr1 with autoRts := true }

/-- RegWrite(p, FCR, v), and the image of the value written (R36). -/
def State.writeFcr (s : State) (p : Port) (v : Fcr) : State :=
  (s.modPort p fun q =>
    { q with
      fifoEn := if v.fifoEn then .on else .off
      rxTrigger := if v.rxTrigger = s.platform.rxTriggerOne then .one else .unknown }).emit
    [.regWrite p (.fcr v)]

/-- The one form of FCR write of the block: FIFOs enabled, the RX FIFO reset, and the TX FIFO with it if
`tx`, trigger level ONE; the bits in no named field are the draw (R149, R155, R161, log 12). -/
def State.resetFifos (s : State) (p : Port) (tx : Bool) : State :=
  s.writeFcr p ⟨true, true, tx, s.platform.rxTriggerOne, s.draw.fcrRest⟩

/-- RegWrite(p, THR, b): hands one byte to the transmitter (R33, R59). -/
def State.writeThr (s : State) (p : Port) (b : Byte) : State := s.emit [.regWrite p (.thr b)]

/-- RegRead(p, LSR): the draw (R32). -/
def State.readLsr (s : State) (p : Port) : State := s.emit [.regRead p (.lsr s.draw.lsr)]

/-- RegRead(p, IIR): the draw; the pending condition it clears is ENV's (R31, R59, R175). -/
def State.readIir (s : State) (p : Port) : State := s.emit [.regRead p (.iir s.draw.iir)]

/-- RegRead(p, RBR): the draw (R34, R59). -/
def State.readRbr (s : State) (p : Port) : State := s.emit [.regRead p (.rbr s.draw.rbr)]

/-! ### Requests to the collaborators (60_exceptions.md R188-R191) and responses -/

/-- GpioInit(pin, dir): sets the direction; a new output has no known level (R38). Log 16. -/
def State.gpioInit (s : State) (pin : Pin) (dir : GpioDir) : State :=
  (s.setPin pin ⟨dir, if dir = .output then .unknown else (s.pin pin).out⟩).emit [.gpioInit pin dir]

/-- GpioWrite(pin, b): sets the level (R38). -/
def State.gpioWrite (s : State) (pin : Pin) (b : Bool) : State :=
  (s.setPin pin { s.pin pin with out := if b then .high else .low }).emit [.gpioWrite pin b]

/-- GpioRead(pin): the draw (R38, R189). -/
def State.gpioRead (s : State) (pin : Pin) : State := s.emit [.gpioRead pin s.draw.cts]

/-- NvicSetVector(p); vec[p] <- true (R37, R113). -/
def State.nvicSetVector (s : State) (p : Port) : State :=
  (s.modPort p fun q => { q with vec := true }).emit [.nvicSetVector p]

/-- NvicEnable(p); nvic_en[p] <- true (R37, R113). -/
def State.nvicEnable (s : State) (p : Port) : State :=
  (s.modPort p fun q => { q with nvicEn := true }).emit [.nvicEnable p]

/-- NvicDisable(p); nvic_en[p] <- false (R37, R113). -/
def State.nvicDisable (s : State) (p : Port) : State :=
  (s.modPort p fun q => { q with nvicEn := false }).emit [.nvicDisable p]

/-- PinOut(pin, signal) (R188). -/
def State.pinOut (s : State) (pin : Pin) (sig : Signal) : State := s.emit [.pinOut pin sig]

/-- PinMode(pin, PULL_UP) (R188). -/
def State.pullUp (s : State) (pin : Pin) : State := s.emit [.pinMode pin .pullUp]

/-- Power(p); power[p] <- ON (R39, R157). -/
def State.powerOn (s : State) (p : Port) : State :=
  (s.modPort p fun q => { q with power := .on }).emit [.power p]

/-- PclkDiv1(p); pclk_div1[p] <- true (R39, R157). -/
def State.selectPclk (s : State) (p : Port) : State :=
  (s.modPort p fun q => { q with pclkDiv1 := true }).emit [.pclkDiv1 p]

/-- respond v (R86). -/
def State.respond (s : State) (v : Word) : State := s.emit [.response v]

/-! ### Faults: raising one, and the checks before a command (60_exceptions.md R163, R170) -/

/-- raise: the fault record is stored, with the OP and port field of the command and the agent that
presented it (R163, R164). Nothing else changes; from then on no agent has a step. Log 4. -/
def State.raise (s : State) (c : FaultCause) (op : BitVec 5) (port : PortField) : State :=
  { s with fault := some ⟨c, op, port, s.agent⟩ }

/-- CommonChecks(op, p) after the decode, for a command with a port operand: the context, the port, and
that the port is initialised, in this order (R170). -/
def State.commonChecks (s : State) (op : Op) (port : PortField) : Except FaultCause Port :=
  if mayPresent s.agent op then
    match portOf port with
    | none => .error (.configurationError .port)
    | some p => if (s.port p).initialized then .ok p else .error .notInitialized
  else .error .contextViolation

/-- Run `body` on the port that passed CommonChecks, or raise the first fault that applies (R170). -/
def State.checked (s : State) (op : Op) (port : PortField) (body : Port → State) : State :=
  match s.commonChecks op port with
  | .error c => s.raise c op.code port
  | .ok p => body p

/-- raise REFUSED for a refused command word: OP and port are the word's own fields (R82, R167).
Log 22. -/
def State.raiseRefused (s : State) (why : RefusedSub) (cmd : Word) : State :=
  s.raise (.refused why) (opField cmd) (portField cmd)

/-! ### Interrupt entry and return (60_exceptions.md R179-R181) -/

/-- Raise the RTS pin if the event is RX and software RTS is in effect (R125, R127). -/
def State.raiseRts (s : State) (p : Port) (ev : Dir) : State :=
  if ev = .rx ∧ s.softRts p = true then s.gpioWrite (s.port p).swRts true else s

/-- Invoke the handler if an identifier is registered; step[ISRp] <- IN_HANDLER (R128, R180). -/
def State.callHandler (s : State) (p : Port) (ev : Dir) : State :=
  if (s.port p).cbId = 0 then s
  else (s.emit [.handler (s.handlerOf p) (s.port p).cbId ev]).modPort p fun q => { q with isrStep := .inHandler }

/-- Interrupt entry on ISRp: read IIR once, decode the event, raise RTS, call the handler. It saves no
state; step[FG] and the enables stay as they are (R125, R126, R179). -/
def State.enterIsr (s : State) (p : Port) : State :=
  let s1 := s.readIir p
  match eventOf s.draw.iir with
  | none => s1
  | some ev => (s1.raiseRts p ev).callHandler p ev

/-- The handler's return: step[ISRp] <- IDLE and nothing else (R181). -/
def State.returnFromIsr (s : State) (p : Port) : State :=
  s.modPort p fun q => { q with isrStep := .idle }

/-! ### The arbiter's applicator (42_interrupt_arbiter.md R113-R116) -/

/-- The enable branch (R114). -/
def State.enableLine (s : State) (p : Port) (d : Dir) : State :=
  ((s.setIerBit p d true).nvicSetVector p).nvicEnable p

/-- The disable branch (R115). The other direction's bit is the register image, log 18. -/
def State.disableLine (s : State) (p : Port) (d : Dir) : State :=
  let s1 := s.setIerBit p d false
  if (s1.port p).ier.en.get (otherDir d) then s1 else s1.nvicDisable p

/-- Apply(p, d, en), after the requester's slot is written (R113). -/
def State.applyRequest (s : State) (p : Port) (d : Dir) (en : Bool) : State :=
  if en then s.enableLine p d
  else if s.requested p d then s
  else s.disableLine p d

/-- irq_api[p][d] <- en, then Apply (R117). -/
def State.requestApi (s : State) (p : Port) (d : Dir) (en : Bool) : State :=
  (s.modPort p fun q => { q with irqApi := q.irqApi.set d en }).applyRequest p d en

/-- irq_flow[p][d] <- en, then Apply (R118). -/
def State.requestFlow (s : State) (p : Port) (d : Dir) (en : Bool) : State :=
  (s.modPort p fun q => { q with irqFlow := q.irqFlow.set d en }).applyRequest p d en

/-! ### The writable predicate's evaluation (43_tx_credit.md R130, R131) -/

/-- What one evaluation of Writable(p) does: the CTS read if software CTS is in effect; unless it says
stop, the LSR read, and the count's reset when TXE is seen. Its answer is `State.writable`. -/
def State.evalWritable (s : State) (p : Port) : State :=
  let s1 := if s.softCts p then s.gpioRead (s.port p).swCts else s
  if s.ctsStops p then s1
  else
    let s2 := s1.readLsr p
    if s.txeSeen then s2.modPort p fun q => { q with txCount := 0 } else s2

/-! ### Divisor programming (40_divisor.md R104) -/

/-- FDR = (MulVal << 4) | DivAddVal (R29, R54). -/
def fdrOf (dav mv : Nat) : Byte := (BitVec.ofNat 8 mv <<< 4) ||| BitVec.ofNat 8 dav

/-- ProgramDivisor(p, dl, dav, mv): the five register accesses in order (R104). -/
def State.programDivisor (s : State) (p : Port) (dl dav mv : Nat) : State :=
  ((((s.setLcrBit p bitDlab true).writeDlm p (BitVec.ofNat 8 (dl / 256))).writeDll p (BitVec.ofNat 8 dl)).writeFdr p
    (fdrOf dav mv)).setLcrBit p bitDlab false

end Sys2Proof.Machine
end

