-- ==== Sys2Proof/Machine/Arbiter.lean ====
section
/-! DEFINITION. The meanings of IRQ_SET, FLOW_IRQ_SET, IRQ_HANDLER and IRQ_ENTRY
(42_interrupt_arbiter.md R117-R128). -/

namespace Sys2Proof.Machine

/-- IRQ_SET p, d, en: the application's slot, then the applicator (R117). -/
def execIrqSet (port : PortField) (dir : Dir) (en : Bool) (s : State) : Host.Outcome State Fault Refusal :=
  .next (s.checked .irqSet port fun p => s.requestApi p dir en)

/-- FLOW_IRQ_SET p, d, en: the flow-control slot, then the applicator (R118). -/
def execFlowIrqSet (port : PortField) (dir : Dir) (en : Bool) (s : State) : Host.Outcome State Fault Refusal :=
  .next (s.checked .flowIrqSet port fun p => s.requestFlow p dir en)

/-- IRQ_HANDLER p, h, id: the identifier and the handler slot (R122). -/
def execIrqHandler (port : PortField) (htok : HandlerToken) (id : Word) (s : State) :
    Host.Outcome State Fault Refusal :=
  .next (s.checked .irqHandler port fun p =>
    (s.modPort p fun q => { q with cbId := id }).setHandler p htok)

/-- IRQ_ENTRY p: interrupt entry on ISRp when the interrupt controller presents it (R125); presented by
FG or a handler it raises CONTEXT_VIOLATION (R168, R170). The controller has a line for each port only;
a port field of 4..7 names no vector and is no command it may issue (log 21). -/
def execIrqEntry (port : PortField) (s : State) : Host.Outcome State Fault Refusal :=
  .next (match s.agent, portOf port with
    | .controller, some p => s.enterIsr p
    | .controller, none => s.raise .contextViolation Op.irqEntry.code port
    | .fg, _ => s.raise .contextViolation Op.irqEntry.code port
    | .isr _, _ => s.raise .contextViolation Op.irqEntry.code port)

end Sys2Proof.Machine
end

