-- ==== Sys2Proof/Machine/Divisor.lean ====
section
/-! DEFINITION. The Divisor Calculator, a pure function (40_divisor.md R90-R102): exact rationals, and
IEEE binary32 rounding for DC_ARITH = BINARY32. -/

namespace Sys2Proof.Machine

/-- A nonnegative rational, num / den. -/
structure Frac where
  num : Nat
  den : Nat
  deriving DecidableEq, Repr, Inhabited

/-- The strict order of rationals with positive denominators, by cross multiplication. -/
def Frac.lt (a b : Frac) : Bool := a.num * b.den < b.num * a.den

/-- A natural number as a fraction. -/
def Frac.ofNat (n : Nat) : Frac := ⟨n, 1⟩

/-- The sum. -/
def Frac.add (a b : Frac) : Frac := ⟨a.num * b.den + b.num * a.den, a.den * b.den⟩

/-- The absolute value of the difference. -/
def Frac.absDiff (a b : Frac) : Frac :=
  ⟨(a.num * b.den - b.num * a.den) + (b.num * a.den - a.num * b.den), a.den * b.den⟩

/-- The product. -/
def Frac.mul (a b : Frac) : Frac := ⟨a.num * b.num, a.den * b.den⟩

/-- The quotient. -/
def Frac.div (a b : Frac) : Frac := ⟨a.num * b.den, a.den * b.num⟩

/-- num / den rounded to a natural, ties to even. -/
def roundHalfEven (num den : Nat) : Nat :=
  let q := num / den
  let r := num % den
  if 2 * r < den then q
  else if den < 2 * r then q + 1
  else if q % 2 = 0 then q else q + 1

/-- The binary32 value nearest a rational, ties to even: a 24-bit significand at the exponent that
brings the value into [2^23, 2^24). No value of R102 leaves the normal range (log 24). -/
def binary32 (x : Frac) : Frac :=
  if x.num = 0 then ⟨0, 1⟩
  else
    let up := 23 + x.den.log2
    let down := x.num.log2
    let n := x.num * 2 ^ up
    let d := x.den * 2 ^ down
    if n / d < 2 ^ 23 then ⟨roundHalfEven (2 * n) d * 2 ^ down, 2 ^ (up + 1)⟩
    else ⟨roundHalfEven n d * 2 ^ down, 2 ^ up⟩

/-- A divisor triple (DL, DivAddVal, MulVal) (R90). -/
structure Triple where
  dl  : Nat
  dav : Nat
  mv  : Nat
  deriving DecidableEq, Repr, Inhabited

/-- The error of a candidate, exactly: |D − PCLK·mv| / D with D = 16·baud·dl·(mv + dav) (R96). -/
def errExact (pclk baud : Nat) (t : Triple) : Frac :=
  let d := 16 * baud * t.dl * (t.mv + t.dav)
  ⟨(d - pclk * t.mv) + (pclk * t.mv - d), d⟩

/-- The error of a candidate, every operation rounded to binary32 in the order of R102. -/
def errBinary32 (pclk baud : Nat) (t : Triple) : Frac :=
  let fl := fun n => binary32 (Frac.ofNat n)
  let r := binary32 ((Frac.ofNat 1).add (binary32 ((fl t.dav).div (fl t.mv))))
  let base := binary32 ((fl 16).mul (fl t.dl))
  let rate := binary32 ((fl pclk).div (binary32 (base.mul r)))
  binary32 ((binary32 ((fl baud).absDiff rate)).div (fl baud))

/-- DC_ERR_THRESHOLD = 1/1000 (R8). -/
def errThreshold : Frac := ⟨1, 1000⟩

/-- The error function of DC_ARITH (R96, R102). -/
def errOf (a : DcArith) (pclk baud : Nat) (t : Triple) : Frac :=
  match a with
  | .exact => errExact pclk baud t
  | .binary32 => errBinary32 pclk baud t

/-- The threshold of DC_ARITH: 1/1000, or the binary32 value nearest it (R98, R102). -/
def thresholdOf (a : DcArith) : Frac :=
  match a with
  | .exact => errThreshold
  | .binary32 => binary32 errThreshold

/-- The candidates of one dl: mv from 1 to 15, and for each dav from 1 to mv − 1. A dl of 0 has none
(R94, R95). -/
def candidates (dl : Nat) : List Triple :=
  if dl = 0 then []
  else (List.range' 1 15).flatMap fun mv => (List.range' 1 (mv - 1)).map fun dav => ⟨dl, dav, mv⟩

/-- All candidates, dl from DL0 div 2 to DL0, in the order that is part of the contract (R94). -/
def searchSpace (dl0 : Nat) : List Triple :=
  (List.range' (dl0 / 2) (dl0 - dl0 / 2 + 1)).flatMap candidates

/-- A retained tuple and its error (R97). -/
structure Best where
  triple : Triple
  err    : Frac
  deriving DecidableEq, Repr, Inhabited

/-- The candidate is an improvement: its error is strictly below the best so far, +∞ at first (R97). -/
def improves (e : Frac) (best : Option Best) : Bool :=
  match best with
  | none => true
  | some b => e.lt b.err

/-- The search: examine candidates in order, retain strict improvements, stop at once when a retained
one has an error below the threshold (R97, R98). -/
def search (err : Triple → Frac) (threshold : Frac) : List Triple → Option Best → Option Triple
  | [], best => best.map Best.triple
  | t :: ts, best =>
    if improves (err t) best then
      if (err t).lt threshold then some t else search err threshold ts (some ⟨t, err t⟩)
    else search err threshold ts best

/-- DC(PCLK, baud) (R90): `none` is CONFIGURATION_ERROR(BAUD_RANGE), by the admission R91 and the width
R92; then the exact case R93; then the search R94-R98. -/
def divisorOf (a : DcArith) (pclk baud : Nat) : Option Triple :=
  if baud = 0 ∨ pclk < 16 * baud then none
  else
    let dl0 := pclk / (16 * baud)
    if 0xFFFF < dl0 then none
    else if pclk % (16 * baud) = 0 then some ⟨dl0, 0, 1⟩
    else search (errOf a pclk baud) (thresholdOf a) (searchSpace dl0) none

/-- DC at the platform's clock and arithmetic (R8, R90). -/
def State.divisor (s : State) (baud : Nat) : Option Triple :=
  divisorOf s.platform.dcArith s.platform.pclkHz baud

end Sys2Proof.Machine
end

