-- ==== Sys2Proof/Machine/Baud.lean ====
section
/-! DEFINITION. The meaning of BAUD (40_divisor.md R103). -/

namespace Sys2Proof.Machine

/-- BAUD p, rate: the checks, then DC, then the divisor programming; a rate DC does not admit raises
CONFIGURATION_ERROR(BAUD_RANGE) before any register is written (R103). -/
def execBaud (port : PortField) (rate : Word) (s : State) : Host.Outcome State Fault Refusal :=
  .next (s.checked .baud port fun p =>
    match s.divisor rate.toNat with
    | none => s.raise (.configurationError .baudRange) Op.baud.code port
    | some t => s.programDivisor p t.dl t.dav t.mv)

end Sys2Proof.Machine
end

