-- ==== Sys2Proof/Machine/FlowSteps.lean ====
section
/-! DEFINITION. The six atomic steps of DoFlow, for SET_FLOW_CONTROL and for INIT
(44_flow_control.md R143-R151). -/

namespace Sys2Proof.Machine

/-- The sequence ends: step[FG] <- IDLE, and INIT responds its port (R143, R155). -/
def State.endFlow (s : State) (r : FlowRequest) : State :=
  if r.respond then (s.setFgStep .idle).respond (wordOfPort r.port) else s.setFgStep .idle

/-- Step 1: on the auto-capable port, clear both auto bits (R144). -/
def State.flowStep1 (s : State) (r : FlowRequest) : State :=
  (if r.port = Config.autoFlowPort then s.clearAutoBits else s).setFgStep (.sfc2 r)

/-- Step 2: flow_irq_set(port, RX, 0) through the arbiter (R145). -/
def State.flowStep2 (s : State) (r : FlowRequest) : State :=
  (s.requestFlow r.port .rx false).setFgStep (.sfc3 r)

/-- Step 3: clear both pin slots (R146). DEDUCED, log 34: with it, and not before, software RTS is off and
R205's window begins (R18, R143, R151). -/
def State.flowStep3 (s : State) (r : FlowRequest) : State :=
  (s.modPort r.port fun q => { q with swRts := NC, swCts := NC }).setFgStep (.sfc4 r)

/-- Step 4: if the mode is none, the sequence ends (R147). -/
def State.flowStep4 (s : State) (r : FlowRequest) : State :=
  if r.mode = .none then s.endFlow r else s.setFgStep (.sfc5 r)

/-- Step 5 for a present CTS pin: the hardware path, or a GPIO input stored as sw_cts (R148). -/
def State.connectCts (s : State) (p : Port) (pin : Pin) : State :=
  if autoPin s.platform p pin .cts then (s.pinOut pin .cts).setAutoCts
  else (s.gpioInit pin .input).modPort p fun q => { q with swCts := pin }

/-- Step 5 (R148). -/
def State.flowStep5 (s : State) (r : FlowRequest) : State :=
  (if includesCts r.mode = true ∧ r.txPin ≠ NC then s.connectCts r.port r.txPin else s).setFgStep (.sfc6 r)

/-- Step 6 for a present RTS pin: the RX FIFO reset with trigger level one, then the hardware path, or a
GPIO output driven low, stored as sw_rts, and flow_irq_set(port, RX, 1) (R149). -/
def State.connectRts (s : State) (p : Port) (pin : Pin) : State :=
  let s1 := s.resetFifos p false
  if autoPin s.platform p pin .rts then (s1.pinOut pin .rts).setAutoRts
  else
    (((s1.gpioInit pin .output).gpioWrite pin false).modPort p fun q => { q with swRts := pin }).requestFlow p .rx true

/-- Step 6, after which the sequence ends (R149). -/
def State.flowStep6 (s : State) (r : FlowRequest) : State :=
  (if includesRts r.mode = true ∧ r.rxPin ≠ NC then s.connectRts r.port r.rxPin else s).endFlow r

end Sys2Proof.Machine
end

