-- ==== Sys2Proof/Machine/Holds.lean ====
section
/-! DEFINITION. The holds of PUTC and GETC and GETC's second micro-step (43_tx_credit.md R136-R138). A
poll that fails leaves the block as it is and the trace without its reads (R133, R137, log 5). -/

namespace Sys2Proof.Machine

/-- PUTC's hold is lifted: the successful evaluation's effects, the THR write and the increment, as one
step (R136, R137). -/
def State.sendByte (s : State) (p : Port) (b : Byte) : State :=
  (((s.evalWritable p).writeThr p b).modPort p fun q => { q with txCount := q.txCount + 1 }).setFgStep .idle

/-- One poll of PUTC's hold (R137). -/
def State.pollPutc (s : State) (p : Port) (b : Byte) : State :=
  if s.writable p then s.sendByte p b else s

/-- GETC's micro-step A: the LSR read that finds RDR = 1, and RTS lowered if software RTS is in effect
(R138, R139). -/
def State.acceptByte (s : State) (p : Port) : State :=
  let s1 := s.readLsr p
  (if s.softRts p then s1.gpioWrite (s.port p).swRts false else s1).setFgStep (.getcB p)

/-- One poll of GETC's hold (R138). -/
def State.pollGetc (s : State) (p : Port) : State :=
  if s.readable then s.acceptByte p else s

/-- GETC's micro-step B: the RBR read and the response (R138). -/
def State.takeByte (s : State) (p : Port) : State :=
  ((s.readRbr p).setFgStep .idle).respond (s.draw.rbr.setWidth 32)

end Sys2Proof.Machine
end

