-- ==== Sys2Proof/Machine/Foreground.lean ====
section
/-! DEFINITION. The foreground's command in progress: its next micro-step, and how a command enters its
first one (10_state.md R17, 44_flow_control.md R151). -/

namespace Sys2Proof.Machine

/-- The next atomic step of FG's command in progress; none when step[FG] = IDLE (R17, R137, R138, R151). -/
def State.advanceFg (s : State) : State :=
  match s.fgStep with
  | .idle => s
  | .putcW p b => s.pollPutc p b
  | .getcW p => s.pollGetc p
  | .getcB p => s.takeByte p
  | .sfc1 r => s.flowStep1 r
  | .sfc2 r => s.flowStep2 r
  | .sfc3 r => s.flowStep3 r
  | .sfc4 r => s.flowStep4 r
  | .sfc5 r => s.flowStep5 r
  | .sfc6 r => s.flowStep6 r

/-- A command taken by FG enters `st`. Whether its first micro-step falls in the same step, or other
agents may come first, is the environment's choice (R151, log 6). -/
def State.enterFg (s : State) (st : FgStep) : State :=
  let s1 := s.setFgStep st
  if s.draw.prompt then s1.advanceFg else s1

end Sys2Proof.Machine
end

