-- ==== Sys2Proof/Machine/Facade.lean ====
section
/-! DEFINITION. The meanings of INIT, FREE and CLEAR (45_port_facade.md R155-R161). -/

namespace Sys2Proof.Machine

/-- INIT up to the divisor: power, clock divider and the FIFO reset (R155, R157). -/
def State.initPower (s : State) (p : Port) : State :=
  ((s.powerOn p).selectPclk p).resetFifos p true

/-- INIT from the divisor to `initialized`: 9600 baud, 8-N-1, the pins routed and pulled up (R155). -/
def State.initLine (s : State) (p : Port) (t : Triple) (txPin rxPin : Pin) : State :=
  ((((((s.programDivisor p t.dl t.dav t.mv).writeLcr p (lcrFormat 8 .none 1)).pinOut txPin .tx).pinOut rxPin .rx).pullUp
    txPin).pullUp rxPin).modPort p fun q => { q with initialized := true }

/-- INIT on the port its pins select. A clock too low for 9600 baud raises BAUD_RANGE after the power
and FIFO requests (R155, R171); otherwise DoFlow(p, none, NC, NC) follows, and the response after it. -/
def State.initPort (s : State) (p : Port) (txPin rxPin : Pin) : State :=
  match s.divisor Config.defaultBaud with
  | none => (s.initPower p).raise (.configurationError .baudRange) Op.init.code 0
  | some t => ((s.initPower p).initLine p t txPin rxPin).enterFg (.sfc1 ⟨p, .none, NC, NC, true⟩)

/-- INIT tx_pin, rx_pin: the context check, the pins, then the port (R154, R155, R170). -/
def execInit (txPin rxPin : Pin) (s : State) : Host.Outcome State Fault Refusal :=
  .next (if mayPresent s.agent .init then
      match resolvePins s.platform txPin rxPin with
      | .error c => s.raise c Op.init.code 0
      | .ok p => s.initPort p txPin rxPin
    else s.raise .contextViolation Op.init.code 0)

/-- FREE p: cb_id[p] <- 0 (R160). -/
def execFree (port : PortField) (s : State) : Host.Outcome State Fault Refusal :=
  .next (s.checked .free port fun p => s.modPort p fun q => { q with cbId := 0 })

/-- CLEAR p: reset both FIFOs, leave them enabled (R161). -/
def execClear (port : PortField) (s : State) : Host.Outcome State Fault Refusal :=
  .next (s.checked .clear port fun p => s.resetFifos p true)

end Sys2Proof.Machine
end

