-- ==== Sys2Proof/Machine/FlowControl.lean ====
section
/-! DEFINITION. The meaning of SET_FLOW_CONTROL (44_flow_control.md R143). -/

namespace Sys2Proof.Machine

/-- SET_FLOW_CONTROL p, mode, rx_flow_pin, tx_flow_pin: the checks, then DoFlow (R143). -/
def execSetFlowControl (port : PortField) (mode : FlowMode) (rxPin txPin : Pin) (s : State) :
    Host.Outcome State Fault Refusal :=
  .next (s.checked .setFlowControl port fun p => s.enterFg (.sfc1 ⟨p, mode, rxPin, txPin, false⟩))

end Sys2Proof.Machine
end

