-- ==== Sys2Proof/Machine/LineFormat.lean ====
section
/-! DEFINITION. The meanings of FORMAT, BREAK_SET and BREAK_CLEAR (41_line_format.md R108-R111). -/

namespace Sys2Proof.Machine

/-- FORMAT p, bits, par, stops: validate, then write the whole LCR (R107, R108). -/
def execFormat (port : PortField) (bits : BitVec 4) (par : BitVec 3) (stops : BitVec 2) (s : State) :
    Host.Outcome State Fault Refusal :=
  .next (s.checked .format port fun p =>
    match validateFormat bits par stops with
    | .error c => s.raise c Op.format.code port
    | .ok pr => s.writeLcr p (lcrFormat bits pr stops))

/-- BREAK_SET p: LCR.BC <- 1 (R110). -/
def execBreakSet (port : PortField) (s : State) : Host.Outcome State Fault Refusal :=
  .next (s.checked .breakSet port fun p => s.setLcrBit p bitBc true)

/-- BREAK_CLEAR p: LCR.BC <- 0 (R111). -/
def execBreakClear (port : PortField) (s : State) : Host.Outcome State Fault Refusal :=
  .next (s.checked .breakClear port fun p => s.setLcrBit p bitBc false)

end Sys2Proof.Machine
end

