-- ==== Sys2Proof/Machine/TxCredit.lean ====
section
/-! DEFINITION. The meanings of READABLE, WRITABLE, GETC and PUTC (43_tx_credit.md R134-R138). -/

namespace Sys2Proof.Machine

/-- READABLE p: read LSR, respond RDR (R134). -/
def execReadable (port : PortField) (s : State) : Host.Outcome State Fault Refusal :=
  .next (s.checked .readable port fun p => (s.readLsr p).respond (wordOfBool s.readable))

/-- WRITABLE p: one evaluation of the writable predicate, respond its answer (R135). -/
def execWritable (port : PortField) (s : State) : Host.Outcome State Fault Refusal :=
  .next (s.checked .writable port fun p => (s.evalWritable p).respond (wordOfBool (s.writable p)))

/-- GETC p: enter the hold on RDR (R138). -/
def execGetc (port : PortField) (s : State) : Host.Outcome State Fault Refusal :=
  .next (s.checked .getc port fun p => s.enterFg (.getcW p))

/-- PUTC p, b: enter the hold on Writable (R136). -/
def execPutc (port : PortField) (byte : Byte) (s : State) : Host.Outcome State Fault Refusal :=
  .next (s.checked .putc port fun p => s.enterFg (.putcW p byte))

end Sys2Proof.Machine
end

