-- ==== Sys2Proof/Machine/Dispatch.lean ====
section
/-! DEFINITION. One arm per command: the command presented by State.agent is performed in State. -/

namespace Sys2Proof.Machine

def exec (i : Instr) (s : State) : Host.Outcome State Fault Refusal :=
  match i with
  | .baud port rate => Sys2Proof.Machine.execBaud port rate s
  | .format port bits par stops => Sys2Proof.Machine.execFormat port bits par stops s
  | .breakSet port => Sys2Proof.Machine.execBreakSet port s
  | .breakClear port => Sys2Proof.Machine.execBreakClear port s
  | .irqSet port dir en => Sys2Proof.Machine.execIrqSet port dir en s
  | .flowIrqSet port dir en => Sys2Proof.Machine.execFlowIrqSet port dir en s
  | .irqHandler port htok id => Sys2Proof.Machine.execIrqHandler port htok id s
  | .irqEntry port => Sys2Proof.Machine.execIrqEntry port s
  | .readable port => Sys2Proof.Machine.execReadable port s
  | .writable port => Sys2Proof.Machine.execWritable port s
  | .getc port => Sys2Proof.Machine.execGetc port s
  | .putc port byte => Sys2Proof.Machine.execPutc port byte s
  | .setFlowControl port mode rxPin txPin => Sys2Proof.Machine.execSetFlowControl port mode rxPin txPin s
  | .init txPin rxPin => Sys2Proof.Machine.execInit txPin rxPin s
  | .free port => Sys2Proof.Machine.execFree port s
  | .clear port => Sys2Proof.Machine.execClear port s

end Sys2Proof.Machine
end

