-- ==== Sys2Proof/Machine/Schedule.lean ====
section
/-! DEFINITION. One agent's move (00_scope.md R12-R14, 42_interrupt_arbiter.md R123, R129,
60_exceptions.md R177-R182): the environment's choices for a step, taking a presented command, and what
each move does. A move that is not enabled leaves the block as it is (log 1). -/

namespace Sys2Proof.Machine

/-- The environment's choices for the coming step: the oldest of State.inputs, or the free values of
Config when there is none (log 2). -/
def State.nextInput (s : State) : EnvInput :=
  match s.inputs with
  | [] => ⟨Config.freeMove s.tick, Config.freeDraws s.tick⟩
  | i :: _ => i

/-- The state in which the coming step's choices are taken and its draws are in force. -/
def State.takeInput (s : State) : State :=
  { s with draw := s.nextInput.draws, inputs := s.inputs.tail, tick := s.tick + 1 }

/-- FG's words after a command is taken. -/
def State.setFgWords (s : State) (ws : List Word) : State := { s with fgWords := ws }

/-- The words the handler on ISRp has presented (R129). -/
def State.isrWordsOf (s : State) (p : Port) : List Word := s.isrWords[p]

/-- The handler's words after a command is taken. -/
def State.setIsrWords (s : State) (p : Port) (ws : List Word) : State :=
  { s with isrWords := s.isrWords.set p ws }

/-- FG takes its next command, if one has arrived whole (R17, R79, R82, R86). -/
def State.takeFgCommand (s : State) : Host.Outcome State Fault Refusal :=
  match decode s.fgWords with
  | .waiting => .next s
  | .refused why cmd rest => .next (((s.setFgWords rest).presentedBy .fg).raiseRefused why cmd)
  | .command i rest => exec i ((s.setFgWords rest).presentedBy .fg)

/-- The handler on ISRp presents its next command, if one has arrived whole (R129, R178). -/
def State.takeIsrCommand (s : State) (p : Port) : Host.Outcome State Fault Refusal :=
  match decode (s.isrWordsOf p) with
  | .waiting => .next s
  | .refused why cmd rest => .next (((s.setIsrWords p rest).presentedBy (.isr p)).raiseRefused why cmd)
  | .command i rest => exec i ((s.setIsrWords p rest).presentedBy (.isr p))

/-- FG's move: the next micro-step of its command in progress, or its next command (R17). DESIGN CHOICE,
log 33: it does not wait for the ISRs that are IN_HANDLER to return. -/
def State.moveFg (s : State) : Host.Outcome State Fault Refusal :=
  if s.fgStep = .idle then s.takeFgCommand else .next s.advanceFg

/-- ENV's move to start IRQ_ENTRY on ISRp, where R123 allows it, whoever else is running (R13, R182). -/
def State.moveIrq (s : State) (p : Port) : Host.Outcome State Fault Refusal :=
  if s.irqCanStart p then exec (.irqEntry (fieldOfPort p)) (s.presentedBy .controller) else .next s

/-- The move of the handler on ISRp, while it runs (R129). DESIGN CHOICE, log 33: it does not wait for
an ISR nested in it to return. -/
def State.moveIsr (s : State) (p : Port) : Host.Outcome State Fault Refusal :=
  if (s.port p).isrStep = .inHandler then s.takeIsrCommand p else .next s

/-- The move the environment chose, with its draws in force. DESIGN CHOICE, log 33: no move, a handler's
return included, waits for another agent. -/
def State.moveBy (s : State) (m : Move) : Host.Outcome State Fault Refusal :=
  match m with
  | .fg => s.moveFg
  | .irq p => s.moveIrq p
  | .isr p => s.moveIsr p
  | .ret p => .next (s.returnFromIsr p)

/-- One step of a block with no fault recorded. -/
def State.move (s : State) : Host.Outcome State Fault Refusal := s.takeInput.moveBy s.nextInput.move

/-- The state in which FG presents the words `ws` next, is idle, no fault is recorded, and the
environment lets FG move with the free draws of this step (log 3). -/
def State.withFgCommand (s : State) (ws : List Word) : State :=
  { s with
    fgStep := .idle
    fault := none
    fgWords := ws ++ s.fgWords
    inputs := ⟨.fg, Config.freeDraws s.tick⟩ :: s.inputs }

end Sys2Proof.Machine
end

