-- ==== Sys2Proof/Machine/Step.lean ====
section
/-! DEFINITION. One step of the block, and how a word of the opcode table is put where the next step
takes its command from. -/

namespace Sys2Proof.Machine

/-- One step: once a fault is recorded no agent has a step (60_exceptions.md R163); otherwise the agent
the environment chose moves (00_scope.md R12, R13). -/
def step (s : State) : Host.Outcome State Fault Refusal :=
  match s.fault with
  | some _ => .fault .halted
  | none => s.move

/-- The state whose next step takes, as FG, the instruction whose bits are `w` (log 3). -/
def State.withFetchWord (s : State) (nbits w : Nat) : State := s.withFgCommand (tableWords nbits w)

end Sys2Proof.Machine
end

