-- ==== Sys2Proof/Safety.lean ====
section
/-! DEFINITION. The vocabulary of the claims: ended and refuted runs (70_reset_and_hazards.md R199), the
states a run can start in (10_state.md R47) and reach, what a step leaves as it was, and the invariant of
the block. -/

namespace Sys2Proof.Machine

/-! ### Runs -/

/-- A run has ended: FG has no command left and no step in progress, every ISR is idle, no fault (R199). -/
abbrev State.Ended (s : State) : Prop :=
  s.fgWords = [] ∧ s.fgStep = .idle ∧ (∀ p, (s.port p).isrStep = .idle) ∧ s.fault = none

/-- The run is refuted: a fault is recorded (R163, R199). -/
abbrev State.Refuted (s : State) : Prop := s.fault ≠ none

/-- The values R47 gives a port at reset; the registers R47 leaves unspecified are free. -/
abbrev PortState.Initial (q : PortState) : Prop :=
  q.swRts = NC ∧ q.swCts = NC ∧ q.txCount = 0 ∧ q.initialized = false ∧ q.irqApi = ⟨false, false⟩ ∧
  q.irqFlow = ⟨false, false⟩ ∧ q.cbId = 0 ∧ q.handler = none ∧ q.ier.en = ⟨false, false⟩ ∧
  q.fifoEn = .unknown ∧ q.rxTrigger = .unknown ∧ q.nvicEn = false ∧ q.vec = false ∧
  q.power = .unknown ∧ q.pclkDiv1 = false ∧ q.isrStep = .idle

/-- A state a run can start in: the values of R47, with any platform, any draws, any command words
presented and any choices of the environment. -/
abbrev State.Initial (s : State) : Prop :=
  (∀ p, (s.port p).Initial) ∧ s.handler = none ∧ s.gpio = [] ∧ s.fgStep = .idle ∧ s.fault = none ∧ s.trace = []

/-- The states the runs from an initial state reach. -/
inductive Reachable : State → Prop where
  | start {s : State} (h : s.Initial) : Reachable s
  | next {s t : State} (hs : Reachable s) (h : step s = .next t) : Reachable t

/-- The commands of a list performed one after the other, stopping at a fault or refusal. -/
def execAll : List Instr → State → Host.Outcome State Fault Refusal
  | [], s => .next s
  | i :: is, s =>
    match exec i s with
    | .next t => execAll is t
    | .fault r => .fault r
    | .refused r => .refused r

/-- `n` micro-steps of FG's command in progress, with no other agent between them. -/
def State.advanceFgBy (s : State) : Nat → State
  | 0 => s
  | n + 1 => s.advanceFg.advanceFgBy n

/-! ### What a step leaves as it was -/

/-- The interface and the environment's choices are as before. -/
abbrev SameHost (s t : State) : Prop :=
  t.fgWords = s.fgWords ∧ t.isrWords = s.isrWords ∧ t.agent = s.agent ∧ t.draw = s.draw ∧
  t.inputs = s.inputs ∧ t.tick = s.tick

/-- Everything but the ports, the GPIO record, MCR[1], step[FG] and the trace is as before: the
parameters, the global handler slot, the fault record, the interface. -/
abbrev SameRest (s t : State) : Prop :=
  t.platform = s.platform ∧ t.handler = s.handler ∧ t.fault = s.fault ∧ SameHost s t

/-- Every port but `p` is as before. -/
abbrev SameOtherPorts (p : Port) (s t : State) : Prop := ∀ q, q ≠ p → t.port q = s.port q

/-- Only port `p`'s row and the trace may differ. -/
abbrev OnlyPort (p : Port) (s t : State) : Prop :=
  SameRest s t ∧ SameOtherPorts p s t ∧ t.mcr1 = s.mcr1 ∧ t.gpio = s.gpio ∧ t.fgStep = s.fgStep

/-- The state with a fault recorded and nothing else changed. -/
abbrev State.withFault (s : State) (c : FaultCause) (op : BitVec 5) (port : PortField) : State :=
  { s with fault := some ⟨c, op, port, s.agent⟩ }

/-! ### The invariant -/

/-- The 16-bit divisor in the latch, DLM:DLL (R28). -/
abbrev PortState.dl (q : PortState) : BitVec 16 := q.dlm ++ q.dll

/-- What holds of a port that was never initialised: nothing was requested, counted or registered. -/
abbrev PortState.Fresh (q : PortState) : Prop :=
  q.swRts = NC ∧ q.swCts = NC ∧ q.txCount = 0 ∧ q.cbId = 0 ∧ q.irqApi = ⟨false, false⟩ ∧ q.irqFlow = ⟨false, false⟩

/-- What holds of an initialised port's registers: DLAB is clear (R46), PS is 0 whenever PE is 0 (R27),
the divisor and the fractional divider are legal (R29, R99), the FIFOs are on with trigger level one
(R204), the port is powered on PCLK/1 (R158). -/
abbrev PortState.Ready (q : PortState) : Prop :=
  q.lcr.getLsbD 7 = false ∧ (q.lcr.getLsbD 3 = false → q.lcr.extractLsb' 4 2 = 0) ∧ q.dl ≠ 0 ∧
  q.fdr.extractLsb' 0 4 < q.fdr.extractLsb' 4 4 ∧ q.fifoEn = .on ∧ q.rxTrigger = .one ∧
  q.power = .on ∧ q.pclkDiv1 = true

/-- The invariant of one port: the enable bits are the OR of the requesters (R43), the line is enabled
exactly when a direction is (R44), an enabled line has its vector, the credit bound (R45), a registered
identifier has a handler (R128), and what its initialisation implies. -/
abbrev State.PortInv (s : State) (p : Port) : Prop :=
  (s.port p).ier.en.rx = ((s.port p).irqApi.rx || (s.port p).irqFlow.rx) ∧
  (s.port p).ier.en.tx = ((s.port p).irqApi.tx || (s.port p).irqFlow.tx) ∧
  (s.port p).nvicEn = ((s.port p).ier.en.rx || (s.port p).ier.en.tx) ∧
  ((s.port p).nvicEn = true → (s.port p).vec = true) ∧
  (s.port p).txCount.toNat ≤ 16 ∧
  ((s.port p).cbId ≠ 0 → s.handlerOf p ≠ none) ∧
  ((s.port p).isrStep = .inHandler → (s.port p).vec = true) ∧
  ((s.port p).initialized = true → (s.port p).Ready) ∧
  ((s.port p).initialized = false → (s.port p).Fresh)

/-- A flow sequence in progress: its port is initialised, and only a sequence of mode none (INIT's)
responds. -/
def State.flowOk (s : State) (r : FlowRequest) : Bool :=
  (s.port r.port).initialized && (!r.respond || r.mode == .none)

/-- What holds of the command in progress: its port is initialised; from step 3 of a flow sequence on
the flow request for RX is off, and from step 4 on no software RTS is in effect (R145, R146, R205). -/
def State.progressOk (s : State) : Bool :=
  match s.fgStep with
  | .idle => true
  | .putcW p _ => (s.port p).initialized
  | .getcW p => (s.port p).initialized
  | .getcB p => (s.port p).initialized
  | .sfc1 r => s.flowOk r
  | .sfc2 r => s.flowOk r
  | .sfc3 r => s.flowOk r && !(s.port r.port).irqFlow.rx
  | .sfc4 r => s.flowOk r && !(s.port r.port).irqFlow.rx && (s.port r.port).swRts == NC
  | .sfc5 r => s.flowOk r && !(s.port r.port).irqFlow.rx && (s.port r.port).swRts == NC && r.mode != .none
  | .sfc6 r => s.flowOk r && !(s.port r.port).irqFlow.rx && (s.port r.port).swRts == NC && r.mode != .none

/-- The invariant of the block. -/
abbrev State.Inv (s : State) : Prop :=
  (∀ p, s.PortInv p) ∧ Gpio.wf s.gpio ∧ s.progressOk = true

/-- What no step undoes (R21, R37, R39, R41): the parameters, an initialised port, an installed vector,
a powered port, the trace so far, the register bits the block does not own. -/
abbrev Persists (s t : State) : Prop :=
  t.platform = s.platform ∧ s.trace <+: t.trace ∧ t.mcr1.rest = s.mcr1.rest ∧
  ∀ p, ((s.port p).initialized = true → (t.port p).initialized = true) ∧
    ((s.port p).vec = true → (t.port p).vec = true) ∧
    ((s.port p).power = .on → (t.port p).power = .on) ∧
    ((s.port p).pclkDiv1 = true → (t.port p).pclkDiv1 = true) ∧
    (t.port p).ier.rest = (s.port p).ier.rest

end Sys2Proof.Machine
end

