-- ==== Sys2Proof/Certificates/Slice0/Obligations.lean ====
section
/-! DEFINITION. The statements for the provers, in the order of the spec's files: encoding, the step,
faults, the divisor calculator, each command, the flow sequence, the whole machine. Each docstring names
the rule it formalises. `FlowRequest` values are (port, mode, rx pin, tx pin, responds). -/

open Sys2Proof Sys2Proof.Machine

/-! ### Encoding (30_encoding.md) -/

/-- Decoding an encoded command gives it back, with every operand, and leaves the words after it. -/
def Obligations.DecodeOfEncodeIsTheCommand : Prop :=
  ∀ (i : Instr) (rest : List Word), decode (encode i ++ rest) = .command i rest

/-- Each accepted sequence of words has one meaning: encoding what was decoded gives the words back. -/
def Obligations.EncodeOfDecodeIsTheWords : Prop :=
  ∀ (ws : List Word) (i : Instr) (rest : List Word), decode ws = .command i rest → encode i ++ rest = ws

/-- The decoder accepts a command word exactly when a row of the opcode map R80 selects it, with that
row's opcode and length (R78). -/
def Obligations.DecoderFollowsTheOpcodeMap : Prop :=
  ∀ (c a : Word) (rest : List Word),
    (∀ row ∈ opcodeMap, row.selectedBy c = true →
      ∃ i : Instr, i.op = row.op ∧
        decode (c :: a :: rest) = .command i (if row.words = 2 then rest else a :: rest)) ∧
    ((∀ row ∈ opcodeMap, row.selectedBy c = false) → ∃ why, decode (c :: a :: rest) = .refused why c (a :: rest))

/-- From R82, R164, R167: a word with a reserved opcode, or with a must-be-0 bit set under a row's opcode (R80's masks),
raises REFUSED with the word's own OP and PORT (log 22), changes no other state and leaves the ARG word
where it is, whether FG or a handler presents it. The zero word has the reserved opcode 0. -/
def Obligations.RefusedCommandIsRecordedAndNothingElse : Prop :=
  ∀ (s : State) (c : Word) (rest : List Word), s.fault = none →
    let op := c.extractLsb' 27 5
    let reserved := op.toNat = 0 ∨ 0x11 ≤ op.toNat
    (reserved ∨ ∃ row ∈ opcodeMap, row.op.code = op ∧ c &&& row.mask ≠ row.pattern) →
      let why : RefusedSub := if reserved then .opcode else .reservedBits
      (s.nextInput.move = .fg → s.fgStep = .idle → s.fgWords = c :: rest →
        step s = .next { s.takeInput with
          fgWords := rest
          agent := .fg
          fault := some ⟨.refused why, op, c.extractLsb' 24 3, .fg⟩ }) ∧
      (∀ p : Port, s.nextInput.move = .isr p → (s.port p).isrStep = .inHandler → s.isrWords[p] = c :: rest →
        step s = .next { s.takeInput with
          isrWords := s.isrWords.set p rest
          agent := .isr p
          fault := some ⟨.refused why, op, c.extractLsb' 24 3, .isr p⟩ })

/-- A few words written out from the formats (95_test_vectors.md 2.9 and Part 3). -/
def Obligations.SampleWordsDecode : Prop :=
  decode [0x08000000, 0x0001C200] = .command (.baud 0 115200) [] ∧
  decode [0x10000228] = .command (.format 0 8 2 2) [] ∧
  decode [0x28000101] = .command (.irqSet 0 .tx true) [] ∧
  decode [0x38000001, 0x00001234] = .command (.irqHandler 0 1 0x1234) [] ∧
  decode [0x600000FF] = .command (.putc 0 0xFF) [] ∧
  decode [0x69000003, 0x00110016] = .command (.setFlowControl 1 .rtsCts 0x0016 0x0011) [] ∧
  decode [0x70000000, 0x00030002] = .command (.init 0x0002 0x0003) [] ∧
  decode [0x87000000] = .command (.clear 7) [] ∧
  decode [0x80000001] = .refused .reservedBits 0x80000001 [] ∧
  decode [0x90000000] = .refused .opcode 0x90000000 [] ∧
  decode [0x08000000] = .waiting

/-! ### The step (00_scope.md R12-R14, 60_exceptions.md R177-R182) -/

/-- When FG moves with no command in progress and its words begin with a command, the step performs that
command, presented by FG, in the state whose draws are the step's and whose words are the rest. -/
def Obligations.StepRunsTheCommandFgPresents : Prop :=
  ∀ (s : State) (i : Instr) (rest : List Word), s.fault = none → s.nextInput.move = .fg → s.fgStep = .idle →
    decode s.fgWords = .command i rest →
    step s = exec i { s.takeInput with fgWords := rest, agent := .fg }

/-- The same for ISRp, exactly while a handler runs on it: an idle ISRp presents nothing (from R129, R178),
whatever words are there (the step is a stutter, log 1). -/
def Obligations.StepRunsTheCommandAHandlerPresents : Prop :=
  ∀ (s : State) (p : Port), s.fault = none → s.nextInput.move = .isr p →
    (∀ (i : Instr) (rest : List Word), (s.port p).isrStep = .inHandler → decode s.isrWords[p] = .command i rest →
      step s = exec i { s.takeInput with isrWords := s.isrWords.set p rest, agent := .isr p }) ∧
    ((s.port p).isrStep = .idle → step s = .next s.takeInput)

/-- When FG moves with a command in progress, the step is that command's next micro-step (R17). -/
def Obligations.StepAdvancesTheCommandInProgress : Prop :=
  ∀ s : State, s.fault = none → s.nextInput.move = .fg → s.fgStep ≠ .idle → step s = .next s.takeInput.advanceFg

/-- From R79: with a two-word command whose ARG has not arrived, or no word, neither FG nor a running
handler takes anything (the step is a stutter, log 1). -/
def Obligations.TwoWordCommandWaitsForItsArgument : Prop :=
  ∀ s : State, s.fault = none →
    let waits := fun ws : List Word => ws = [] ∨ ∃ (c : Word) (row : OpcodeRow),
      ws = [c] ∧ row ∈ opcodeMap ∧ row.selectedBy c = true ∧ row.words = 2
    (s.nextInput.move = .fg → s.fgStep = .idle → waits s.fgWords → step s = .next s.takeInput) ∧
    (∀ p : Port, s.nextInput.move = .isr p → (s.port p).isrStep = .inHandler → waits s.isrWords[p] →
      step s = .next s.takeInput)

/-- From R123, R124: ENV's start of IRQ_ENTRY on ISRp takes place exactly while the line is enabled, the
vector installed and ISRp idle, and, under IIR_RESPECTS_IER, the IIR draw reports an enabled source;
otherwise the step leaves the block as it is (log 1; the reading of IIR_RESPECTS_IER is log 23). -/
def Obligations.InterruptStartsOnlyWhereAllowed : Prop :=
  ∀ (s : State) (p : Port), s.fault = none → s.nextInput.move = .irq p →
    let intid := (s.nextInput.draws.iir.extractLsb' 1 3).toNat
    let ready := (s.port p).nvicEn = true ∧ (s.port p).vec = true ∧ (s.port p).isrStep = .idle
    let admitted := s.platform.iirRespectsIer = false ∨
      ((intid = 2 → (s.port p).ier.en.rx = true) ∧ (intid = 1 → (s.port p).ier.en.tx = true))
    (ready → admitted →
      step s = exec (.irqEntry (BitVec.ofNat 3 p.val)) { s.takeInput with agent := .controller }) ∧
    (¬ (ready ∧ admitted) → step s = .next s.takeInput)

/-- R181: the handler's return sets step[ISRp] to IDLE and changes nothing else. -/
def Obligations.HandlerReturnOnlyIdlesItsIsr : Prop :=
  ∀ (s : State) (p : Port), s.fault = none → s.nextInput.move = .ret p →
    ∃ t, step s = .next t ∧ t.port p = { s.port p with isrStep := .idle } ∧ OnlyPort p s.takeInput t ∧
      t.trace = s.trace

/-- From R163: once a fault is recorded no step is taken, and a block without one always has a next state. -/
def Obligations.StepStopsExactlyWhenFaulted : Prop :=
  ∀ s : State, (s.fault ≠ none → step s = .fault .halted) ∧ (s.fault = none → ∃ t, step s = .next t)

/-- From R179, R182: a move of the interrupt controller or of a handler leaves FG's step and words, every
enable bit, line and vector, and every requester's slot as they are. -/
def Obligations.InterruptsLeaveTheForegroundAlone : Prop :=
  ∀ s t : State, s.nextInput.move ≠ .fg → step s = .next t →
    t.fgStep = s.fgStep ∧ t.fgWords = s.fgWords ∧
    ∀ p : Port, (t.port p).ier = (s.port p).ier ∧ (t.port p).nvicEn = (s.port p).nvicEn ∧
      (t.port p).vec = (s.port p).vec ∧ (t.port p).irqApi = (s.port p).irqApi ∧ (t.port p).irqFlow = (s.port p).irqFlow

/-! ### Faults and contexts (60_exceptions.md) -/

/-- R168, R169, and the order of CommonChecks (60_exceptions.md section 1), for every command and presenter:
the context first, then the port field, then `initialized`; the fault is recorded and nothing else changes. -/
def Obligations.CommonChecksFaultInOrder : Prop :=
  ∀ (i : Instr) (s : State),
    (i.op = .irqEntry → s.agent ≠ .controller →
      exec i s = .next (s.withFault .contextViolation i.op.code i.portField)) ∧
    (∀ q, s.agent = .isr q → i.op ≠ .readable → i.op ≠ .writable →
      exec i s = .next (s.withFault .contextViolation i.op.code i.portField)) ∧
    (i.op ≠ .init → i.op ≠ .irqEntry → (s.agent = .fg ∨ (∃ q, s.agent = .isr q) ∧ (i.op = .readable ∨ i.op = .writable)) →
      (4 ≤ i.portField.toNat →
        exec i s = .next (s.withFault (.configurationError .port) i.op.code i.portField)) ∧
      (∀ p : Port, i.portField.toNat = p.val → (s.port p).initialized = false →
        exec i s = .next (s.withFault .notInitialized i.op.code i.portField)))

/-- From R171 (FCR's bits: log 12): every fault, of a command or of a refused word, leaves everything but the record as it was,
except INIT's BAUD_RANGE, which comes after the Power, PclkDiv1 and FCR requests; no micro-step of a command
in progress raises one, and neither does IRQ_ENTRY on a port's own vector. -/
def Obligations.FaultsArePrecise : Prop :=
  (∀ (i : Instr) (s t : State), exec i s = .next t → t.fault ≠ s.fault →
    t = { s with fault := t.fault } ∨
    (i.op = .init ∧ ∃ p : Port, t.fault = some ⟨.configurationError .baudRange, 0x0E, 0, s.agent⟩ ∧
      OnlyPort p { s with fault := t.fault } t ∧
      t.port p = { s.port p with power := .on, pclkDiv1 := true, fifoEn := .on, rxTrigger := .one } ∧
      t.trace = s.trace ++ [.power p, .pclkDiv1 p, .regWrite p (.fcr ⟨true, true, true, s.platform.rxTriggerOne, s.draw.fcrRest⟩)])) ∧
  (∀ (s : State) (why : RefusedSub) (cmd : Word),
    s.raiseRefused why cmd = { s with fault := (s.raiseRefused why cmd).fault }) ∧
  (∀ s : State, s.advanceFg.fault = s.fault) ∧
  (∀ (p : Port) (s : State), s.agent = .controller →
    ∃ t, exec (.irqEntry (BitVec.ofNat 3 p.val)) s = .next t ∧ t.fault = s.fault)

/-- From R129, R178: what a handler's command changes, when it raises no fault: it is READABLE or WRITABLE,
and only the credit count of its port and the trace may differ. -/
def Obligations.HandlerMayOnlyPoll : Prop :=
  ∀ (i : Instr) (q : Port) (s t : State), s.agent = .isr q → exec i s = .next t → t.fault = s.fault → s.fault = none →
    (i.op = .readable ∨ i.op = .writable) ∧
    ∃ p : Port, i.portField.toNat = p.val ∧ OnlyPort p s t ∧
      ∃ n : Byte, t.port p = { s.port p with txCount := n } ∧ (n = (s.port p).txCount ∨ (i.op = .writable ∧ n = 0))

/-! ### The divisor calculator (40_divisor.md) -/

/-- R93, the exact case; and, from R91, R92, R98, what DC admits, in exact natural arithmetic: a search
always finds a triple. -/
def Obligations.DivisorAdmitsExactly : Prop :=
  ∀ (a : DcArith) (pclk baud : Nat),
    (divisorOf a pclk baud = none ↔ baud = 0 ∨ 16 * baud > pclk ∨ pclk / (16 * baud) > 0xFFFF) ∧
    (baud ≠ 0 → 16 * baud ≤ pclk → pclk / (16 * baud) ≤ 0xFFFF → pclk % (16 * baud) = 0 →
      divisorOf a pclk baud = some ⟨pclk / (16 * baud), 0, 1⟩)

/-- R99: the ranges of every triple DC returns, in either arithmetic. -/
def Obligations.DivisorTripleIsInRange : Prop :=
  ∀ (a : DcArith) (pclk baud : Nat) (t : Triple), divisorOf a pclk baud = some t →
    1 ≤ t.dl ∧ t.dl ≤ 0xFFFF ∧ 1 ≤ t.mv ∧ t.mv ≤ 15 ∧ t.dav < t.mv ∧
    (pclk % (16 * baud) ≠ 0 → 1 ≤ t.dav ∧ 2 ≤ t.mv)

/-- R100: the closed form of the exact search. The error is the rational
|baud − PCLK/(16·dl·(1 + dav/mv))|/baud of R96, the candidates and their order are those of R94 with
dl = 0 removed (R95). Either the result is the first candidate below 1/1000, or none is below it and the
result is the first of least error. -/
def Obligations.ExactDivisorSearchHasTheClosedForm : Prop :=
  ∀ pclk baud : Nat, baud ≠ 0 → 16 * baud ≤ pclk → pclk / (16 * baud) ≤ 0xFFFF → pclk % (16 * baud) ≠ 0 →
    let err := fun t : Triple =>
      |(baud : ℚ) - (pclk : ℚ) / (16 * (t.dl : ℚ) * (1 + (t.dav : ℚ) / (t.mv : ℚ)))| / (baud : ℚ)
    let dl0 := pclk / (16 * baud)
    let candidate := fun t : Triple =>
      t.dl ≠ 0 ∧ dl0 / 2 ≤ t.dl ∧ t.dl ≤ dl0 ∧ 1 ≤ t.mv ∧ t.mv ≤ 15 ∧ 1 ≤ t.dav ∧ t.dav < t.mv
    let before := fun t u : Triple =>
      t.dl < u.dl ∨ (t.dl = u.dl ∧ (t.mv < u.mv ∨ (t.mv = u.mv ∧ t.dav < u.dav)))
    ∃ t, divisorOf .exact pclk baud = some t ∧ candidate t ∧
      ((err t < 1 / 1000 ∧ ∀ u, candidate u → before u t → 1 / 1000 ≤ err u) ∨
       ((∀ u, candidate u → 1 / 1000 ≤ err u ∧ err t ≤ err u) ∧ ∀ u, candidate u → before u t → err t < err u))

/-- Vectors DC-1, DC-2, DC-12 (both arithmetics) and DC-16 of 95_test_vectors.md. DC-12: two triples tie in
exact arithmetic, and the first is kept; in BINARY32 the second has the smaller error, and replaces it. The
threshold of BINARY32 is the binary32 value nearest 0.001 (R102), 8589935 / 2^33. -/
def Obligations.DivisorSampleVectors : Prop :=
  divisorOf .exact 96000000 9600 = some ⟨625, 0, 1⟩ ∧
  divisorOf .exact 96000000 115200 = some ⟨27, 13, 14⟩ ∧
  divisorOf .exact 96000000 460800 = some ⟨7, 6, 7⟩ ∧
  (errExact 96000000 460800 ⟨11, 2, 11⟩).lt (errExact 96000000 460800 ⟨7, 6, 7⟩) = false ∧
  (errBinary32 96000000 460800 ⟨11, 2, 11⟩).lt (errBinary32 96000000 460800 ⟨7, 6, 7⟩) = true ∧
  divisorOf .binary32 96000000 460800 = some ⟨11, 2, 11⟩ ∧
  (thresholdOf .binary32).num * 2 ^ 33 = 8589935 * (thresholdOf .binary32).den ∧ (thresholdOf .binary32).den ≠ 0 ∧
  divisorOf .exact 96000000 4000000 = some ⟨1, 1, 2⟩

/-- R104, R105: BAUD at an admitted rate completes: the five accesses in order, the latch and the
fractional divider hold the triple, DLAB is clear and every other LCR bit is as before; nothing else
changes. -/
def Obligations.BaudProgramsTheDivisor : Prop :=
  ∀ (s : State) (port : PortField) (p : Port) (rate : Word) (d : Triple),
    s.agent = .fg → port.toNat = p.val → (s.port p).initialized = true →
    divisorOf s.platform.dcArith s.platform.pclkHz rate.toNat = some d →
    ∃ t, exec (.baud port rate) s = .next t ∧ OnlyPort p s t ∧
      t.port p = { s.port p with
        dlm := BitVec.ofNat 8 (d.dl / 256)
        dll := BitVec.ofNat 8 (d.dl % 256)
        fdr := BitVec.ofNat 8 (16 * d.mv + d.dav)
        lcr := (s.port p).lcr &&& 0x7F } ∧
      t.trace = s.trace ++
        [.regRead p (.lcr (s.port p).lcr), .regWrite p (.lcr ((s.port p).lcr ||| 0x80)),
         .regWrite p (.dlm (BitVec.ofNat 8 (d.dl / 256))), .regWrite p (.dll (BitVec.ofNat 8 (d.dl % 256))),
         .regWrite p (.fdr (BitVec.ofNat 8 (16 * d.mv + d.dav))),
         .regRead p (.lcr ((s.port p).lcr ||| 0x80)), .regWrite p (.lcr ((s.port p).lcr &&& 0x7F))]

/-- From R91, R92: BAUD at a rate DC does not admit raises CONFIGURATION_ERROR(BAUD_RANGE) and writes
nothing. -/
def Obligations.BaudOutOfRangeWritesNothing : Prop :=
  ∀ (s : State) (port : PortField) (p : Port) (rate : Word),
    s.agent = .fg → port.toNat = p.val → (s.port p).initialized = true →
    rate.toNat = 0 ∨ 16 * rate.toNat > s.platform.pclkHz ∨
      s.platform.pclkHz / (16 * rate.toNat) > 0xFFFF →
    exec (.baud port rate) s = .next (s.withFault (.configurationError .baudRange) 0x01 port)

/-! ### The line format (41_line_format.md) -/

/-- R106: FORMAT on in-range operands completes and writes the whole LCR: bits 1:0, 2, 3, 5:4 as the
encoding says, bits 7:6 zero; nothing else changes. PAR codes are those of R81. -/
def Obligations.FormatWritesTheLineControlWord : Prop :=
  ∀ (s : State) (port : PortField) (p : Port) (bits : BitVec 4) (par : BitVec 3) (stops : BitVec 2),
    s.agent = .fg → port.toNat = p.val → (s.port p).initialized = true →
    5 ≤ bits.toNat → bits.toNat ≤ 8 → 1 ≤ stops.toNat → stops.toNat ≤ 2 → par.toNat ≤ 4 →
    ∃ (t : State) (v : Byte), exec (.format port bits par stops) s = .next t ∧ OnlyPort p s t ∧
      t.port p = { s.port p with lcr := v } ∧ t.trace = s.trace ++ [.regWrite p (.lcr v)] ∧
      (v.extractLsb' 0 2).toNat = bits.toNat - 5 ∧ (v.extractLsb' 2 1).toNat = stops.toNat - 1 ∧
      (v.getLsbD 3 = true ↔ par.toNat ≠ 0) ∧ (v.extractLsb' 4 2).toNat = par.toNat - 1 ∧
      v.extractLsb' 6 2 = 0

/-- R107: FORMAT's checks, in order: data bits, then stop bits, then parity; nothing is written. -/
def Obligations.FormatChecksInOrder : Prop :=
  ∀ (s : State) (port : PortField) (p : Port) (bits : BitVec 4) (par : BitVec 3) (stops : BitVec 2),
    s.agent = .fg → port.toNat = p.val → (s.port p).initialized = true →
    let badBits := ¬ (5 ≤ bits.toNat ∧ bits.toNat ≤ 8)
    let badStops := ¬ (stops.toNat = 1 ∨ stops.toNat = 2)
    let badPar := ¬ par.toNat ≤ 4
    (badBits → exec (.format port bits par stops) s = .next (s.withFault (.configurationError .dataBits) 0x02 port)) ∧
    (¬ badBits → badStops →
      exec (.format port bits par stops) s = .next (s.withFault (.configurationError .stopBits) 0x02 port)) ∧
    (¬ badBits → ¬ badStops → badPar →
      exec (.format port bits par stops) s = .next (s.withFault (.configurationError .parity) 0x02 port))

/-- R109: the inverse decoding of a line-control word gives back legal inputs, so LcrFormat is
injective on them. -/
def Obligations.LineControlWordDecodesBack : Prop :=
  ∀ (bits : BitVec 4) (par : Parity) (stops : BitVec 2),
    5 ≤ bits.toNat → bits.toNat ≤ 8 → 1 ≤ stops.toNat → stops.toNat ≤ 2 →
    let v := lcrFormat bits par stops
    bits.toNat = (v.extractLsb' 0 2).toNat + 5 ∧ stops.toNat = (v.extractLsb' 2 1).toNat + 1 ∧
    (par = .none ↔ v.getLsbD 3 = false) ∧
    (v.getLsbD 3 = true →
      [Parity.odd, Parity.even, Parity.forced1, Parity.forced0][(v.extractLsb' 4 2).toNat]? = some par) ∧
    lcrDecode v = (bits, par, stops)

/-- BREAK_SET and BREAK_CLEAR complete: LCR bit 6 is set or cleared by one read and one write, every
other LCR bit and everything else is as before. -/
def Obligations.BreakChangesOneBit : Prop :=
  ∀ (s : State) (port : PortField) (p : Port) (b : Bool),
    s.agent = .fg → port.toNat = p.val → (s.port p).initialized = true →
    ∃ (t : State) (v : Byte), exec (if b then .breakSet port else .breakClear port) s = .next t ∧ OnlyPort p s t ∧
      t.port p = { s.port p with lcr := v } ∧
      (∀ n, n < 8 → v.getLsbD n = if n = 6 then b else (s.port p).lcr.getLsbD n) ∧
      t.trace = s.trace ++ [.regRead p (.lcr (s.port p).lcr), .regWrite p (.lcr v)]

/-! ### The interrupt arbiter (42_interrupt_arbiter.md) -/

/-- R114: an enable request of either requester completes: its slot, the direction's enable bit, the
vector and the line are set, in that order, whatever they were. -/
def Obligations.EnableRequestSetsBitVectorAndLine : Prop :=
  ∀ (s : State) (port : PortField) (p : Port) (d : Dir),
    s.agent = .fg → port.toNat = p.val → (s.port p).initialized = true →
    let ier := { (s.port p).ier with en := (s.port p).ier.en.set d true }
    let events : List Event :=
      [.regRead p (.ier (s.port p).ier), .regWrite p (.ier ier), .nvicSetVector p, .nvicEnable p]
    (∃ t, exec (.irqSet port d true) s = .next t ∧ OnlyPort p s t ∧ t.trace = s.trace ++ events ∧
      t.port p = { s.port p with
        irqApi := (s.port p).irqApi.set d true, ier := ier, vec := true, nvicEn := true }) ∧
    (∃ t, exec (.flowIrqSet port d true) s = .next t ∧ OnlyPort p s t ∧ t.trace = s.trace ++ events ∧
      t.port p = { s.port p with
        irqFlow := (s.port p).irqFlow.set d true, ier := ier, vec := true, nvicEn := true })

/-- From R113, R115: a disable request while the other requester does not want the direction completes: the
direction's bit is cleared, and the line is disabled if the other direction's bit is off too. That the look
at the other direction's bit is no register access of the trace is log 18. -/
def Obligations.LastDisableRequestClearsBitAndLine : Prop :=
  ∀ (s : State) (port : PortField) (p : Port) (d : Dir),
    s.agent = .fg → port.toNat = p.val → (s.port p).initialized = true →
    let ier := { (s.port p).ier with en := (s.port p).ier.en.set d false }
    let other := (s.port p).ier.en.get (match d with | .rx => .tx | .tx => .rx)
    let events : List Event := [.regRead p (.ier (s.port p).ier), .regWrite p (.ier ier)] ++
      if other then [] else [.nvicDisable p]
    let line := if other then (s.port p).nvicEn else false
    ((s.port p).irqFlow.get d = false →
      ∃ t, exec (.irqSet port d false) s = .next t ∧ OnlyPort p s t ∧ t.trace = s.trace ++ events ∧
        t.port p = { s.port p with irqApi := (s.port p).irqApi.set d false, ier := ier, nvicEn := line }) ∧
    ((s.port p).irqApi.get d = false →
      ∃ t, exec (.flowIrqSet port d false) s = .next t ∧ OnlyPort p s t ∧ t.trace = s.trace ++ events ∧
        t.port p = { s.port p with irqFlow := (s.port p).irqFlow.set d false, ier := ier, nvicEn := line })

/-- R116: a disable request while the other requester still wants the direction changes the requester's
own slot and nothing else: no register, line, vector or event. -/
def Obligations.DisableRequestKeptByTheOtherRequester : Prop :=
  ∀ (s : State) (port : PortField) (p : Port) (d : Dir),
    s.agent = .fg → port.toNat = p.val → (s.port p).initialized = true →
    ((s.port p).irqFlow.get d = true →
      ∃ t, exec (.irqSet port d false) s = .next t ∧ OnlyPort p s t ∧ t.trace = s.trace ∧
        t.port p = { s.port p with irqApi := (s.port p).irqApi.set d false }) ∧
    ((s.port p).irqApi.get d = true →
      ∃ t, exec (.flowIrqSet port d false) s = .next t ∧ OnlyPort p s t ∧ t.trace = s.trace ∧
        t.port p = { s.port p with irqFlow := (s.port p).irqFlow.set d false })

/-- IRQ_HANDLER completes: the identifier of its port, and the handler slot: the one slot under GLOBAL,
the port's own under PER_PORT. -/
def Obligations.IrqHandlerRegisters : Prop :=
  ∀ (s : State) (port : PortField) (p : Port) (h : HandlerToken) (id : Word),
    s.agent = .fg → port.toNat = p.val → (s.port p).initialized = true →
    ∃ t, exec (.irqHandler port h id) s = .next t ∧ t.trace = s.trace ∧ t.mcr1 = s.mcr1 ∧ t.gpio = s.gpio ∧
      t.fgStep = s.fgStep ∧ t.platform = s.platform ∧ t.fault = s.fault ∧ SameHost s t ∧ SameOtherPorts p s t ∧
      (s.platform.handlerSlots = .global → t.handler = some h ∧ t.port p = { s.port p with cbId := id }) ∧
      (s.platform.handlerSlots = .perPort →
        t.handler = s.handler ∧ t.port p = { s.port p with cbId := id, handler := some h })

/-- R126, R127: IRQ_ENTRY presented by the interrupt controller completes, wherever FG stands: one IIR read; an
INTID other than 1 and 2 is ignored; RX with software RTS in effect (sw_rts not NC, R18) drives the RTS pin
high before the handler call; a registered identifier gets the handler call and step[ISRp] = IN_HANDLER. -/
def Obligations.IsrDispatch : Prop :=
  ∀ (s : State) (port : PortField) (p : Port), s.agent = .controller → port.toNat = p.val →
    let intid := (s.draw.iir.extractLsb' 1 3).toNat
    let rts := (s.port p).swRts
    let read : Event := .regRead p (.iir s.draw.iir)
    let call := fun ev : Dir =>
      if (s.port p).cbId = 0 then [] else [Event.handler (s.handlerOf p) (s.port p).cbId ev]
    ∃ t, exec (.irqEntry port) s = .next t ∧ SameRest s t ∧ SameOtherPorts p s t ∧ t.mcr1 = s.mcr1 ∧
      t.fgStep = s.fgStep ∧
      t.port p = { s.port p with
        isrStep := if (intid = 1 ∨ intid = 2) ∧ (s.port p).cbId ≠ 0 then .inHandler else (s.port p).isrStep } ∧
      (intid ≠ 2 ∨ rts = NC → t.gpio = s.gpio) ∧
      (intid ≠ 1 → intid ≠ 2 → t.trace = s.trace ++ [read]) ∧
      (intid = 1 → t.trace = s.trace ++ read :: call .tx) ∧
      (intid = 2 → rts = NC → t.trace = s.trace ++ read :: call .rx) ∧
      (intid = 2 → rts ≠ NC → Gpio.wf s.gpio →
        t.trace = s.trace ++ read :: .gpioWrite rts true :: call .rx ∧
        (t.pin rts).out = .high ∧ (t.pin rts).dir = (s.pin rts).dir ∧
        ∀ k : Pin, k ≠ rts → t.pin k = s.pin k)

/-! ### The transmit credit and the byte path (43_tx_credit.md) -/

/-- READABLE completes, from FG or a handler: one LSR read, the response is LSR bit 0, and no state
changes. -/
def Obligations.ReadableRespondsBitZero : Prop :=
  ∀ (s : State) (port : PortField) (p : Port), (s.agent = .fg ∨ ∃ q, s.agent = .isr q) →
    port.toNat = p.val → (s.port p).initialized = true →
    ∃ t, exec (.readable port) s = .next t ∧ OnlyPort p s t ∧ t.port p = s.port p ∧
      t.trace = s.trace ++ [.regRead p (.lsr s.draw.lsr), .response (if s.draw.lsr.getLsbD 0 then 1 else 0)]

/-- From R130, R133 (TXE stands at the platform's position, log 11): WRITABLE completes, from FG or a handler, and its response and the count follow the
predicate: 0 without an LSR read while software CTS says stop; 1 and the count at 0 when TXE reads 1; else
1 exactly while the count is below 16, with the count kept. Nothing else changes. -/
def Obligations.WritableFollowsThePredicate : Prop :=
  ∀ (s : State) (port : PortField) (p : Port), (s.agent = .fg ∨ ∃ q, s.agent = .isr q) →
    port.toNat = p.val → (s.port p).initialized = true →
    let cts := (s.port p).swCts
    let txe := s.draw.lsr.getLsbD (s.platform.txeBit.val + 1)
    let ctsRead : List Event := if cts = NC then [] else [.gpioRead cts s.draw.cts]
    ∃ (t : State) (v : Word), exec (.writable port) s = .next t ∧ OnlyPort p s t ∧
      (cts ≠ NC → s.draw.cts = true → v = 0 ∧ t.port p = s.port p ∧ t.trace = s.trace ++ ctsRead ++ [.response 0]) ∧
      (cts = NC ∨ s.draw.cts = false →
        t.trace = s.trace ++ ctsRead ++ [.regRead p (.lsr s.draw.lsr), .response v] ∧
        (txe = true → v = 1 ∧ t.port p = { s.port p with txCount := 0 }) ∧
        (txe = false → 16 ≤ (s.port p).txCount.toNat → v = 0 ∧ t.port p = s.port p) ∧
        (txe = false → (s.port p).txCount.toNat < 16 → v = 1 ∧ t.port p = s.port p))

/-- PUTC whose first poll falls in the step that takes it (a choice of the environment, log 6; TXE stands at
the platform's position, log 11) and succeeds completes in that step: the evaluation's reads and reset, the THR write, the count one above what the evaluation left, step[FG] idle. -/
def Obligations.PutcSendsWhenWritable : Prop :=
  ∀ (s : State) (port : PortField) (p : Port) (b : Byte),
    s.agent = .fg → port.toNat = p.val → (s.port p).initialized = true → s.draw.prompt = true →
    let cts := (s.port p).swCts
    let txe := s.draw.lsr.getLsbD (s.platform.txeBit.val + 1)
    let ctsRead : List Event := if cts = NC then [] else [.gpioRead cts s.draw.cts]
    (cts = NC ∨ s.draw.cts = false) → (txe = true ∨ (s.port p).txCount.toNat < 16) →
    ∃ t, exec (.putc port b) s = .next t ∧ OnlyPort p { s with fgStep := .idle } t ∧
      t.port p = { s.port p with txCount := (if txe then 0 else (s.port p).txCount) + 1 } ∧
      t.trace = s.trace ++ ctsRead ++ [.regRead p (.lsr s.draw.lsr), .regWrite p (.thr b)]

/-- PUTC that is not promptly polled (log 6), or whose first poll fails, enters the hold and changes nothing
else. -/
def Obligations.PutcWaitsOtherwise : Prop :=
  ∀ (s : State) (port : PortField) (p : Port) (b : Byte),
    s.agent = .fg → port.toNat = p.val → (s.port p).initialized = true →
    (s.draw.prompt = false ∨ ((s.port p).swCts ≠ NC ∧ s.draw.cts = true) ∨
      (s.draw.lsr.getLsbD (s.platform.txeBit.val + 1) = false ∧ 16 ≤ (s.port p).txCount.toNat)) →
    exec (.putc port b) s = .next { s with fgStep := .putcW p b }

/-- From R137: the hold of PUTC: a poll that fails leaves the block and the trace as they are; one that
succeeds does the reset, the THR write and the increment in one step. -/
def Obligations.PutcHoldIsOneGuardedStep : Prop :=
  ∀ (s : State) (p : Port) (b : Byte), s.fgStep = .putcW p b →
    let cts := (s.port p).swCts
    let txe := s.draw.lsr.getLsbD (s.platform.txeBit.val + 1)
    let lifted := (cts = NC ∨ s.draw.cts = false) ∧ (txe = true ∨ (s.port p).txCount.toNat < 16)
    (¬ lifted → s.advanceFg = s) ∧
    (lifted → OnlyPort p { s with fgStep := .idle } s.advanceFg ∧
      s.advanceFg.port p = { s.port p with txCount := (if txe then 0 else (s.port p).txCount) + 1 } ∧
      s.advanceFg.trace = s.trace ++ (if cts = NC then [] else [.gpioRead cts s.draw.cts]) ++
        [.regRead p (.lsr s.draw.lsr), .regWrite p (.thr b)])

/-- From R141: from a zero count, with no software CTS and every LSR read giving TXE = 0, sixteen PUTCs
complete, the count is 16 and WRITABLE responds 0; a WRITABLE that reads TXE = 1 then responds 1 and
leaves 0, and a further PUTC leaves 1. Each PUTC is polled in the step that takes it (log 6). -/
def Obligations.CreditSaturatesAtSixteen : Prop :=
  ∀ (s : State) (port : PortField) (p : Port) (bytes : List Byte) (free : Byte),
    s.agent = .fg → port.toNat = p.val → (s.port p).initialized = true → s.draw.prompt = true → s.fgStep = .idle →
    (s.port p).swCts = NC → (s.port p).txCount = 0 → bytes.length = 16 →
    s.draw.lsr.getLsbD (s.platform.txeBit.val + 1) = false → free.getLsbD (s.platform.txeBit.val + 1) = true →
    ∃ t, execAll (bytes.map fun b => .putc port b) s = .next t ∧ OnlyPort p s t ∧
      t.port p = { s.port p with txCount := 16 } ∧
      (∃ u, exec (.writable port) t = .next u ∧ u.port p = t.port p ∧ u.trace.getLast? = some (.response 0)) ∧
      (∃ u, exec (.writable port) { t with draw := { t.draw with lsr := free } } = .next u ∧
        (u.port p).txCount = 0 ∧ u.trace.getLast? = some (.response 1) ∧
        ∀ (lsr : Byte) (b : Byte), ∃ w,
          exec (.putc port b) { u with draw := { u.draw with lsr := lsr } } = .next w ∧ (w.port p).txCount = 1)

/-- From R138: GETC that is promptly polled (log 6) with RDR = 1 runs micro-step A in the step that takes it: the LSR
read, RTS driven low under software RTS, and micro-step B next; otherwise it enters the hold. -/
def Obligations.GetcAcceptsWhenReadable : Prop :=
  ∀ (s : State) (port : PortField) (p : Port),
    s.agent = .fg → port.toNat = p.val → (s.port p).initialized = true →
    let rts := (s.port p).swRts
    let read : Event := .regRead p (.lsr s.draw.lsr)
    (s.draw.prompt = true → s.draw.lsr.getLsbD 0 = true →
      ∃ t, exec (.getc port) s = .next t ∧ SameRest s t ∧ t.ports = s.ports ∧ t.mcr1 = s.mcr1 ∧ t.fgStep = .getcB p ∧
        (rts = NC → t.gpio = s.gpio ∧ t.trace = s.trace ++ [read]) ∧
        (rts ≠ NC → Gpio.wf s.gpio → t.trace = s.trace ++ [read, .gpioWrite rts false] ∧
          (t.pin rts).out = .low ∧ (t.pin rts).dir = (s.pin rts).dir ∧ ∀ k : Pin, k ≠ rts → t.pin k = s.pin k)) ∧
    (s.draw.prompt = false ∨ s.draw.lsr.getLsbD 0 = false →
      exec (.getc port) s = .next { s with fgStep := .getcW p })

/-- From R138: a poll of GETC's hold with RDR = 0 changes nothing (log 5); one with RDR = 1 is micro-step A:
the LSR read, RTS driven low exactly under software RTS, and micro-step B next; micro-step B reads RBR,
responds the byte zero-extended and ends the command. -/
def Obligations.GetcTakesTheByte : Prop :=
  ∀ (s : State) (p : Port),
    let rts := (s.port p).swRts
    let read : Event := .regRead p (.lsr s.draw.lsr)
    (s.fgStep = .getcW p → s.draw.lsr.getLsbD 0 = false → s.advanceFg = s) ∧
    (s.fgStep = .getcW p → s.draw.lsr.getLsbD 0 = true →
      (rts = NC → s.advanceFg = { s with fgStep := .getcB p, trace := s.trace ++ [read] }) ∧
      (rts ≠ NC → Gpio.wf s.gpio → SameRest s s.advanceFg ∧ s.advanceFg.ports = s.ports ∧ s.advanceFg.mcr1 = s.mcr1 ∧
        s.advanceFg.fgStep = .getcB p ∧ s.advanceFg.trace = s.trace ++ [read, .gpioWrite rts false] ∧
        (s.advanceFg.pin rts).out = .low ∧ (s.advanceFg.pin rts).dir = (s.pin rts).dir ∧
        ∀ k : Pin, k ≠ rts → s.advanceFg.pin k = s.pin k)) ∧
    (s.fgStep = .getcB p → s.advanceFg = { s with
      fgStep := .idle
      trace := s.trace ++ [.regRead p (.rbr s.draw.rbr), .response (s.draw.rbr.setWidth 32)] })

/-- From R139: with software RTS, RTS is low when GETC ends if its two micro-steps follow each other, and high
if an RX interrupt entry of the port falls between them. -/
def Obligations.RtsAfterGetc : Prop :=
  ∀ (s : State) (p : Port) (a b c : EnvInput) (rest : List EnvInput),
    s.fault = none → Gpio.wf s.gpio → s.fgStep = .getcW p → (s.port p).swRts ≠ NC →
    a.move = .fg → a.draws.lsr.getLsbD 0 = true →
    (s.inputs = a :: c :: rest → c.move = .fg →
      ∃ t, core.run 2 s = .next t ∧ t.fgStep = .idle ∧ (t.pin (s.port p).swRts).out = .low) ∧
    (s.inputs = a :: b :: c :: rest → b.move = .irq p → (b.draws.iir.extractLsb' 1 3).toNat = 2 → c.move = .fg →
      (s.port p).nvicEn = true → (s.port p).vec = true → (s.port p).isrStep = .idle → (s.port p).ier.en.rx = true →
      ∃ t, core.run 3 s = .next t ∧ t.fgStep = .idle ∧ (t.pin (s.port p).swRts).out = .high)

/-! ### The flow control engine (44_flow_control.md) -/

/-- SET_FLOW_CONTROL takes its operands into the flow sequence: it waits before step 1, or, promptly
advanced (log 6), has done step 1 (R144) and waits before step 2. Nothing else changes. -/
def Obligations.SetFlowControlEntersTheSequence : Prop :=
  ∀ (s : State) (port : PortField) (p : Port) (mode : FlowMode) (rxPin txPin : Pin),
    s.agent = .fg → port.toNat = p.val → (s.port p).initialized = true →
    (s.draw.prompt = false → exec (.setFlowControl port mode rxPin txPin) s =
      .next { s with fgStep := .sfc1 ⟨p, mode, rxPin, txPin, false⟩ }) ∧
    (s.draw.prompt = true →
      let cleared := { s.mcr1 with autoRts := false, autoCts := false }
      exec (.setFlowControl port mode rxPin txPin) s = .next { s with
        fgStep := .sfc2 ⟨p, mode, rxPin, txPin, false⟩
        mcr1 := if p = 1 then cleared else s.mcr1
        trace := s.trace ++ if p = 1 then [.regRead 1 (.mcr s.mcr1), .regWrite 1 (.mcr cleared)] else [] })

/-- R144, R145, R146, R147: steps 1 to 4 of the flow sequence. Step 1 clears both auto bits of port 1 by
one read-modify-write; step 2 is the body of FLOW_IRQ_SET p, RX, 0, whoever moved before it (R151); step
3 clears both pin slots; step 4 ends the sequence when the mode is none (INIT then responds its port). That
the port is initialised, without which FLOW_IRQ_SET's own checks would fault, is an invariant
(EveryStepKeepsTheInvariant). -/
def Obligations.FlowStepsOneToFour : Prop :=
  ∀ (s : State) (r : FlowRequest),
    (s.fgStep = .sfc1 r →
      let cleared := { s.mcr1 with autoRts := false, autoCts := false }
      s.advanceFg = { s with
        fgStep := .sfc2 r
        mcr1 := if r.port = 1 then cleared else s.mcr1
        trace := s.trace ++ if r.port = 1 then [.regRead 1 (.mcr s.mcr1), .regWrite 1 (.mcr cleared)] else [] }) ∧
    (s.fgStep = .sfc2 r → (s.port r.port).initialized = true →
      ∃ u, exec (.flowIrqSet (BitVec.ofNat 3 r.port.val) .rx false) { s with agent := .fg } = .next u ∧
        s.advanceFg = { u with fgStep := .sfc3 r, agent := s.agent } ∧
        (s.advanceFg.port r.port).irqFlow = { (s.port r.port).irqFlow with rx := false }) ∧
    (s.fgStep = .sfc3 r → OnlyPort r.port { s with fgStep := .sfc4 r } s.advanceFg ∧ s.advanceFg.trace = s.trace ∧
      s.advanceFg.port r.port = { s.port r.port with swRts := NC, swCts := NC }) ∧
    (s.fgStep = .sfc4 r → s.advanceFg = if r.mode = .none then { s with
        fgStep := .idle
        trace := s.trace ++ if r.respond then [.response (BitVec.ofNat 32 r.port.val)] else [] }
      else { s with fgStep := .sfc5 r })

/-- R148: step 5. A mode without CTS, or an absent pin, changes nothing. On port 1 with a pin that maps
to its CTS function the pin is routed and AUTO_CTS is set; otherwise the pin becomes a GPIO input and is
stored as sw_cts. -/
def Obligations.FlowStepFiveConnectsCts : Prop :=
  ∀ (s : State) (r : FlowRequest), s.fgStep = .sfc5 r →
    let wants := (r.mode = .cts ∨ r.mode = .rtsCts) ∧ r.txPin ≠ NC
    let hardware := r.port = 1 ∧ pinmap s.platform r.txPin .cts = some 1
    let auto := { s.mcr1 with autoCts := true }
    (¬ wants → s.advanceFg = { s with fgStep := .sfc6 r }) ∧
    (wants → hardware → s.advanceFg = { s with
      fgStep := .sfc6 r
      mcr1 := auto
      trace := s.trace ++ [.pinOut r.txPin .cts, .regRead 1 (.mcr s.mcr1), .regWrite 1 (.mcr auto)] }) ∧
    (wants → ¬ hardware → Gpio.wf s.gpio →
      SameRest s s.advanceFg ∧ SameOtherPorts r.port s s.advanceFg ∧ s.advanceFg.mcr1 = s.mcr1 ∧
      s.advanceFg.fgStep = .sfc6 r ∧ s.advanceFg.trace = s.trace ++ [.gpioInit r.txPin .input] ∧
      s.advanceFg.port r.port = { s.port r.port with swCts := r.txPin } ∧
      (s.advanceFg.pin r.txPin).dir = .input ∧ ∀ k : Pin, k ≠ r.txPin → s.advanceFg.pin k = s.pin k)

/-- From R149 (FCR's bits: log 12): step 6, after which the sequence ends. A mode without RTS, or an absent pin, changes nothing
else. Otherwise the RX FIFO is reset with trigger level one; then, on port 1 with a pin that maps to its
RTS function, the pin is routed and AUTO_RTS is set; otherwise the pin becomes a GPIO output driven low,
is stored as sw_rts, and the RX interrupt is requested. (A request that reaches step 6 does not respond:
its mode is not none.) -/
def Obligations.FlowStepSixConnectsRts : Prop :=
  ∀ (s : State) (r : FlowRequest), s.fgStep = .sfc6 r → r.respond = false →
    let p := r.port
    let wants := (r.mode = .rts ∨ r.mode = .rtsCts) ∧ r.rxPin ≠ NC
    let hardware := p = 1 ∧ pinmap s.platform r.rxPin .rts = some 1
    let auto := { s.mcr1 with autoRts := true }
    let fifo : Event := .regWrite p (.fcr ⟨true, true, false, s.platform.rxTriggerOne, s.draw.fcrRest⟩)
    let ier := { (s.port p).ier with en := (s.port p).ier.en.set .rx true }
    (¬ wants → s.advanceFg = { s with fgStep := .idle }) ∧
    (wants → hardware →
      SameRest s s.advanceFg ∧ SameOtherPorts p s s.advanceFg ∧ s.advanceFg.gpio = s.gpio ∧
      s.advanceFg.fgStep = .idle ∧ s.advanceFg.mcr1 = auto ∧
      s.advanceFg.port p = { s.port p with fifoEn := .on, rxTrigger := .one } ∧
      s.advanceFg.trace = s.trace ++
        [fifo, .pinOut r.rxPin .rts, .regRead 1 (.mcr s.mcr1), .regWrite 1 (.mcr auto)]) ∧
    (wants → ¬ hardware → Gpio.wf s.gpio →
      SameRest s s.advanceFg ∧ SameOtherPorts p s s.advanceFg ∧ s.advanceFg.mcr1 = s.mcr1 ∧
      s.advanceFg.fgStep = .idle ∧
      s.advanceFg.port p = { s.port p with
        fifoEn := .on, rxTrigger := .one, swRts := r.rxPin, irqFlow := (s.port p).irqFlow.set .rx true
        ier := ier, vec := true, nvicEn := true } ∧
      s.advanceFg.pin r.rxPin = ⟨.output, .low⟩ ∧ (∀ k : Pin, k ≠ r.rxPin → s.advanceFg.pin k = s.pin k) ∧
      s.advanceFg.trace = s.trace ++
        [fifo, .gpioInit r.rxPin .output, .gpioWrite r.rxPin false, .regRead p (.ier (s.port p).ier),
         .regWrite p (.ier ier), .nvicSetVector p, .nvicEnable p])

/-- R153: on port 1, with pins that map to its RTS and CTS functions, mode RTS+CTS ends with both auto
bits set, both slots NC, the flow request off, and no GPIO configured or written. -/
def Obligations.HardwareFlowControlOnPortOne : Prop :=
  ∀ (s : State) (rtsPin ctsPin : Pin),
    s.agent = .fg → (s.port 1).initialized = true →
    pinmap s.platform rtsPin .rts = some 1 → pinmap s.platform ctsPin .cts = some 1 →
    ∃ t, exec (.setFlowControl 1 .rtsCts rtsPin ctsPin) s = .next t ∧
      let u := t.advanceFgBy 6
      u.fgStep = .idle ∧ u.fault = s.fault ∧ u.mcr1 = { s.mcr1 with autoRts := true, autoCts := true } ∧
      (u.port 1).swRts = NC ∧ (u.port 1).swCts = NC ∧ (u.port 1).irqFlow.rx = false ∧ u.gpio = s.gpio ∧
      ∃ es, u.trace = s.trace ++ es ∧
        ∀ (pin : Pin) (dir : GpioDir) (b : Bool), .gpioInit pin dir ∉ es ∧ .gpioWrite pin b ∉ es

/-- From R152: whatever the operands, after an uninterrupted SET_FLOW_CONTROL the flow requester wants RX
exactly when software RTS is in effect, the command is over and no fault is raised. -/
def Obligations.FlowRequestMatchesSoftwareRts : Prop :=
  ∀ (s : State) (port : PortField) (p : Port) (mode : FlowMode) (rxPin txPin : Pin),
    s.agent = .fg → port.toNat = p.val → (s.port p).initialized = true →
    ∃ t, exec (.setFlowControl port mode rxPin txPin) s = .next t ∧
      let u := t.advanceFgBy 6
      u.fgStep = .idle ∧ u.fault = s.fault ∧
      ((u.port p).irqFlow.rx = true ↔ (u.port p).swRts ≠ NC) ∧
      ((u.port p).swRts = NC ∨ ((u.port p).swRts = rxPin ∧ (mode = .rts ∨ mode = .rtsCts))) ∧
      ((u.port p).swCts = NC ∨ ((u.port p).swCts = txPin ∧ (mode = .cts ∨ mode = .rtsCts)))

/-- From R151, R152, R205: after step 2 of a flow sequence the RX enable is what the application asks for;
from step 3 to step 6 software RTS is off too, and an interrupt entry of the port raises no RTS: it writes
no pin. (That R205's window begins with step 3 is log 34.) The premise is the invariant. -/
def Obligations.FlowWindowRaisesNoRts : Prop :=
  ∀ (s : State) (port : PortField) (p : Port) (r : FlowRequest),
    s.Inv → s.agent = .controller → port.toNat = p.val → r.port = p →
    let cleared := s.fgStep = .sfc4 r ∨ s.fgStep = .sfc5 r ∨ s.fgStep = .sfc6 r
    (s.fgStep = .sfc3 r ∨ cleared → (s.port p).ier.en.rx = (s.port p).irqApi.rx) ∧
    (cleared → (s.port p).swRts = NC ∧
      ∃ (t : State) (es : List Event), exec (.irqEntry port) s = .next t ∧ t.gpio = s.gpio ∧ t.trace = s.trace ++ es ∧
        ∀ (pin : Pin) (b : Bool), .gpioWrite pin b ∉ es)

/-! ### The port facade (45_port_facade.md) -/

/-- INIT on pins that select port `p`, with a clock that admits 9600 baud, completes its atomic part:
power, clock divider, FIFO reset, 9600 baud, 8-N-1, pins routed and pulled up, initialized; the flow
sequence of mode none follows, its step 1 in the same step where the environment says so (log 6). FCR's bits:
log 12. -/
def Obligations.InitBringsUpThePort : Prop :=
  ∀ (s : State) (txPin rxPin : Pin) (p : Port) (d : Triple),
    s.agent = .fg → pinmap s.platform txPin .tx = some p → pinmap s.platform rxPin .rx = some p →
    divisorOf s.platform.dcArith s.platform.pclkHz 9600 = some d →
    let old := (s.port p).lcr
    let r : FlowRequest := ⟨p, .none, NC, NC, true⟩
    let cleared := { s.mcr1 with autoRts := false, autoCts := false }
    ∃ t, exec (.init txPin rxPin) s = .next t ∧ SameRest s t ∧ SameOtherPorts p s t ∧ t.gpio = s.gpio ∧
      t.port p = { s.port p with
        power := .on, pclkDiv1 := true, fifoEn := .on, rxTrigger := .one, initialized := true
        dlm := BitVec.ofNat 8 (d.dl / 256), dll := BitVec.ofNat 8 (d.dl % 256)
        fdr := BitVec.ofNat 8 (16 * d.mv + d.dav), lcr := 0x03 } ∧
      t.fgStep = (if s.draw.prompt then .sfc2 r else .sfc1 r) ∧
      t.mcr1 = (if s.draw.prompt = true ∧ p = 1 then cleared else s.mcr1) ∧
      t.trace = s.trace ++
        [.power p, .pclkDiv1 p, .regWrite p (.fcr ⟨true, true, true, s.platform.rxTriggerOne, s.draw.fcrRest⟩),
         .regRead p (.lcr old), .regWrite p (.lcr (old ||| 0x80)),
         .regWrite p (.dlm (BitVec.ofNat 8 (d.dl / 256))), .regWrite p (.dll (BitVec.ofNat 8 (d.dl % 256))),
         .regWrite p (.fdr (BitVec.ofNat 8 (16 * d.mv + d.dav))),
         .regRead p (.lcr (old ||| 0x80)), .regWrite p (.lcr (old &&& 0x7F)), .regWrite p (.lcr 0x03),
         .pinOut txPin .tx, .pinOut rxPin .rx, .pinMode txPin .pullUp, .pinMode rxPin .pullUp] ++
        (if s.draw.prompt = true ∧ p = 1 then [.regRead 1 (.mcr s.mcr1), .regWrite 1 (.mcr cleared)] else [])

/-- R158: the state after a whole INIT with result `p`, run without another agent between its steps.
The premise on IER is R43, which is an invariant. -/
def Obligations.StateAfterInit : Prop :=
  ∀ (s : State) (txPin rxPin : Pin) (p : Port) (d : Triple),
    s.agent = .fg → pinmap s.platform txPin .tx = some p → pinmap s.platform rxPin .rx = some p →
    divisorOf s.platform.dcArith s.platform.pclkHz 9600 = some d →
    (s.port p).ier.en.rx = ((s.port p).irqApi.rx || (s.port p).irqFlow.rx) →
    ∃ t, exec (.init txPin rxPin) s = .next t ∧
      let u := t.advanceFgBy 4
      let q := u.port p
      let old := s.port p
      u.fgStep = .idle ∧ u.trace.getLast? = some (.response (BitVec.ofNat 32 p.val)) ∧
      q.initialized = true ∧ q.power = .on ∧ q.pclkDiv1 = true ∧ q.fifoEn = .on ∧ q.rxTrigger = .one ∧
      q.dl.toNat = d.dl ∧ q.fdr = BitVec.ofNat 8 (16 * d.mv + d.dav) ∧ q.lcr = 0x03 ∧
      q.swRts = NC ∧ q.swCts = NC ∧ q.irqFlow = { old.irqFlow with rx := false } ∧
      (p = 1 → u.mcr1 = { s.mcr1 with autoRts := false, autoCts := false }) ∧ (p ≠ 1 → u.mcr1 = s.mcr1) ∧
      q.ier.en.rx = old.irqApi.rx ∧ q.ier.en.tx = old.ier.en.tx ∧
      q.txCount = old.txCount ∧ q.irqApi = old.irqApi ∧ q.cbId = old.cbId ∧ q.handler = old.handler ∧
      q.vec = old.vec ∧ q.isrStep = old.isrStep ∧ u.gpio = s.gpio ∧ SameRest s u ∧ SameOtherPorts p s u

/-- R154: the pins' resolution: TX first, then RX, then that they agree; NC maps to nothing; a failing
INIT records the fault and does nothing else. -/
def Obligations.InitChecksThePins : Prop :=
  ∀ (s : State) (txPin rxPin : Pin), s.agent = .fg →
    (∀ sig : Signal, pinmap s.platform NC sig = none) ∧
    (pinmap s.platform txPin .tx = none →
      exec (.init txPin rxPin) s = .next (s.withFault (.pinMappingError .txNone) 0x0E 0)) ∧
    (pinmap s.platform txPin .tx ≠ none → pinmap s.platform rxPin .rx = none →
      exec (.init txPin rxPin) s = .next (s.withFault (.pinMappingError .rxNone) 0x0E 0)) ∧
    (∀ a b : Port, pinmap s.platform txPin .tx = some a → pinmap s.platform rxPin .rx = some b → a ≠ b →
      exec (.init txPin rxPin) s = .next (s.withFault (.pinMappingError .mismatch) 0x0E 0)) ∧
    (∀ a : Port, pinmap s.platform txPin .tx = some a → pinmap s.platform rxPin .rx = some a →
      resolvePins s.platform txPin rxPin = .ok a)

/-- INIT with a clock below 16·9600 Hz: the power, clock-divider and FIFO requests, then
CONFIGURATION_ERROR(BAUD_RANGE); the port is not initialised by it. FCR's bits: log 12. -/
def Obligations.InitWithALowClockFaultsLate : Prop :=
  ∀ (s : State) (txPin rxPin : Pin) (p : Port),
    s.agent = .fg → pinmap s.platform txPin .tx = some p → pinmap s.platform rxPin .rx = some p →
    s.platform.pclkHz < 153600 →
    ∃ t, exec (.init txPin rxPin) s = .next t ∧
      t.fault = some ⟨.configurationError .baudRange, 0x0E, 0, .fg⟩ ∧ OnlyPort p { s with fault := t.fault } t ∧
      t.port p = { s.port p with power := .on, pclkDiv1 := true, fifoEn := .on, rxTrigger := .one } ∧
      t.trace = s.trace ++ [.power p, .pclkDiv1 p, .regWrite p (.fcr ⟨true, true, true, s.platform.rxTriggerOne, s.draw.fcrRest⟩)]

/-- FREE completes: the port's identifier is cleared, and nothing else changes. -/
def Obligations.FreeClearsTheIdentifier : Prop :=
  ∀ (s : State) (port : PortField) (p : Port),
    s.agent = .fg → port.toNat = p.val → (s.port p).initialized = true →
    ∃ t, exec (.free port) s = .next t ∧ OnlyPort p s t ∧ t.port p = { s.port p with cbId := 0 } ∧ t.trace = s.trace

/-- CLEAR completes: FCR is written with both resets, FIFOs enabled, trigger level one; the credit count
is kept, and nothing but the FCR image changes. FCR's bits: log 12. -/
def Obligations.ClearResetsBothFifos : Prop :=
  ∀ (s : State) (port : PortField) (p : Port),
    s.agent = .fg → port.toNat = p.val → (s.port p).initialized = true →
    ∃ t, exec (.clear port) s = .next t ∧ OnlyPort p s t ∧
      t.port p = { s.port p with fifoEn := .on, rxTrigger := .one } ∧
      t.trace = s.trace ++ [.regWrite p (.fcr ⟨true, true, true, s.platform.rxTriggerOne, s.draw.fcrRest⟩)]

/-! ### The whole machine -/

/-- Every state a run can start in meets the invariant, and reset is such a state. -/
def Obligations.InvariantHoldsAtReset : Prop :=
  (∀ s : State, s.Initial → s.Inv) ∧ State.reset.Initial

/-- Every step keeps the invariant: enable bits (R43), lines (R44), credit bound (R45), DLAB (R46),
registry (R128), legal divisors (R99), the GPIO record's form, and the command in progress. -/
def Obligations.EveryStepKeepsTheInvariant : Prop :=
  ∀ s t : State, s.Inv → step s = .next t → t.Inv

/-- R43, R44, R45: in every reachable state, for every port: each enable bit is the OR of its two
requester flags, the line is enabled exactly when a direction is, and the credit count is at most 16. -/
def Obligations.ReachableStatesKeepEnablesAndCredit : Prop :=
  ∀ s : State, Reachable s → ∀ p : Port,
    (∀ d : Dir, (s.port p).ier.en.get d = ((s.port p).irqApi.get d || (s.port p).irqFlow.get d)) ∧
    (s.port p).nvicEn = ((s.port p).ier.en.rx || (s.port p).ier.en.tx) ∧ (s.port p).txCount.toNat ≤ 16

/-- What no step undoes: the parameters never change, an initialised port stays initialised, a vector
stays installed, power stays on, the trace only grows, and the IER and MCR bits the block does not own
are kept. -/
def Obligations.NoStepUndoesInitialisation : Prop :=
  ∀ s t : State, step s = .next t → Persists s t

/-- Who writes what (R18 to R25, R27 to R30, R35 to R37): a field that a command changes is one of that
command's own. The flow slots and MCR's final values are written by the flow sequence's micro-steps. -/
def Obligations.EachFieldHasItsWriters : Prop :=
  ∀ (i : Instr) (s t : State), exec i s = .next t → ∀ q : Port,
    ((t.port q).irqApi ≠ (s.port q).irqApi → i.op = .irqSet) ∧
    ((t.port q).irqFlow ≠ (s.port q).irqFlow → i.op = .flowIrqSet) ∧
    ((t.port q).ier ≠ (s.port q).ier ∨ (t.port q).nvicEn ≠ (s.port q).nvicEn ∨ (t.port q).vec ≠ (s.port q).vec →
      i.op = .irqSet ∨ i.op = .flowIrqSet) ∧
    ((t.port q).cbId ≠ (s.port q).cbId → i.op = .irqHandler ∨ i.op = .free) ∧
    ((t.port q).handler ≠ (s.port q).handler ∨ t.handler ≠ s.handler → i.op = .irqHandler) ∧
    ((t.port q).lcr ≠ (s.port q).lcr →
      i.op = .baud ∨ i.op = .format ∨ i.op = .breakSet ∨ i.op = .breakClear ∨ i.op = .init) ∧
    ((t.port q).dll ≠ (s.port q).dll ∨ (t.port q).dlm ≠ (s.port q).dlm ∨ (t.port q).fdr ≠ (s.port q).fdr →
      i.op = .baud ∨ i.op = .init) ∧
    ((t.port q).txCount ≠ (s.port q).txCount → i.op = .writable ∨ i.op = .putc) ∧
    ((t.port q).initialized ≠ (s.port q).initialized ∨ (t.port q).power ≠ (s.port q).power ∨
      (t.port q).pclkDiv1 ≠ (s.port q).pclkDiv1 → i.op = .init) ∧
    ((t.port q).fifoEn ≠ (s.port q).fifoEn ∨ (t.port q).rxTrigger ≠ (s.port q).rxTrigger →
      i.op = .init ∨ i.op = .clear) ∧
    ((t.port q).isrStep ≠ (s.port q).isrStep → i.op = .irqEntry) ∧
    (t.port q).swRts = (s.port q).swRts ∧ (t.port q).swCts = (s.port q).swCts ∧
    (t.mcr1 ≠ s.mcr1 → i.op = .setFlowControl ∨ i.op = .init) ∧
    (t.gpio ≠ s.gpio → i.op = .irqEntry ∨ i.op = .getc) ∧
    (t.fgStep ≠ s.fgStep → i.op = .getc ∨ i.op = .putc ∨ i.op = .setFlowControl ∨ i.op = .init)

/-- A command on port `p` leaves every other port's row as it was; INIT changes only the port its TX pin
selects; MCR[1] is touched only through port 1. -/
def Obligations.CommandsLeaveOtherPortsAlone : Prop :=
  ∀ (i : Instr) (s t : State) (q : Port), exec i s = .next t →
    (∀ txPin rxPin, i = .init txPin rxPin → pinmap s.platform txPin .tx ≠ some q) →
    (i.op ≠ .init → i.portField.toNat ≠ q.val) →
    t.port q = s.port q ∧ (q = 1 → t.mcr1 = s.mcr1)

/-- The GPIO record (R38): a write of one pin reads back, every other pin is as before, and the
canonical form is kept. -/
def Obligations.GpioRecordReadsBack : Prop :=
  ∀ (m : GpioMap) (k : Pin) (v : GpioPin), Gpio.wf m →
    Gpio.wf (gpioSet m k.toNat v) ∧ gpioGet (gpioSet m k.toNat v) k.toNat = v ∧
    ∀ j : Nat, j ≠ k.toNat → gpioGet (gpioSet m k.toNat v) j = gpioGet m j
end

