-- ==== Sys2Proof/Laws/Gpio.lean ====
section
/-! SUPPORT. The canonical form of the GPIO record is kept by every write (log 17). -/

namespace Sys2Proof.Machine

/-- The empty record is canonical. -/
theorem gpio_wf_nil : Gpio.wf [] := by simp [Gpio.wf]

/-- The keys after a write are the old ones and at most the one written. -/
theorem gpioSet_keys (m : GpioMap) (k : Nat) (v : GpioPin) :
    ∀ e ∈ gpioSet m k v, e ∈ m ∨ (e = (k, v) ∧ v ≠ GpioPin.reset) := by
  induction m with
  | nil =>
    intro e he
    simp only [gpioSet, gpioCons] at he
    split at he
    · simp at he
    · next hv => simp at he; exact .inr ⟨he, hv⟩
  | cons hd m ih =>
    obtain ⟨a, w⟩ := hd
    intro e he
    simp only [gpioSet, gpioCons] at he
    split at he
    · split at he
      · exact .inl he
      · next hv =>
        rcases List.mem_cons.1 he with h | h
        · exact .inr ⟨h, hv⟩
        · exact .inl h
    · split at he
      · split at he
        · exact .inl (List.mem_cons_of_mem _ he)
        · next hv =>
          rcases List.mem_cons.1 he with h | h
          · exact .inr ⟨h, hv⟩
          · exact .inl (List.mem_cons_of_mem _ h)
      · rcases List.mem_cons.1 he with h | h
        · exact .inl (h ▸ List.mem_cons_self)
        · rcases ih e h with h | h
          · exact .inl (List.mem_cons_of_mem _ h)
          · exact .inr h

/-- A write of any pin keeps the keys strictly rising. -/
theorem gpioSet_sorted (m : GpioMap) (k : Nat) (v : GpioPin) (h : (m.map Prod.fst).Pairwise (· < ·)) :
    ((gpioSet m k v).map Prod.fst).Pairwise (· < ·) := by
  induction m with
  | nil => simp only [gpioSet, gpioCons]; split <;> simp
  | cons hd m ih =>
    obtain ⟨a, w⟩ := hd
    simp only [List.map_cons, List.pairwise_cons, List.mem_map] at h
    obtain ⟨hlt, hs⟩ := h
    have hlt' : ∀ e ∈ m, a < e.1 := fun e he => hlt e.1 ⟨e, he, rfl⟩
    simp only [gpioSet, gpioCons]
    split
    · next hk =>
      split
      · simpa using ⟨fun b c hb => hlt' (b, c) hb, hs⟩
      · simp only [List.map_cons, List.pairwise_cons, List.mem_cons, List.mem_map]
        refine ⟨?_, ⟨fun b hb => hlt b hb, hs⟩⟩
        rintro b (rfl | ⟨e, he, rfl⟩)
        · exact hk
        · exact Nat.lt_trans hk (hlt' e he)
    · next hk =>
      split
      · next hka =>
        subst hka
        split
        · exact hs
        · simp only [List.map_cons, List.pairwise_cons, List.mem_map]
          exact ⟨fun b hb => hlt b hb, hs⟩
      · next hka =>
        simp only [List.map_cons, List.pairwise_cons, List.mem_map]
        refine ⟨?_, ih hs⟩
        rintro b ⟨e, he, rfl⟩
        rcases gpioSet_keys m k v e he with h | ⟨rfl, -⟩
        · exact hlt' e h
        · show a < k; omega

/-- Every write of a pin below 2^16 keeps the canonical form. -/
theorem gpioSet_wf (m : GpioMap) (k : Nat) (v : GpioPin) (hk : k < 65536) (h : Gpio.wf m) :
    Gpio.wf (gpioSet m k v) := by
  obtain ⟨hs, hb, hr⟩ := h
  refine ⟨gpioSet_sorted m k v hs, fun e he => ?_, fun e he => ?_⟩
  · rcases gpioSet_keys m k v e he with h | ⟨rfl, -⟩
    · exact hb e h
    · exact hk
  · rcases gpioSet_keys m k v e he with h | ⟨rfl, hv⟩
    · exact hr e h
    · exact hv

/-- The form the machine uses: the key is a 16-bit pin. -/
theorem gpioSet_pin_wf (m : GpioMap) (k : Pin) (v : GpioPin) (h : Gpio.wf m) :
    Gpio.wf (gpioSet m k.toNat v) :=
  gpioSet_wf m k.toNat v k.isLt h

/-! ### Reading after a write -/

/-- No pin below every listed one is listed. -/
theorem gpioGet_below (m : GpioMap) (k : Nat) (h : ∀ e ∈ m, k < e.1) : gpioGet m k = GpioPin.reset := by
  induction m with
  | nil => rfl
  | cons e m ih =>
    have hk := h e List.mem_cons_self
    simp only [gpioGet]
    rw [if_neg (by omega)]
    exact ih fun e he => h e (List.mem_cons_of_mem _ he)

/-- Reading behind a new front entry. -/
theorem gpioGet_gpioCons (m : GpioMap) (k : Nat) (v : GpioPin) (j : Nat) (h : ∀ e ∈ m, k < e.1) :
    gpioGet (gpioCons k v m) j = if k = j then v else gpioGet m j := by
  unfold gpioCons
  split
  · next hv =>
    split
    · next hj => subst hj; rw [gpioGet_below m k h, hv]
    · rfl
  · rfl

/-- The write law of the record: the written pin reads the value, every other pin reads as before. -/
theorem gpioGet_gpioSet (m : GpioMap) (k : Nat) (v : GpioPin) (j : Nat) (h : (m.map Prod.fst).Pairwise (· < ·)) :
    gpioGet (gpioSet m k v) j = if k = j then v else gpioGet m j := by
  induction m with
  | nil => exact gpioGet_gpioCons [] k v j (by simp)
  | cons e m ih =>
    obtain ⟨a, w⟩ := e
    simp only [List.map_cons, List.pairwise_cons, List.mem_map] at h
    have hlt : ∀ e ∈ m, a < e.1 := fun e he => h.1 e.1 ⟨e, he, rfl⟩
    simp only [gpioSet]
    split
    · next hk =>
      refine gpioGet_gpioCons _ k v j fun e he => ?_
      rcases List.mem_cons.1 he with rfl | he
      · exact hk
      · exact Nat.lt_trans hk (hlt e he)
    · split
      · next hka =>
        subst hka
        rw [gpioGet_gpioCons m k v j hlt]
        simp only [gpioGet]
        split <;> rfl
      · next hka =>
        simp only [gpioGet]
        rw [ih h.2]
        by_cases hj : a = j
        · rw [if_pos hj, if_neg (by omega), if_pos hj]
        · simp only [hj, if_false]

end Sys2Proof.Machine
end

