-- ==== Sys2Proof/Laws/State.lean ====
section
/-! SUPPORT. Reading State after an update: one lemma per field per update, so that no later proof unfolds
a record update, and the laws of a port's row after an update of a port's row. -/

namespace Sys2Proof.Machine

/-! ### modPort -/

@[simp] theorem modPort_platform (s : State) (p : Port) (f : PortState → PortState) : (s.modPort p f).platform = s.platform := rfl
@[simp] theorem modPort_mcr1 (s : State) (p : Port) (f : PortState → PortState) : (s.modPort p f).mcr1 = s.mcr1 := rfl
@[simp] theorem modPort_handler (s : State) (p : Port) (f : PortState → PortState) : (s.modPort p f).handler = s.handler := rfl
@[simp] theorem modPort_gpio (s : State) (p : Port) (f : PortState → PortState) : (s.modPort p f).gpio = s.gpio := rfl
@[simp] theorem modPort_fgStep (s : State) (p : Port) (f : PortState → PortState) : (s.modPort p f).fgStep = s.fgStep := rfl
@[simp] theorem modPort_fault (s : State) (p : Port) (f : PortState → PortState) : (s.modPort p f).fault = s.fault := rfl
@[simp] theorem modPort_trace (s : State) (p : Port) (f : PortState → PortState) : (s.modPort p f).trace = s.trace := rfl
@[simp] theorem modPort_fgWords (s : State) (p : Port) (f : PortState → PortState) : (s.modPort p f).fgWords = s.fgWords := rfl
@[simp] theorem modPort_isrWords (s : State) (p : Port) (f : PortState → PortState) : (s.modPort p f).isrWords = s.isrWords := rfl
@[simp] theorem modPort_agent (s : State) (p : Port) (f : PortState → PortState) : (s.modPort p f).agent = s.agent := rfl
@[simp] theorem modPort_draw (s : State) (p : Port) (f : PortState → PortState) : (s.modPort p f).draw = s.draw := rfl
@[simp] theorem modPort_inputs (s : State) (p : Port) (f : PortState → PortState) : (s.modPort p f).inputs = s.inputs := rfl
@[simp] theorem modPort_tick (s : State) (p : Port) (f : PortState → PortState) : (s.modPort p f).tick = s.tick := rfl
@[simp] theorem modPort_pin (s : State) (p : Port) (f : PortState → PortState) (q : Pin) : (s.modPort p f).pin q = s.pin q := rfl

/-! ### emit -/

@[simp] theorem emit_platform (s : State) (es : List Event) : (s.emit es).platform = s.platform := rfl
@[simp] theorem emit_ports (s : State) (es : List Event) : (s.emit es).ports = s.ports := rfl
@[simp] theorem emit_mcr1 (s : State) (es : List Event) : (s.emit es).mcr1 = s.mcr1 := rfl
@[simp] theorem emit_handler (s : State) (es : List Event) : (s.emit es).handler = s.handler := rfl
@[simp] theorem emit_gpio (s : State) (es : List Event) : (s.emit es).gpio = s.gpio := rfl
@[simp] theorem emit_fgStep (s : State) (es : List Event) : (s.emit es).fgStep = s.fgStep := rfl
@[simp] theorem emit_fault (s : State) (es : List Event) : (s.emit es).fault = s.fault := rfl
@[simp] theorem emit_trace (s : State) (es : List Event) : (s.emit es).trace = s.trace ++ es := rfl
@[simp] theorem emit_fgWords (s : State) (es : List Event) : (s.emit es).fgWords = s.fgWords := rfl
@[simp] theorem emit_isrWords (s : State) (es : List Event) : (s.emit es).isrWords = s.isrWords := rfl
@[simp] theorem emit_agent (s : State) (es : List Event) : (s.emit es).agent = s.agent := rfl
@[simp] theorem emit_draw (s : State) (es : List Event) : (s.emit es).draw = s.draw := rfl
@[simp] theorem emit_inputs (s : State) (es : List Event) : (s.emit es).inputs = s.inputs := rfl
@[simp] theorem emit_tick (s : State) (es : List Event) : (s.emit es).tick = s.tick := rfl
@[simp] theorem emit_port (s : State) (es : List Event) (q : Port) : (s.emit es).port q = s.port q := rfl
@[simp] theorem emit_pin (s : State) (es : List Event) (q : Pin) : (s.emit es).pin q = s.pin q := rfl

/-! ### setPin -/

@[simp] theorem setPin_platform (s : State) (k : Pin) (v : GpioPin) : (s.setPin k v).platform = s.platform := rfl
@[simp] theorem setPin_ports (s : State) (k : Pin) (v : GpioPin) : (s.setPin k v).ports = s.ports := rfl
@[simp] theorem setPin_mcr1 (s : State) (k : Pin) (v : GpioPin) : (s.setPin k v).mcr1 = s.mcr1 := rfl
@[simp] theorem setPin_handler (s : State) (k : Pin) (v : GpioPin) : (s.setPin k v).handler = s.handler := rfl
@[simp] theorem setPin_gpio (s : State) (k : Pin) (v : GpioPin) : (s.setPin k v).gpio = gpioSet s.gpio k.toNat v := rfl
@[simp] theorem setPin_fgStep (s : State) (k : Pin) (v : GpioPin) : (s.setPin k v).fgStep = s.fgStep := rfl
@[simp] theorem setPin_fault (s : State) (k : Pin) (v : GpioPin) : (s.setPin k v).fault = s.fault := rfl
@[simp] theorem setPin_trace (s : State) (k : Pin) (v : GpioPin) : (s.setPin k v).trace = s.trace := rfl
@[simp] theorem setPin_fgWords (s : State) (k : Pin) (v : GpioPin) : (s.setPin k v).fgWords = s.fgWords := rfl
@[simp] theorem setPin_isrWords (s : State) (k : Pin) (v : GpioPin) : (s.setPin k v).isrWords = s.isrWords := rfl
@[simp] theorem setPin_agent (s : State) (k : Pin) (v : GpioPin) : (s.setPin k v).agent = s.agent := rfl
@[simp] theorem setPin_draw (s : State) (k : Pin) (v : GpioPin) : (s.setPin k v).draw = s.draw := rfl
@[simp] theorem setPin_inputs (s : State) (k : Pin) (v : GpioPin) : (s.setPin k v).inputs = s.inputs := rfl
@[simp] theorem setPin_tick (s : State) (k : Pin) (v : GpioPin) : (s.setPin k v).tick = s.tick := rfl
@[simp] theorem setPin_port (s : State) (k : Pin) (v : GpioPin) (q : Port) : (s.setPin k v).port q = s.port q := rfl

/-! ### setFgStep -/

@[simp] theorem setFgStep_platform (s : State) (st : FgStep) : (s.setFgStep st).platform = s.platform := rfl
@[simp] theorem setFgStep_ports (s : State) (st : FgStep) : (s.setFgStep st).ports = s.ports := rfl
@[simp] theorem setFgStep_mcr1 (s : State) (st : FgStep) : (s.setFgStep st).mcr1 = s.mcr1 := rfl
@[simp] theorem setFgStep_handler (s : State) (st : FgStep) : (s.setFgStep st).handler = s.handler := rfl
@[simp] theorem setFgStep_gpio (s : State) (st : FgStep) : (s.setFgStep st).gpio = s.gpio := rfl
@[simp] theorem setFgStep_fgStep (s : State) (st : FgStep) : (s.setFgStep st).fgStep = st := rfl
@[simp] theorem setFgStep_fault (s : State) (st : FgStep) : (s.setFgStep st).fault = s.fault := rfl
@[simp] theorem setFgStep_trace (s : State) (st : FgStep) : (s.setFgStep st).trace = s.trace := rfl
@[simp] theorem setFgStep_fgWords (s : State) (st : FgStep) : (s.setFgStep st).fgWords = s.fgWords := rfl
@[simp] theorem setFgStep_isrWords (s : State) (st : FgStep) : (s.setFgStep st).isrWords = s.isrWords := rfl
@[simp] theorem setFgStep_agent (s : State) (st : FgStep) : (s.setFgStep st).agent = s.agent := rfl
@[simp] theorem setFgStep_draw (s : State) (st : FgStep) : (s.setFgStep st).draw = s.draw := rfl
@[simp] theorem setFgStep_inputs (s : State) (st : FgStep) : (s.setFgStep st).inputs = s.inputs := rfl
@[simp] theorem setFgStep_tick (s : State) (st : FgStep) : (s.setFgStep st).tick = s.tick := rfl
@[simp] theorem setFgStep_port (s : State) (st : FgStep) (q : Port) : (s.setFgStep st).port q = s.port q := rfl
@[simp] theorem setFgStep_pin (s : State) (st : FgStep) (q : Pin) : (s.setFgStep st).pin q = s.pin q := rfl

/-! ### setMcr1 -/

@[simp] theorem setMcr1_platform (s : State) (m : Mcr) : (s.setMcr1 m).platform = s.platform := rfl
@[simp] theorem setMcr1_ports (s : State) (m : Mcr) : (s.setMcr1 m).ports = s.ports := rfl
@[simp] theorem setMcr1_mcr1 (s : State) (m : Mcr) : (s.setMcr1 m).mcr1 = m := rfl
@[simp] theorem setMcr1_handler (s : State) (m : Mcr) : (s.setMcr1 m).handler = s.handler := rfl
@[simp] theorem setMcr1_gpio (s : State) (m : Mcr) : (s.setMcr1 m).gpio = s.gpio := rfl
@[simp] theorem setMcr1_fgStep (s : State) (m : Mcr) : (s.setMcr1 m).fgStep = s.fgStep := rfl
@[simp] theorem setMcr1_fault (s : State) (m : Mcr) : (s.setMcr1 m).fault = s.fault := rfl
@[simp] theorem setMcr1_trace (s : State) (m : Mcr) : (s.setMcr1 m).trace = s.trace := rfl
@[simp] theorem setMcr1_fgWords (s : State) (m : Mcr) : (s.setMcr1 m).fgWords = s.fgWords := rfl
@[simp] theorem setMcr1_isrWords (s : State) (m : Mcr) : (s.setMcr1 m).isrWords = s.isrWords := rfl
@[simp] theorem setMcr1_agent (s : State) (m : Mcr) : (s.setMcr1 m).agent = s.agent := rfl
@[simp] theorem setMcr1_draw (s : State) (m : Mcr) : (s.setMcr1 m).draw = s.draw := rfl
@[simp] theorem setMcr1_inputs (s : State) (m : Mcr) : (s.setMcr1 m).inputs = s.inputs := rfl
@[simp] theorem setMcr1_tick (s : State) (m : Mcr) : (s.setMcr1 m).tick = s.tick := rfl
@[simp] theorem setMcr1_port (s : State) (m : Mcr) (q : Port) : (s.setMcr1 m).port q = s.port q := rfl
@[simp] theorem setMcr1_pin (s : State) (m : Mcr) (q : Pin) : (s.setMcr1 m).pin q = s.pin q := rfl

/-! ### presentedBy -/

@[simp] theorem presentedBy_platform (s : State) (a : Agent) : (s.presentedBy a).platform = s.platform := rfl
@[simp] theorem presentedBy_ports (s : State) (a : Agent) : (s.presentedBy a).ports = s.ports := rfl
@[simp] theorem presentedBy_mcr1 (s : State) (a : Agent) : (s.presentedBy a).mcr1 = s.mcr1 := rfl
@[simp] theorem presentedBy_handler (s : State) (a : Agent) : (s.presentedBy a).handler = s.handler := rfl
@[simp] theorem presentedBy_gpio (s : State) (a : Agent) : (s.presentedBy a).gpio = s.gpio := rfl
@[simp] theorem presentedBy_fgStep (s : State) (a : Agent) : (s.presentedBy a).fgStep = s.fgStep := rfl
@[simp] theorem presentedBy_fault (s : State) (a : Agent) : (s.presentedBy a).fault = s.fault := rfl
@[simp] theorem presentedBy_trace (s : State) (a : Agent) : (s.presentedBy a).trace = s.trace := rfl
@[simp] theorem presentedBy_fgWords (s : State) (a : Agent) : (s.presentedBy a).fgWords = s.fgWords := rfl
@[simp] theorem presentedBy_isrWords (s : State) (a : Agent) : (s.presentedBy a).isrWords = s.isrWords := rfl
@[simp] theorem presentedBy_agent (s : State) (a : Agent) : (s.presentedBy a).agent = a := rfl
@[simp] theorem presentedBy_draw (s : State) (a : Agent) : (s.presentedBy a).draw = s.draw := rfl
@[simp] theorem presentedBy_inputs (s : State) (a : Agent) : (s.presentedBy a).inputs = s.inputs := rfl
@[simp] theorem presentedBy_tick (s : State) (a : Agent) : (s.presentedBy a).tick = s.tick := rfl
@[simp] theorem presentedBy_port (s : State) (a : Agent) (q : Port) : (s.presentedBy a).port q = s.port q := rfl
@[simp] theorem presentedBy_pin (s : State) (a : Agent) (q : Pin) : (s.presentedBy a).pin q = s.pin q := rfl

/-! ### raise -/

@[simp] theorem raise_platform (s : State) (c : FaultCause) (op : BitVec 5) (pf : PortField) : (s.raise c op pf).platform = s.platform := rfl
@[simp] theorem raise_ports (s : State) (c : FaultCause) (op : BitVec 5) (pf : PortField) : (s.raise c op pf).ports = s.ports := rfl
@[simp] theorem raise_mcr1 (s : State) (c : FaultCause) (op : BitVec 5) (pf : PortField) : (s.raise c op pf).mcr1 = s.mcr1 := rfl
@[simp] theorem raise_handler (s : State) (c : FaultCause) (op : BitVec 5) (pf : PortField) : (s.raise c op pf).handler = s.handler := rfl
@[simp] theorem raise_gpio (s : State) (c : FaultCause) (op : BitVec 5) (pf : PortField) : (s.raise c op pf).gpio = s.gpio := rfl
@[simp] theorem raise_fgStep (s : State) (c : FaultCause) (op : BitVec 5) (pf : PortField) : (s.raise c op pf).fgStep = s.fgStep := rfl
@[simp] theorem raise_fault (s : State) (c : FaultCause) (op : BitVec 5) (pf : PortField) : (s.raise c op pf).fault = some ⟨c, op, pf, s.agent⟩ := rfl
@[simp] theorem raise_trace (s : State) (c : FaultCause) (op : BitVec 5) (pf : PortField) : (s.raise c op pf).trace = s.trace := rfl
@[simp] theorem raise_fgWords (s : State) (c : FaultCause) (op : BitVec 5) (pf : PortField) : (s.raise c op pf).fgWords = s.fgWords := rfl
@[simp] theorem raise_isrWords (s : State) (c : FaultCause) (op : BitVec 5) (pf : PortField) : (s.raise c op pf).isrWords = s.isrWords := rfl
@[simp] theorem raise_agent (s : State) (c : FaultCause) (op : BitVec 5) (pf : PortField) : (s.raise c op pf).agent = s.agent := rfl
@[simp] theorem raise_draw (s : State) (c : FaultCause) (op : BitVec 5) (pf : PortField) : (s.raise c op pf).draw = s.draw := rfl
@[simp] theorem raise_inputs (s : State) (c : FaultCause) (op : BitVec 5) (pf : PortField) : (s.raise c op pf).inputs = s.inputs := rfl
@[simp] theorem raise_tick (s : State) (c : FaultCause) (op : BitVec 5) (pf : PortField) : (s.raise c op pf).tick = s.tick := rfl
@[simp] theorem raise_port (s : State) (c : FaultCause) (op : BitVec 5) (pf : PortField) (q : Port) : (s.raise c op pf).port q = s.port q := rfl
@[simp] theorem raise_pin (s : State) (c : FaultCause) (op : BitVec 5) (pf : PortField) (q : Pin) : (s.raise c op pf).pin q = s.pin q := rfl

/-! ### setFgWords -/

@[simp] theorem setFgWords_platform (s : State) (ws : List Word) : (s.setFgWords ws).platform = s.platform := rfl
@[simp] theorem setFgWords_ports (s : State) (ws : List Word) : (s.setFgWords ws).ports = s.ports := rfl
@[simp] theorem setFgWords_mcr1 (s : State) (ws : List Word) : (s.setFgWords ws).mcr1 = s.mcr1 := rfl
@[simp] theorem setFgWords_handler (s : State) (ws : List Word) : (s.setFgWords ws).handler = s.handler := rfl
@[simp] theorem setFgWords_gpio (s : State) (ws : List Word) : (s.setFgWords ws).gpio = s.gpio := rfl
@[simp] theorem setFgWords_fgStep (s : State) (ws : List Word) : (s.setFgWords ws).fgStep = s.fgStep := rfl
@[simp] theorem setFgWords_fault (s : State) (ws : List Word) : (s.setFgWords ws).fault = s.fault := rfl
@[simp] theorem setFgWords_trace (s : State) (ws : List Word) : (s.setFgWords ws).trace = s.trace := rfl
@[simp] theorem setFgWords_fgWords (s : State) (ws : List Word) : (s.setFgWords ws).fgWords = ws := rfl
@[simp] theorem setFgWords_isrWords (s : State) (ws : List Word) : (s.setFgWords ws).isrWords = s.isrWords := rfl
@[simp] theorem setFgWords_agent (s : State) (ws : List Word) : (s.setFgWords ws).agent = s.agent := rfl
@[simp] theorem setFgWords_draw (s : State) (ws : List Word) : (s.setFgWords ws).draw = s.draw := rfl
@[simp] theorem setFgWords_inputs (s : State) (ws : List Word) : (s.setFgWords ws).inputs = s.inputs := rfl
@[simp] theorem setFgWords_tick (s : State) (ws : List Word) : (s.setFgWords ws).tick = s.tick := rfl
@[simp] theorem setFgWords_port (s : State) (ws : List Word) (q : Port) : (s.setFgWords ws).port q = s.port q := rfl
@[simp] theorem setFgWords_pin (s : State) (ws : List Word) (q : Pin) : (s.setFgWords ws).pin q = s.pin q := rfl

/-! ### setIsrWords -/

@[simp] theorem setIsrWords_platform (s : State) (p : Port) (ws : List Word) : (s.setIsrWords p ws).platform = s.platform := rfl
@[simp] theorem setIsrWords_ports (s : State) (p : Port) (ws : List Word) : (s.setIsrWords p ws).ports = s.ports := rfl
@[simp] theorem setIsrWords_mcr1 (s : State) (p : Port) (ws : List Word) : (s.setIsrWords p ws).mcr1 = s.mcr1 := rfl
@[simp] theorem setIsrWords_handler (s : State) (p : Port) (ws : List Word) : (s.setIsrWords p ws).handler = s.handler := rfl
@[simp] theorem setIsrWords_gpio (s : State) (p : Port) (ws : List Word) : (s.setIsrWords p ws).gpio = s.gpio := rfl
@[simp] theorem setIsrWords_fgStep (s : State) (p : Port) (ws : List Word) : (s.setIsrWords p ws).fgStep = s.fgStep := rfl
@[simp] theorem setIsrWords_fault (s : State) (p : Port) (ws : List Word) : (s.setIsrWords p ws).fault = s.fault := rfl
@[simp] theorem setIsrWords_trace (s : State) (p : Port) (ws : List Word) : (s.setIsrWords p ws).trace = s.trace := rfl
@[simp] theorem setIsrWords_fgWords (s : State) (p : Port) (ws : List Word) : (s.setIsrWords p ws).fgWords = s.fgWords := rfl
@[simp] theorem setIsrWords_agent (s : State) (p : Port) (ws : List Word) : (s.setIsrWords p ws).agent = s.agent := rfl
@[simp] theorem setIsrWords_draw (s : State) (p : Port) (ws : List Word) : (s.setIsrWords p ws).draw = s.draw := rfl
@[simp] theorem setIsrWords_inputs (s : State) (p : Port) (ws : List Word) : (s.setIsrWords p ws).inputs = s.inputs := rfl
@[simp] theorem setIsrWords_tick (s : State) (p : Port) (ws : List Word) : (s.setIsrWords p ws).tick = s.tick := rfl
@[simp] theorem setIsrWords_port (s : State) (p : Port) (ws : List Word) (q : Port) : (s.setIsrWords p ws).port q = s.port q := rfl
@[simp] theorem setIsrWords_pin (s : State) (p : Port) (ws : List Word) (q : Pin) : (s.setIsrWords p ws).pin q = s.pin q := rfl

/-! ### takeInput -/

@[simp] theorem takeInput_platform (s : State) : s.takeInput.platform = s.platform := rfl
@[simp] theorem takeInput_ports (s : State) : s.takeInput.ports = s.ports := rfl
@[simp] theorem takeInput_mcr1 (s : State) : s.takeInput.mcr1 = s.mcr1 := rfl
@[simp] theorem takeInput_handler (s : State) : s.takeInput.handler = s.handler := rfl
@[simp] theorem takeInput_gpio (s : State) : s.takeInput.gpio = s.gpio := rfl
@[simp] theorem takeInput_fgStep (s : State) : s.takeInput.fgStep = s.fgStep := rfl
@[simp] theorem takeInput_fault (s : State) : s.takeInput.fault = s.fault := rfl
@[simp] theorem takeInput_trace (s : State) : s.takeInput.trace = s.trace := rfl
@[simp] theorem takeInput_fgWords (s : State) : s.takeInput.fgWords = s.fgWords := rfl
@[simp] theorem takeInput_isrWords (s : State) : s.takeInput.isrWords = s.isrWords := rfl
@[simp] theorem takeInput_agent (s : State) : s.takeInput.agent = s.agent := rfl
@[simp] theorem takeInput_draw (s : State) : s.takeInput.draw = s.nextInput.draws := rfl
@[simp] theorem takeInput_inputs (s : State) : s.takeInput.inputs = s.inputs.tail := rfl
@[simp] theorem takeInput_tick (s : State) : s.takeInput.tick = s.tick + 1 := rfl
@[simp] theorem takeInput_port (s : State) (q : Port) : s.takeInput.port q = s.port q := rfl
@[simp] theorem takeInput_pin (s : State) (q : Pin) : s.takeInput.pin q = s.pin q := rfl

/-! ### A port's row after an update of a port's row -/

@[simp] theorem modPort_port_same (s : State) (p : Port) (f : PortState → PortState) :
    (s.modPort p f).port p = f (s.port p) := by
  simp [State.port, State.modPort]

@[simp] theorem modPort_port_ne (s : State) (p q : Port) (f : PortState → PortState) (h : q ≠ p) :
    (s.modPort p f).port q = s.port q := by
  have h' : p.val ≠ q.val := fun e => h (Fin.ext e.symm)
  simp [State.port, State.modPort, h']

theorem modPort_port (s : State) (p q : Port) (f : PortState → PortState) :
    (s.modPort p f).port q = if q = p then f (s.port p) else s.port q := by
  split
  · next h => subst h; exact modPort_port_same s q f
  · next h => exact modPort_port_ne s p q f h

@[simp] theorem setIsrWords_same (s : State) (p : Port) (ws : List Word) :
    (s.setIsrWords p ws).isrWordsOf p = ws := by
  simp [State.isrWordsOf, State.setIsrWords]

theorem setIsrWords_ne (s : State) (p q : Port) (ws : List Word) (h : q ≠ p) :
    (s.setIsrWords p ws).isrWordsOf q = s.isrWordsOf q := by
  have h' : p.val ≠ q.val := fun e => h (Fin.ext e.symm)
  simp [State.isrWordsOf, State.setIsrWords, h']

/-! ### Updates of one port and of the trace compose -/

@[simp] theorem emit_emit (s : State) (xs ys : List Event) : (s.emit xs).emit ys = s.emit (xs ++ ys) := by
  simp [State.emit]

@[simp] theorem emit_modPort (s : State) (xs : List Event) (p : Port) (f : PortState → PortState) :
    (s.emit xs).modPort p f = (s.modPort p f).emit xs := rfl

@[simp] theorem modPort_modPort (s : State) (p : Port) (f g : PortState → PortState) :
    (s.modPort p f).modPort p g = s.modPort p fun q => g (f q) := by
  simp [State.modPort, State.port]

@[simp] theorem emit_nil (s : State) : s.emit [] = s := by simp [State.emit]

theorem modPort_congr (s : State) (p : Port) (f g : PortState → PortState) (h : f (s.port p) = g (s.port p)) :
    s.modPort p f = s.modPort p g := by
  simp [State.modPort, h]

theorem modPort_eq_self (s : State) (p : Port) (f : PortState → PortState) (h : f (s.port p) = s.port p) :
    s.modPort p f = s := by
  unfold State.modPort
  rw [h]
  simp [State.port]

@[simp] theorem modPort_id (s : State) (p : Port) : (s.modPort p fun q => q) = s := modPort_eq_self s p _ rfl

/-! ### The handler slot, directions -/

@[simp] theorem handlerOf_emit (s : State) (es : List Event) (p : Port) : (s.emit es).handlerOf p = s.handlerOf p := rfl

@[simp] theorem setHandler_platform (s : State) (p : Port) (h : HandlerToken) :
    (s.setHandler p h).platform = s.platform := by
  unfold State.setHandler; cases s.platform.handlerSlots <;> rfl

/-- After the slot of port `p` is written, `handler_of(p)` is the token. -/
theorem setHandler_handlerOf (s : State) (p : Port) (h : HandlerToken) : (s.setHandler p h).handlerOf p = some h := by
  have hp := setHandler_platform s p h
  unfold State.handlerOf
  rw [hp]
  unfold State.setHandler
  cases s.platform.handlerSlots <;> simp

@[simp] theorem perDir_get_set_same (f : PerDir) (d : Dir) (b : Bool) : (f.set d b).get d = b := by
  cases d <;> rfl

@[simp] theorem perDir_get_set_other (f : PerDir) (d : Dir) (b : Bool) :
    (f.set d b).get (otherDir d) = f.get (otherDir d) := by
  cases d <;> rfl

end Sys2Proof.Machine
end

