-- ==== Sys2Proof/Laws/Ops.lean ====
section
/-! SUPPORT. One specification lemma per shared operation: what it does to its port's row and to the
trace, in the form `(s.modPort p f).emit events`, which the proofs cite instead of unfolding it. -/

namespace Sys2Proof.Machine

/-! ### Register accesses -/

theorem writeLcr_eq (s : State) (p : Port) (v : Byte) :
    s.writeLcr p v = (s.modPort p fun q => { q with lcr := v }).emit [.regWrite p (.lcr v)] := rfl

theorem setLcrBit_eq (s : State) (p : Port) (n : Nat) (b : Bool) :
    s.setLcrBit p n b =
      (s.modPort p fun q => { q with lcr := withBit q.lcr n b }).emit
        [.regRead p (.lcr (s.port p).lcr), .regWrite p (.lcr (withBit (s.port p).lcr n b))] := by
  simp only [State.setLcrBit, State.writeLcr, emit_modPort, emit_emit, List.cons_append, List.nil_append]
  rw [modPort_congr s p _ (fun q => { q with lcr := withBit q.lcr n b }) rfl]

theorem setIerBit_eq (s : State) (p : Port) (d : Dir) (b : Bool) :
    s.setIerBit p d b =
      (s.modPort p fun q => { q with ier := { q.ier with en := q.ier.en.set d b } }).emit
        [.regRead p (.ier (s.port p).ier),
         .regWrite p (.ier { (s.port p).ier with en := (s.port p).ier.en.set d b })] := by
  simp only [State.setIerBit]
  rw [modPort_congr s p _ (fun q => { q with ier := { q.ier with en := q.ier.en.set d b } }) rfl]

theorem writeFcr_eq (s : State) (p : Port) (v : Fcr) :
    s.writeFcr p v =
      (s.modPort p fun q =>
        { q with
          fifoEn := if v.fifoEn then .on else .off
          rxTrigger := if v.rxTrigger = s.platform.rxTriggerOne then .one else .unknown }).emit
        [.regWrite p (.fcr v)] := rfl

theorem resetFifos_eq (s : State) (p : Port) (tx : Bool) :
    s.resetFifos p tx =
      (s.modPort p fun q => { q with fifoEn := .on, rxTrigger := .one }).emit
        [.regWrite p (.fcr ⟨true, true, tx, s.platform.rxTriggerOne, s.draw.fcrRest⟩)] := by
  simp [State.resetFifos, writeFcr_eq]

/-- A field write of one bit leaves every other bit of LCR. -/
theorem withBit_getLsbD (v : Byte) (n k : Nat) (b : Bool) (hk : k < 8) :
    (withBit v n b).getLsbD k = if k = n then b else v.getLsbD k := by
  unfold withBit
  by_cases h : k = n
  · subst h
    cases b <;> simp [hk]
  · rcases Nat.lt_or_gt_of_ne h with h' | h'
    · cases b <;> simp [hk, h, h']
    · have : k - n ≠ 0 := by omega
      have : ¬ k < n := by omega
      cases b <;> simp [hk, h, this] <;> (intros; omega)

/-! ### The arbiter (R114, R115, R116) -/

theorem enableLine_eq (s : State) (p : Port) (d : Dir) :
    s.enableLine p d =
      (s.modPort p fun q =>
        { q with ier := { q.ier with en := q.ier.en.set d true }, vec := true, nvicEn := true }).emit
        [.regRead p (.ier (s.port p).ier),
         .regWrite p (.ier { (s.port p).ier with en := (s.port p).ier.en.set d true }),
         .nvicSetVector p, .nvicEnable p] := by
  simp [State.enableLine, setIerBit_eq, State.nvicSetVector, State.nvicEnable]

theorem disableLine_eq (s : State) (p : Port) (d : Dir) :
    s.disableLine p d =
      if (s.port p).ier.en.get (otherDir d) then
        (s.modPort p fun q => { q with ier := { q.ier with en := q.ier.en.set d false } }).emit
          [.regRead p (.ier (s.port p).ier),
           .regWrite p (.ier { (s.port p).ier with en := (s.port p).ier.en.set d false })]
      else
        (s.modPort p fun q =>
          { q with ier := { q.ier with en := q.ier.en.set d false }, nvicEn := false }).emit
          [.regRead p (.ier (s.port p).ier),
           .regWrite p (.ier { (s.port p).ier with en := (s.port p).ier.en.set d false }),
           .nvicDisable p] := by
  simp [State.disableLine, setIerBit_eq, State.nvicDisable]

/-- The three branches of the applicator (R113). -/
theorem applyRequest_cases (s : State) (p : Port) (d : Dir) (en : Bool) :
    (en = true ∧ s.applyRequest p d en = s.enableLine p d) ∨
    (en = false ∧ s.requested p d = false ∧ s.applyRequest p d en = s.disableLine p d) ∨
    (en = false ∧ s.requested p d = true ∧ s.applyRequest p d en = s) := by
  cases en
  · cases h : s.requested p d <;> simp [State.applyRequest, h]
  · simp [State.applyRequest]

/-! ### The writable predicate's evaluation (R130, R131) -/

/-- The reads one evaluation of Writable makes (R130): CTS if software CTS is in effect, then LSR
unless CTS says stop. -/
abbrev writableReads (s : State) (p : Port) : List Event :=
  (if s.softCts p then [.gpioRead (s.port p).swCts s.draw.cts] else []) ++
    if s.ctsStops p then [] else [.regRead p (.lsr s.draw.lsr)]

/-- One evaluation of Writable touches only the count of its port and the trace. -/
theorem evalWritable_eq (s : State) (p : Port) :
    s.evalWritable p =
      (s.modPort p fun q =>
        { q with txCount := if s.ctsStops p = false ∧ s.txeSeen = true then 0 else q.txCount }).emit
        (writableReads s p) := by
  unfold State.evalWritable
  cases hc : s.ctsStops p <;> cases ht : s.txeSeen <;> cases hs : s.softCts p <;>
    simp [State.gpioRead, State.readLsr, writableReads, hc, hs]

/-! ### Divisor programming (R104) -/

theorem programDivisor_eq (s : State) (p : Port) (dl dav mv : Nat) :
    s.programDivisor p dl dav mv =
      (s.modPort p fun q =>
        { q with
          lcr := withBit (withBit q.lcr bitDlab true) bitDlab false
          dlm := BitVec.ofNat 8 (dl / 256)
          dll := BitVec.ofNat 8 dl
          fdr := fdrOf dav mv }).emit
        [.regRead p (.lcr (s.port p).lcr),
         .regWrite p (.lcr (withBit (s.port p).lcr bitDlab true)),
         .regWrite p (.dlm (BitVec.ofNat 8 (dl / 256))),
         .regWrite p (.dll (BitVec.ofNat 8 dl)),
         .regWrite p (.fdr (fdrOf dav mv)),
         .regRead p (.lcr (withBit (s.port p).lcr bitDlab true)),
         .regWrite p (.lcr (withBit (withBit (s.port p).lcr bitDlab true) bitDlab false))] := by
  simp [State.programDivisor, setLcrBit_eq, State.writeDlm, State.writeDll, State.writeFdr]

/-! ### The checks before a command (R170) -/

/-- What CommonChecks answers, once for all commands. -/
theorem checked_cases (s : State) (op : Op) (port : PortField) (body : Port → State) :
    (mayPresent s.agent op = false ∧ s.checked op port body = s.raise .contextViolation op.code port) ∨
    (mayPresent s.agent op = true ∧ portOf port = none ∧
      s.checked op port body = s.raise (.configurationError .port) op.code port) ∨
    (∃ p, mayPresent s.agent op = true ∧ portOf port = some p ∧ (s.port p).initialized = false ∧
      s.checked op port body = s.raise .notInitialized op.code port) ∨
    (∃ p, mayPresent s.agent op = true ∧ portOf port = some p ∧ (s.port p).initialized = true ∧
      s.checked op port body = body p) := by
  cases hm : mayPresent s.agent op
  · exact .inl ⟨rfl, by simp [State.checked, State.commonChecks, hm]⟩
  · cases hp : portOf port with
    | none => exact .inr (.inl ⟨rfl, rfl, by simp [State.checked, State.commonChecks, hm, hp]⟩)
    | some p =>
      cases hi : (s.port p).initialized
      · exact .inr (.inr (.inl ⟨p, rfl, rfl, hi, by simp [State.checked, State.commonChecks, hm, hp, hi]⟩))
      · exact .inr (.inr (.inr ⟨p, rfl, rfl, hi, by simp [State.checked, State.commonChecks, hm, hp, hi]⟩))

/-- A command that passes CommonChecks runs its body. -/
theorem checked_ok (s : State) (op : Op) (port : PortField) (body : Port → State) (p : Port)
    (hm : mayPresent s.agent op = true) (hp : portOf port = some p) (hi : (s.port p).initialized = true) :
    s.checked op port body = body p := by
  simp [State.checked, State.commonChecks, hm, hp, hi]

/-- The port a field names is the one with its number. -/
theorem portOf_eq_some (f : PortField) (p : Port) : portOf f = some p ↔ f.toNat = p.val := by
  unfold portOf
  constructor
  · intro h
    split at h
    · simp at h; subst h; rfl
    · simp at h
  · intro h
    have hlt : f.toNat < 4 := by omega
    simp [hlt]
    exact Fin.ext h

/-- A field of 4..7 names no port. -/
theorem portOf_eq_none (f : PortField) : portOf f = none ↔ 4 ≤ f.toNat := by
  unfold portOf
  split <;> simp <;> omega

/-- A port's own field names it. -/
@[simp] theorem portOf_fieldOfPort (p : Port) : portOf (fieldOfPort p) = some p := by
  revert p; decide

end Sys2Proof.Machine
end

