-- ==== Sys2Proof/Laws/Control.lean ====
section
/-! SUPPORT. What the holds, the interrupt entry, the flow sequence and the checks before a command do,
each said once, and that every command answers a next state. -/

namespace Sys2Proof.Machine

/-! ### Commands -/

/-- Every command answers a next state: a fault it raises is recorded in that state (log 4). -/
theorem exec_next (i : Instr) (s : State) : ∃ t, exec i s = .next t := by cases i <;> exact ⟨_, rfl⟩

/-- A command that FG presents on an initialised port runs its body. -/
theorem checked_fg (s : State) (op : Op) (port : PortField) (p : Port) (body : Port → State) (hop : op ≠ .irqEntry)
    (ha : s.agent = .fg) (hp : port.toNat = p.val) (hi : (s.port p).initialized = true) :
    s.checked op port body = body p :=
  checked_ok s op port body p (by simp [mayPresent, ha, hop]) ((portOf_eq_some _ _).2 hp) hi

/-- READABLE or WRITABLE, presented by FG or a handler on an initialised port, runs its body. -/
theorem checked_poll (s : State) (op : Op) (port : PortField) (p : Port) (body : Port → State)
    (hop : op = .readable ∨ op = .writable) (ha : s.agent = .fg ∨ ∃ q, s.agent = .isr q)
    (hp : port.toNat = p.val) (hi : (s.port p).initialized = true) : s.checked op port body = body p :=
  checked_ok s op port body p
    (by rcases ha with ha | ⟨q, ha⟩ <;> rcases hop with h | h <;> simp [mayPresent, ha, h])
    ((portOf_eq_some _ _).2 hp) hi

/-! ### GPIO -/

/-- A pin after another is recorded. -/
theorem setPin_pin (s : State) (h : Gpio.wf s.gpio) (k j : Pin) (v : GpioPin) :
    (s.setPin k v).pin j = if k = j then v else s.pin j := by
  unfold State.pin State.setPin
  simp only
  rw [gpioGet_gpioSet _ _ _ _ h.1]
  by_cases hk : k = j
  · simp [hk]
  · rw [if_neg hk, if_neg fun e => hk (BitVec.eq_of_toNat_eq e)]

/-- GpioWrite: the level of the pin, and nothing else of the record (R38). -/
theorem gpioWrite_pin (s : State) (h : Gpio.wf s.gpio) (k j : Pin) (b : Bool) :
    (s.gpioWrite k b).pin j = if k = j then ⟨(s.pin k).dir, if b then .high else .low⟩ else s.pin j :=
  setPin_pin s h k j _

/-- GpioInit: the direction of the pin, and an unknown level for an output (R38). -/
theorem gpioInit_pin (s : State) (h : Gpio.wf s.gpio) (k j : Pin) (dir : GpioDir) :
    (s.gpioInit k dir).pin j = if k = j then ⟨dir, if dir = .output then .unknown else (s.pin k).out⟩ else s.pin j :=
  setPin_pin s h k j _

/-! ### The holds (R136-R138) -/

/-- When Writable says yes (R130). -/
theorem writable_iff (s : State) (p : Port) :
    s.writable p = true ↔ s.ctsStops p = false ∧ (s.txeSeen = true ∨ (s.port p).txCount.toNat < 16) := by
  unfold State.writable
  cases s.ctsStops p <;> cases s.txeSeen <;> simp [Config.txFifoDepth]
  exact decide_eq_true_iff

/-- When software CTS says stop (R130). -/
theorem ctsStops_eq_false (s : State) (p : Port) :
    s.ctsStops p = false ↔ (s.port p).swCts = NC ∨ s.draw.cts = false := by
  simp [State.ctsStops, State.softCts]
  exact Decidable.imp_iff_not_or.trans (by simp)

/-- The step that lifts PUTC's hold (R137). -/
theorem sendByte_eq (s : State) (p : Port) (b : Byte) :
    s.sendByte p b =
      ((s.modPort p fun q =>
        { q with txCount := (if s.ctsStops p = false ∧ s.txeSeen = true then 0 else q.txCount) + 1 }).emit
        (writableReads s p ++ [.regWrite p (.thr b)])).setFgStep .idle := by
  unfold State.sendByte
  rw [evalWritable_eq]
  simp [State.writeThr]

/-- GETC's micro-step A: the LSR read, and under software RTS the pin driven low (R138, R139). -/
theorem acceptByte_cases (s : State) (p : Port) :
    ((s.port p).swRts = NC ∧
      s.acceptByte p = (s.emit [.regRead p (.lsr s.draw.lsr)]).setFgStep (.getcB p)) ∨
    ((s.port p).swRts ≠ NC ∧ s.acceptByte p =
      ((s.emit [.regRead p (.lsr s.draw.lsr)]).gpioWrite (s.port p).swRts false).setFgStep (.getcB p)) := by
  by_cases h : (s.port p).swRts = NC
  · exact .inl ⟨h, by simp [State.acceptByte, State.readLsr, State.softRts, h]⟩
  · exact .inr ⟨h, by simp [State.acceptByte, State.readLsr, State.softRts, h]⟩

/-! ### Interrupt entry (R125-R128) -/

/-- The handler call, if there is one. -/
theorem callHandler_cases (s : State) (p : Port) (ev : Dir) :
    ((s.port p).cbId = 0 ∧ s.callHandler p ev = s) ∨
    ((s.port p).cbId ≠ 0 ∧ s.callHandler p ev =
      (s.modPort p fun q => { q with isrStep := .inHandler }).emit [.handler (s.handlerOf p) (s.port p).cbId ev]) := by
  unfold State.callHandler
  split
  · next h => exact .inl ⟨h, rfl⟩
  · next h => exact .inr ⟨h, rfl⟩

/-- The three things an interrupt entry can do (R126). -/
theorem enterIsr_cases (s : State) (p : Port) :
    (eventOf s.draw.iir = none ∧ s.enterIsr p = s.readIir p) ∨
    (eventOf s.draw.iir = some .tx ∧ s.enterIsr p = (s.readIir p).callHandler p .tx) ∨
    (eventOf s.draw.iir = some .rx ∧ s.enterIsr p = ((s.readIir p).raiseRts p .rx).callHandler p .rx) := by
  unfold State.enterIsr
  cases h : eventOf s.draw.iir with
  | none => exact .inl ⟨rfl, rfl⟩
  | some d => cases d <;> simp [State.raiseRts]

/-- The RTS pin at an RX entry: driven high exactly under software RTS (R18, R127). -/
theorem raiseRts_cases (s : State) (p : Port) :
    ((s.port p).swRts = NC ∧ s.raiseRts p .rx = s) ∨
    ((s.port p).swRts ≠ NC ∧ s.raiseRts p .rx = s.gpioWrite (s.port p).swRts true) := by
  by_cases h : (s.port p).swRts = NC <;> simp [State.raiseRts, State.softRts, h]

/-! ### The flow sequence (R144-R149) -/

/-- AutoPin (R142). -/
theorem autoPin_iff (plat : Platform) (p : Port) (pin : Pin) (sig : Signal) :
    autoPin plat p pin sig = true ↔ p = 1 ∧ pinmap plat pin sig = some 1 := by
  simp [autoPin, Config.autoFlowPort]

/-- The modes that include CTS (R81). -/
theorem includesCts_iff (m : FlowMode) : includesCts m = true ↔ m = .cts ∨ m = .rtsCts := by cases m <;> decide

/-- The modes that include RTS (R81). -/
theorem includesRts_iff (m : FlowMode) : includesRts m = true ↔ m = .rts ∨ m = .rtsCts := by cases m <;> decide

/-- Step 1, on every port (R144). -/
theorem flowStep1_eq (s : State) (r : FlowRequest) :
    s.flowStep1 r = { s with
      fgStep := .sfc2 r
      mcr1 := if r.port = 1 then { s.mcr1 with autoRts := false, autoCts := false } else s.mcr1
      trace := s.trace ++ if r.port = 1 then
        [.regRead 1 (.mcr s.mcr1), .regWrite 1 (.mcr { s.mcr1 with autoRts := false, autoCts := false })] else [] } := by
  unfold State.flowStep1
  rw [show Config.autoFlowPort = (1 : Port) from rfl]
  by_cases h : r.port = 1
  · simp only [h, if_true]; rfl
  · simp only [h, if_false, List.append_nil]; rfl

/-- What a flow request leaves of its own port: the slot it wrote, and the fields it does not touch. -/
theorem requestFlow_port (s : State) (p : Port) (d : Dir) (en : Bool) :
    ((s.requestFlow p d en).port p).irqFlow = (s.port p).irqFlow.set d en ∧
    ((s.requestFlow p d en).port p).initialized = (s.port p).initialized ∧
    ((s.requestFlow p d en).port p).swRts = (s.port p).swRts ∧ (s.requestFlow p d en).fgStep = s.fgStep := by
  unfold State.requestFlow
  rcases applyRequest_cases (s.modPort p fun q => { q with irqFlow := q.irqFlow.set d en }) p d en with
    ⟨-, h⟩ | ⟨-, -, h⟩ | ⟨-, -, h⟩
  · rw [h, enableLine_eq]; simp
  · rw [h, disableLine_eq]; split <;> simp
  · rw [h]; simp

/-- A flow request does not look at who presents it: what moved before the flow step does not matter (R145,
R151). -/
theorem requestFlow_presentedBy (s : State) (a : Agent) (p : Port) (d : Dir) (en : Bool) :
    (s.presentedBy a).requestFlow p d en = (s.requestFlow p d en).presentedBy a := by
  unfold State.requestFlow State.applyRequest
  cases en
  · simp only [Bool.false_eq_true, if_false, apply_ite (State.presentedBy · a), State.disableLine]
    rfl
  · rfl

end Sys2Proof.Machine
end

