-- ==== Sys2Proof/Laws/Decode.lean ====
section
/-! SUPPORT. The fields of a command word (30_encoding.md R69-R82): what the encoder puts into one, and
what the decoder reads from it. -/

namespace Sys2Proof

/-! ### Fields of a concatenation -/

/-- A field that lies in the low part. -/
theorem extract_append_low {a b : Nat} (x : BitVec a) (y : BitVec b) (k n : Nat) (h : k + n ≤ b) :
    (x ++ y).extractLsb' k n = y.extractLsb' k n := by
  apply BitVec.eq_of_getLsbD_eq
  intro i hi
  have : k + i < b := by omega
  simp [BitVec.getLsbD_append, hi, this]

/-- A field that lies in the high part. -/
theorem extract_append_high {a b : Nat} (x : BitVec a) (y : BitVec b) (k n : Nat) (h : b ≤ k) :
    (x ++ y).extractLsb' k n = x.extractLsb' (k - b) n := by
  apply BitVec.eq_of_getLsbD_eq
  intro i hi
  have h1 : ¬ k + i < b := by omega
  have h2 : k + i - b = k - b + i := by omega
  simp [BitVec.getLsbD_append, hi, h1, h2]

/-! ### The command word -/

@[simp] theorem opField_commandWord (op : Op) (p : PortField) (o : BitVec 24) :
    opField (commandWord op p o) = op.code := by
  unfold opField commandWord
  rw [extract_append_high _ _ _ _ (by omega), extract_append_high _ _ _ _ (by omega)]
  simp

@[simp] theorem portField_commandWord (op : Op) (p : PortField) (o : BitVec 24) :
    portField (commandWord op p o) = p := by
  unfold portField commandWord
  rw [extract_append_high _ _ _ _ (by omega), extract_append_low _ _ _ _ (by omega)]
  simp

/-- A field of OPND. -/
theorem extract_commandWord (op : Op) (p : PortField) (o : BitVec 24) (k n : Nat) (h : k + n ≤ 24) :
    (commandWord op p o).extractLsb' k n = o.extractLsb' k n :=
  extract_append_low _ _ _ _ h

/-- A bit of OPND. -/
theorem getLsbD_commandWord (op : Op) (p : PortField) (o : BitVec 24) (k : Nat) (h : k < 24) :
    (commandWord op p o).getLsbD k = o.getLsbD k := by
  unfold commandWord
  rw [BitVec.getLsbD_append, if_pos h]

/-- Every opcode's number names it. -/
@[simp] theorem ofCode_code (op : Op) : Op.ofCode op.code = some op := by cases op <;> decide

/-- Only an opcode's own number names it. -/
theorem code_of_ofCode (c : BitVec 5) (op : Op) (h : Op.ofCode c = some op) : c = op.code := by
  have all : ∀ c : BitVec 5, ∀ o ∈ Op.ofCode c, c = o.code := by decide
  exact all c op h

/-- The numbers that name no opcode (R82). -/
theorem ofCode_eq_none (c : BitVec 5) : Op.ofCode c = none ↔ c.toNat = 0 ∨ 0x11 ≤ c.toNat := by
  revert c; decide

@[simp] theorem assemble_op (op : Op) (c a : Word) : (assemble op c a).op = op := by cases op <;> rfl

/-- The rows of the opcode map give each opcode's length (R78). -/
theorem opcodeMap_words : ∀ row ∈ opcodeMap, row.words = if row.op.hasArg then 2 else 1 := by decide

/-- Every opcode has a row (R80). -/
theorem opcodeMap_complete (op : Op) : ∃ row ∈ opcodeMap, row.op = op := by cases op <;> decide

/-- Two rows that a word selects are one row: no two rows of R80 overlap. -/
theorem opcodeMap_disjoint :
    opcodeMap.Pairwise fun r t => (r.pattern ^^^ t.pattern) &&& (r.mask &&& t.mask) ≠ 0 := by decide

@[simp] theorem ofBit_bit (d : Dir) : Dir.ofBit d.bit = d := by cases d <;> rfl

@[simp] theorem ofCode_flowCode (m : FlowMode) : FlowMode.ofCode m.code = m := by cases m <;> rfl

@[simp] theorem code_ofFlowCode (c : BitVec 2) : (FlowMode.ofCode c).code = c := by revert c; decide

end Sys2Proof
end

