-- ==== Sys2Proof/Laws/Divisor.lean ====
section
/-! SUPPORT. The range of the clock, the candidates of the divisor search, what the search returns, and
the packing of the fractional divider (00_scope.md R8, 40_divisor.md R94-R99, 20_memory.md R54). -/

namespace Sys2Proof

/-- The range of PCLK_HZ (R8). -/
theorem Platform.pclkHz_range (plat : Platform) : 1 ≤ plat.pclkHz ∧ plat.pclkHz ≤ 2 ^ 32 - 1 := by
  unfold Platform.pclkHz
  omega

end Sys2Proof

namespace Sys2Proof.Machine

/-- The candidates of one dl (R94, R95). -/
theorem mem_candidates (dl : Nat) (t : Triple) :
    t ∈ candidates dl ↔ dl ≠ 0 ∧ t.dl = dl ∧ 1 ≤ t.mv ∧ t.mv ≤ 15 ∧ 1 ≤ t.dav ∧ t.dav < t.mv := by
  unfold candidates
  split
  · simp [*]
  · simp only [List.mem_flatMap, List.mem_map, List.mem_range'_1]
    constructor
    · rintro ⟨mv, h1, dav, h2, rfl⟩
      simp
      omega
    · rintro ⟨-, h1, h2⟩
      exact ⟨t.mv, by omega, t.dav, by omega, by cases t; simp at *; omega⟩

/-- All candidates (R94, R95). -/
theorem mem_searchSpace (dl0 : Nat) (t : Triple) :
    t ∈ searchSpace dl0 ↔
      t.dl ≠ 0 ∧ dl0 / 2 ≤ t.dl ∧ t.dl ≤ dl0 ∧ 1 ≤ t.mv ∧ t.mv ≤ 15 ∧ 1 ≤ t.dav ∧ t.dav < t.mv := by
  unfold searchSpace
  simp only [List.mem_flatMap, mem_candidates, List.mem_range'_1]
  constructor
  · rintro ⟨a, h, h1, h2, h3⟩
    omega
  · intro h
    exact ⟨t.dl, by omega, by omega, rfl, by omega⟩

/-- A search returns one of the candidates it was given, or the best it started from. -/
theorem search_mem (err : Triple → Frac) (threshold : Frac) (l : List Triple) (best : Option Best) (t : Triple)
    (h : search err threshold l best = some t) : t ∈ l ∨ ∃ b, best = some b ∧ b.triple = t := by
  induction l generalizing best with
  | nil => cases best <;> simp [search] at h; exact .inr ⟨_, rfl, h⟩
  | cons a l ih =>
    simp only [search] at h
    split at h
    · split at h
      · simp at h; subst h; simp
      · rcases ih _ h with h | ⟨b, hb, ht⟩
        · simp [h]
        · simp at hb; subst hb; simp at ht; simp [ht]
    · rcases ih _ h with h | h
      · simp [h]
      · exact .inr h

/-- A search with a candidate or a best to start from returns one (R98). -/
theorem search_ne_none (err : Triple → Frac) (threshold : Frac) (l : List Triple) (best : Option Best)
    (h : best ≠ none ∨ l ≠ []) : search err threshold l best ≠ none := by
  induction l generalizing best with
  | nil => cases best <;> simp_all [search]
  | cons a l ih =>
    simp only [search]
    split
    · split
      · simp
      · exact ih _ (by simp)
    · next hi =>
      refine ih _ (.inl fun hb => ?_)
      simp [hb, improves] at hi

/-- FDR's two nibbles by value (R54). -/
theorem fdrOf_eq (dav mv : Nat) (hd : dav < 16) (hm : mv < 16) : fdrOf dav mv = BitVec.ofNat 8 (16 * mv + dav) := by
  have all : ∀ a b : Fin 16, fdrOf a b = BitVec.ofNat 8 (16 * b.val + a.val) := by decide
  exact all ⟨dav, hd⟩ ⟨mv, hm⟩

/-- The low byte of the divisor, by value (R53). -/
theorem dll_eq (dl : Nat) : BitVec.ofNat 8 (dl % 256) = BitVec.ofNat 8 dl := by
  apply BitVec.eq_of_toNat_eq
  simp

/-- Setting DLAB, and setting then clearing it (R104, R105). -/
theorem withBit_dlab (v : Byte) :
    withBit v bitDlab true = v ||| 0x80 ∧ withBit (withBit v bitDlab true) bitDlab false = v &&& 0x7F := by
  revert v; decide

end Sys2Proof.Machine
end

