-- ==== Sys2Proof/Laws/PerInstr.lean ====
section
/-! SUPPORT. One family over all commands: what the encoder writes for each of them. The command word
carries the command's opcode and port, every must-be-0 bit of its format is 0, and there is an ARG word
exactly for the two-word commands (30_encoding.md R69-R78, R82). -/

namespace Sys2Proof.Laws.EncodedWords

/-- The words of `i` are a command word with its opcode, its port and clear reserved bits, and its ARG. -/
def Statement (i : Instr) : Prop :=
  ∃ (c : Word) (args : List Word), encode i = c :: args ∧ opField c = i.op.code ∧ portField c = i.portField ∧
    reservedBitsOk i.op c = true ∧ args.length = if i.op.hasArg then 1 else 0

/-- An operand field of all zeros has every reserved bit clear. -/
theorem zero_operands (op : Op) (p : PortField) (k n : Nat) (h : k + n ≤ 24) :
    ((commandWord op p 0).extractLsb' k n == 0) = true := by
  rw [extract_commandWord op p 0 k n h]
  simp

theorem baud (p : PortField) (r : Word) : Statement (.baud p r) :=
  ⟨_, _, rfl, opField_commandWord _ _ _, portField_commandWord _ _ _, zero_operands _ _ _ _ (by omega), rfl⟩

theorem format (p : PortField) (b : BitVec 4) (par : BitVec 3) (st : BitVec 2) : Statement (.format p b par st) := by
  refine ⟨_, _, rfl, opField_commandWord _ _ _, portField_commandWord _ _ _, ?_, rfl⟩
  simp only [reservedBitsOk, Instr.op]
  rw [extract_commandWord _ _ _ _ _ (by omega), getLsbD_commandWord _ _ _ _ (by omega),
    extract_append_high _ _ _ _ (by omega), extract_append_high _ _ _ _ (by omega),
    extract_append_high _ _ _ _ (by omega), extract_append_high _ _ _ _ (by omega)]
  simp only [BitVec.getLsbD_append]
  rfl

theorem breakSet (p : PortField) : Statement (.breakSet p) :=
  ⟨_, _, rfl, opField_commandWord _ _ _, portField_commandWord _ _ _, zero_operands _ _ _ _ (by omega), rfl⟩

theorem breakClear (p : PortField) : Statement (.breakClear p) :=
  ⟨_, _, rfl, opField_commandWord _ _ _, portField_commandWord _ _ _, zero_operands _ _ _ _ (by omega), rfl⟩

theorem irqSet (p : PortField) (d : Dir) (en : Bool) : Statement (.irqSet p d en) := by
  refine ⟨_, _, rfl, opField_commandWord _ _ _, portField_commandWord _ _ _, ?_, rfl⟩
  simp only [reservedBitsOk, Instr.op]
  rw [extract_commandWord _ _ _ _ _ (by omega), extract_commandWord _ _ _ _ _ (by omega)]
  cases d <;> cases en <;> decide

theorem flowIrqSet (p : PortField) (d : Dir) (en : Bool) : Statement (.flowIrqSet p d en) := by
  refine ⟨_, _, rfl, opField_commandWord _ _ _, portField_commandWord _ _ _, ?_, rfl⟩
  simp only [reservedBitsOk, Instr.op]
  rw [extract_commandWord _ _ _ _ _ (by omega), extract_commandWord _ _ _ _ _ (by omega)]
  cases d <;> cases en <;> decide

theorem irqHandler (p : PortField) (h : HandlerToken) (id : Word) : Statement (.irqHandler p h id) :=
  ⟨_, _, rfl, opField_commandWord _ _ _, portField_commandWord _ _ _, rfl, rfl⟩

theorem irqEntry (p : PortField) : Statement (.irqEntry p) :=
  ⟨_, _, rfl, opField_commandWord _ _ _, portField_commandWord _ _ _, zero_operands _ _ _ _ (by omega), rfl⟩

theorem readable (p : PortField) : Statement (.readable p) :=
  ⟨_, _, rfl, opField_commandWord _ _ _, portField_commandWord _ _ _, zero_operands _ _ _ _ (by omega), rfl⟩

theorem writable (p : PortField) : Statement (.writable p) :=
  ⟨_, _, rfl, opField_commandWord _ _ _, portField_commandWord _ _ _, zero_operands _ _ _ _ (by omega), rfl⟩

theorem getc (p : PortField) : Statement (.getc p) :=
  ⟨_, _, rfl, opField_commandWord _ _ _, portField_commandWord _ _ _, zero_operands _ _ _ _ (by omega), rfl⟩

theorem putc (p : PortField) (b : Byte) : Statement (.putc p b) := by
  refine ⟨_, _, rfl, opField_commandWord _ _ _, portField_commandWord _ _ _, ?_, rfl⟩
  simp only [reservedBitsOk, Instr.op]
  rw [extract_commandWord _ _ _ _ _ (by omega), extract_append_high _ _ _ _ (by omega)]
  decide

theorem setFlowControl (p : PortField) (m : FlowMode) (rx tx : Pin) : Statement (.setFlowControl p m rx tx) := by
  refine ⟨_, _, rfl, opField_commandWord _ _ _, portField_commandWord _ _ _, ?_, rfl⟩
  simp only [reservedBitsOk, Instr.op]
  rw [extract_commandWord _ _ _ _ _ (by omega), extract_append_high _ _ _ _ (by omega)]
  decide

theorem init (tx rx : Pin) : Statement (.init tx rx) :=
  ⟨_, _, rfl, opField_commandWord _ _ _, portField_commandWord _ _ _, (rfl : reservedBitsOk .init (commandWord .init 0 0) = true), rfl⟩

theorem free (p : PortField) : Statement (.free p) :=
  ⟨_, _, rfl, opField_commandWord _ _ _, portField_commandWord _ _ _, zero_operands _ _ _ _ (by omega), rfl⟩

theorem clear (p : PortField) : Statement (.clear p) :=
  ⟨_, _, rfl, opField_commandWord _ _ _, portField_commandWord _ _ _, zero_operands _ _ _ _ (by omega), rfl⟩

end Sys2Proof.Laws.EncodedWords
end

