-- ==== Sys2Proof/Tests/Slice0.lean ====
section
/-! SUPPORT. Tests, each of one decode or one step, and a witness for every statement with hypotheses.
Expected results are those of 95_test_vectors.md (named by vector) or worked by hand from the rule cited. -/

namespace Sys2Proof.Machine.Tests

/-! ### Small states -/

/-- The example tables of 95_test_vectors.md. -/
def pinTable : List PinEntry :=
  [⟨0x0002, .tx, 0⟩, ⟨0x0003, .rx, 0⟩, ⟨0x000F, .tx, 1⟩, ⟨0x0010, .rx, 1⟩, ⟨0x000A, .tx, 2⟩, ⟨0x000B, .rx, 2⟩,
   ⟨0x0016, .rts, 1⟩, ⟨0x0011, .cts, 1⟩]

/-- The parameters of 95_test_vectors.md, with TXE at LSR bit 6 and 0 the code of trigger level ONE (G9). -/
def platform : Platform := ⟨95999999, .exact, .global, false, pinTable, 0, 5, 0⟩

/-- A port at reset, its unspecified registers zero. -/
def fresh : PortState where
  swRts := NC
  swCts := NC
  txCount := 0
  initialized := false
  irqApi := ⟨false, false⟩
  irqFlow := ⟨false, false⟩
  cbId := 0
  handler := none
  lcr := 0
  dll := 0
  dlm := 0
  fdr := 0
  ier := ⟨⟨false, false⟩, 0⟩
  fifoEn := .unknown
  rxTrigger := .unknown
  nvicEn := false
  vec := false
  power := .unknown
  pclkDiv1 := false
  isrStep := .idle

/-- A port in INIT state (R158 at 96 MHz). -/
def ready : PortState :=
  { fresh with
    initialized := true, lcr := 0x03, dlm := 0x02, dll := 0x71, fdr := 0x10
    fifoEn := .on, rxTrigger := .one, power := .on, pclkDiv1 := true }

/-- LSR `lsr`, IIR 0x04 (RX), RBR 0x41, CTS low, prompt, the further FCR bits 5. -/
def drawsOf (lsr : Byte) : Draws := ⟨lsr, 0x04, 0x41, false, true, 5⟩

/-- Ports 0, 1 and 3 in INIT state, port 2 at reset, FG idle; LSR reads `lsr`. -/
def base (lsr : Byte) : State where
  platform := platform
  ports := #v[ready, ready, fresh, ready]
  mcr1 := ⟨true, true, 0x2A⟩
  handler := none
  gpio := []
  fgStep := .idle
  fault := none
  trace := []
  fgWords := []
  isrWords := #v[[], [], [], []]
  agent := .fg
  draw := drawsOf lsr
  inputs := []
  tick := 0

/-- Port 0 with `f` applied. -/
def with0 (f : PortState → PortState) (lsr : Byte) : State := (base lsr).modPort 0 f

/-- The state in which the next step is `m`, with the draws of LSR 0x41. -/
def moves (m : Move) (s : State) : State := { s with inputs := [⟨m, drawsOf 0x41⟩] }

/-- What `f` reads after a command. -/
def after {α : Type} (i : Instr) (s : State) (f : State → α) : Option α :=
  match exec i s with
  | .next t => some (f t)
  | .fault _ => none
  | .refused _ => none

/-- What `f` reads after a step. -/
def afterStep {α : Type} (s : State) (f : State → α) : Option α :=
  match step s with
  | .next t => some (f t)
  | .fault _ => none
  | .refused _ => none

/-- The fault record of a state, as numbers: code, sub-code, OP, port (R164). -/
def faultCodes (s : State) : Option (Nat × Nat × Nat × Nat) :=
  s.fault.map fun r => (r.cause.code, r.cause.subCode, r.op.toNat, r.port.toNat)

/-! ### Well-formedness: each check refuses an ill-formed term -/

theorem test_wf_accepts : [Instr.baud 3 9600, .format 0 8 4 2, .format 0 5 0 1, .init NC NC].all Instr.wf = true := by
  decide

theorem test_wf_port :
    [Instr.baud 4 9600, .format 4 8 0 1, .breakSet 4, .breakClear 5, .irqSet 6 .rx true, .flowIrqSet 7 .tx false,
     .irqHandler 4 1 1, .irqEntry 4, .readable 4, .writable 4, .getc 4, .putc 4 0, .setFlowControl 4 .none NC NC,
     .free 4, .clear 4].any Instr.wf = false := by decide

theorem test_wf_dataBits_low : (Instr.format 0 4 0 1).wf = false := by decide

theorem test_wf_dataBits_high : (Instr.format 0 9 0 1).wf = false := by decide

theorem test_wf_stopBits_low : (Instr.format 0 8 0 0).wf = false := by decide

theorem test_wf_stopBits_high : (Instr.format 0 8 0 3).wf = false := by decide

theorem test_wf_parity : (Instr.format 0 8 5 1).wf = false := by decide

/-- A reserved opcode (FT-1, FT-2, FT-3, EN-13). -/
theorem test_word_opcode :
    [0x00000000#32, 0x88000000#32, 0xF8000000#32, 0x90000000#32].any commandWordOk = false := by decide

/-- One must-be-0 bit of each format set: W, F bit 7, F bit 10, N, I bit 1, I bit 9, B, FC, P port, P opnd
(BD-6, FM-10, BR-6, IA-6, PU-6, FC-9, PF-9, EN-12). -/
theorem test_word_reservedBits :
    [0x08000001#32, 0x10000188#32, 0x10000508#32, 0x18000001#32, 0x28000003#32, 0x28000201#32, 0x60000141#32,
     0x68000004#32, 0x71000000#32, 0x70000001#32, 0x80000001#32].any commandWordOk = false := by decide

/-! ### Decoding: one written-out word, at least, for each command (95_test_vectors.md 2.9 and its vectors) -/

theorem test_decode_baud : decode [0x0B000000, 0x0001C200, 5] = .command (.baud 3 115200) [5] := by decide

theorem test_decode_format : decode [0x10000228] = .command (.format 0 8 2 2) [] := by decide

theorem test_decode_breakSet : decode [0x1B000000] = .command (.breakSet 3) [] := by decide

theorem test_decode_breakClear : decode [0x20000000] = .command (.breakClear 0) [] := by decide

theorem test_decode_irqSet : decode [0x28000101] = .command (.irqSet 0 .tx true) [] := by decide

theorem test_decode_flowIrqSet : decode [0x30000001] = .command (.flowIrqSet 0 .rx true) [] := by decide

theorem test_decode_irqHandler : decode [0x3A000002, 0x00000099] = .command (.irqHandler 2 2 0x99) [] := by decide

theorem test_decode_irqEntry : decode [0x40000000] = .command (.irqEntry 0) [] := by decide

theorem test_decode_readable : decode [0x4D000000] = .command (.readable 5) [] := by decide

theorem test_decode_writable : decode [0x50000000] = .command (.writable 0) [] := by decide

theorem test_decode_getc : decode [0x58000000] = .command (.getc 0) [] := by decide

theorem test_decode_putc : decode [0x600000FF] = .command (.putc 0 0xFF) [] := by decide

theorem test_decode_setFlowControl :
    decode [0x69000003, 0x00110016] = .command (.setFlowControl 1 .rtsCts 0x0016 0x0011) [] := by decide

theorem test_decode_init : decode [0x70000000, 0x00030002] = .command (.init 0x0002 0x0003) [] := by decide

theorem test_decode_free : decode [0x7A000000] = .command (.free 2) [] := by decide

theorem test_decode_clear : decode [0x83000000] = .command (.clear 3) [] := by decide

theorem test_decode_waits : decode [0x38FFFFFF] = .waiting := by decide

theorem test_decode_refused :
    decode [0x71000000, 0x00030002] = .refused .reservedBits 0x71000000 [0x00030002] ∧
    decode [0x88000000] = .refused .opcode 0x88000000 [] := by decide

/-- Table words as the opcode table numbers them: the ARG is bits 63..32, or 0 when only 32 bits are given. -/
theorem test_decodeTableWord :
    decodeTableWord 64 0x0011001669000003 = some (.setFlowControl 1 .rtsCts 0x0016 0x0011) ∧
    decodeTableWord 32 0x08000000 = some (.baud 0 0) ∧ decodeTableWord 32 0x38FFFFFF = some (.irqHandler 0 0xFFFFFF 0) ∧
    decodeTableWord 32 0x18000001 = none := by decide

/-- The encoder writes the words of PR-1 and PR-4. -/
theorem test_encode :
    [Instr.init 0x0002 0x0003, .baud 0 115200, .format 0 8 0 1, .putc 0 0x41, .getc 0,
     .setFlowControl 1 .rtsCts 0x0016 0x0011, .irqSet 1 .rx true, .flowIrqSet 1 .rx false].flatMap encode =
    [0x70000000, 0x00030002, 0x08000000, 0x0001C200, 0x10000108, 0x60000041, 0x58000000, 0x69000003, 0x00110016,
     0x29000001, 0x31000000] := by decide

/-- R87's syntax, and R88's expansions. -/
theorem test_syntax :
    Assembly.render (.setFlowControl 0 .rts 0x0100 NC) = "SET_FLOW_CONTROL p0, rts, 0x0100, NC" ∧
    Assembly.render (.format 0 8 2 2) = "FORMAT p0, 8, even, 2" ∧
    Assembly.render (Pseudo.irqOn 2 .tx).expand = "IRQ_SET p2, TX, 1" := by decide

theorem test_pseudo :
    (Pseudo.flowOff 1).expand = .setFlowControl 1 .none NC NC ∧ (Pseudo.formatDefault 2).expand = .format 2 8 0 1 ∧
    (Pseudo.baudDefault 0).expand = .baud 0 9600 ∧ (Pseudo.irqOff 0 .rx).expand = .irqSet 0 .rx false := by decide

/-! ### The divisor calculator (95_test_vectors.md 2.1) -/

/-- DC-1, DC-14, DC-16, DC-19, DC-21. -/
theorem test_divisor_short :
    divisorOf .exact 96000000 9600 = some ⟨625, 0, 1⟩ ∧ divisorOf .exact 96000000 6000000 = some ⟨1, 0, 1⟩ ∧
    divisorOf .exact 96000000 4000000 = some ⟨1, 1, 2⟩ ∧ divisorOf .exact 153600 9600 = some ⟨1, 0, 1⟩ ∧
    divisorOf .exact 96000000 1500000 = some ⟨4, 0, 1⟩ := by decide

/-- DC-15, DC-17, DC-18, DC-20. -/
theorem test_divisor_refused :
    divisorOf .exact 96000000 6000001 = none ∧ divisorOf .exact 96000000 91 = none ∧
    divisorOf .exact 96000000 0 = none ∧ divisorOf .exact 153599 9600 = none := by decide

/-- DC-2, DC-7, DC-10, DC-11. -/
theorem test_divisor_search :
    divisorOf .exact 96000000 115200 = some ⟨27, 13, 14⟩ ∧ divisorOf .exact 96000000 921600 = some ⟨4, 5, 8⟩ ∧
    divisorOf .exact 25000000 115200 = some ⟨10, 5, 14⟩ ∧ divisorOf .exact 100000000 115200 = some ⟨31, 3, 4⟩ := by
  decide +kernel

/-- DC-3: the early out keeps (162, 13, 14) although (175, 11, 14) has error 0. -/
theorem test_divisor_earlyOut : divisorOf .exact 96000000 19200 = some ⟨162, 13, 14⟩ := by decide +kernel

/-- DC-12: in exact arithmetic (7, 6, 7) and (11, 2, 11) tie and the first is kept; in binary32 the second
has the smaller error. -/
theorem test_divisor_arithmetics :
    divisorOf .exact 96000000 460800 = some ⟨7, 6, 7⟩ ∧
    (errExact 96000000 460800 ⟨11, 2, 11⟩).lt (errExact 96000000 460800 ⟨7, 6, 7⟩) = false ∧
    (errBinary32 96000000 460800 ⟨11, 2, 11⟩).lt (errBinary32 96000000 460800 ⟨7, 6, 7⟩) = true := by decide +kernel

/-- The nearest binary32 values: 1/3 is 11184811 / 2^25, and 2^24 + 1 rounds to the even 2^24. -/
theorem test_binary32 :
    (binary32 ⟨1, 3⟩).num * 2 ^ 25 = 11184811 * (binary32 ⟨1, 3⟩).den ∧
    (binary32 ⟨16777217, 1⟩).num = 16777216 * (binary32 ⟨16777217, 1⟩).den := by decide +kernel

/-- R81, R106: the rows `8, 2` and `5, 1` of table FM-T. -/
theorem test_lcrFormat :
    [Parity.none, .odd, .even, .forced1, .forced0].map (fun pr => lcrFormat 8 pr 2) = [0x07, 0x0F, 0x1F, 0x2F, 0x3F] ∧
    [Parity.none, .odd, .even, .forced1, .forced0].map (fun pr => lcrFormat 5 pr 1) = [0x00, 0x08, 0x18, 0x28, 0x38] := by
  decide

/-! ### Commands -/

/-- BD-1. -/
theorem test_baud : after (.baud 0 115200) (base 0) (fun t =>
    ((t.port 0).dlm, (t.port 0).dll, (t.port 0).fdr, (t.port 0).lcr)) = some (0x00, 0x1B, 0xED, 0x03) := by
  decide +kernel

/-- BD-2: the break is kept, and the LCR accesses are those listed. -/
theorem test_baud_break : after (.baud 0 9600) (with0 (fun q => { q with lcr := 0x43 }) 0) (·.trace) =
    some [.regRead 0 (.lcr 0x43), .regWrite 0 (.lcr 0xC3), .regWrite 0 (.dlm 0x02), .regWrite 0 (.dll 0x71),
      .regWrite 0 (.fdr 0x10), .regRead 0 (.lcr 0xC3), .regWrite 0 (.lcr 0x43)] := by decide +kernel

/-- FM-11: the write ends the break. -/
theorem test_format : after (.format 0 8 0 1) (with0 (fun q => { q with lcr := 0x43 }) 0) (fun t => (t.port 0).lcr) =
    some 0x03 := by decide

/-- FM-9: stop bits are checked before parity. -/
theorem test_format_order : after (.format 0 8 7 0) (base 0) faultCodes = some (some (1, 4, 2, 0)) := by decide

/-- BR-4. -/
theorem test_breakSet : after (.breakSet 0) (with0 (fun q => { q with lcr := 0x1F }) 0) (fun t => (t.port 0).lcr) =
    some 0x5F := by decide

/-- BR-2. -/
theorem test_breakClear : after (.breakClear 0) (with0 (fun q => { q with lcr := 0x43 }) 0) (fun t => (t.port 0).lcr) =
    some 0x03 := by decide

/-- IA-2: the disable branch runs though nothing was on. -/
theorem test_irqSet_off : after (.irqSet 0 .rx false) (base 0) (·.trace) =
    some [.regRead 0 (.ier ⟨⟨false, false⟩, 0⟩), .regWrite 0 (.ier ⟨⟨false, false⟩, 0⟩), .nvicDisable 0] := by decide

/-- IA-1c: TX off while RX is on keeps the line. -/
theorem test_irqSet_keepsLine :
    after (.irqSet 0 .tx false)
      (with0 (fun q => { q with irqApi := ⟨true, true⟩, ier := ⟨⟨true, true⟩, 0x15⟩, nvicEn := true, vec := true }) 0)
      (fun t => ((t.port 0).ier, (t.port 0).nvicEn)) = some (⟨⟨true, false⟩, 0x15⟩, true) := by decide

/-- IA-4c: the application still wants RX. -/
theorem test_flowIrqSet_kept :
    after (.flowIrqSet 0 .rx false)
      (with0 (fun q => { q with irqApi := ⟨true, false⟩, irqFlow := ⟨true, false⟩, ier := ⟨⟨true, false⟩, 0⟩ }) 0)
      (fun t => ((t.port 0).irqFlow.rx, (t.port 0).ier.en.rx, t.trace)) = some (false, true, []) := by decide

/-- IH-2 under GLOBAL and under PER_PORT. -/
theorem test_irqHandler :
    after (.irqHandler 3 2 0x99) { base 0 with handler := some 1 } (fun t => (t.handlerOf 0, (t.port 3).cbId)) =
      some (some 2, 0x99) ∧
    after (.irqHandler 3 2 0x99)
      { with0 (fun q => { q with handler := some 1 }) 0 with platform := { platform with handlerSlots := .perPort } }
      (fun t => (t.handlerOf 0, t.handlerOf 3)) = some (some 1, some 2) := by decide

/-- IE-1. -/
theorem test_irqEntry_rx :
    after (.irqEntry 0)
      { with0 (fun q => { q with swRts := 0x0100, cbId := 0x1234 }) 0 with agent := .controller, handler := some 1 }
      (fun t => ((t.port 0).isrStep, (t.pin 0x0100).out, t.trace)) =
    some (.inHandler, .high,
      [.regRead 0 (.iir 0x04), .gpioWrite 0x0100 true, .handler (some 1) 0x1234 .rx]) := by decide

/-- IE-11: FG may not present IRQ_ENTRY. -/
theorem test_irqEntry_fg : after (.irqEntry 0) (base 0) faultCodes = some (some (17, 0, 8, 0)) := by decide

/-- RD-2 and RD-3. -/
theorem test_readable :
    after (.readable 0) (base 0x60) (·.trace) = some [.regRead 0 (.lsr 0x60), .response 0] ∧
    after (.readable 0) (base 0xFF) (·.trace) = some [.regRead 0 (.lsr 0xFF), .response 1] := by decide

/-- RD-5: from a handler, the port is checked. -/
theorem test_readable_port : after (.readable 5) { base 0 with agent := .isr 2 } faultCodes = some (some (1, 1, 9, 5)) := by
  decide

/-- WR-3 and WR-4. -/
theorem test_writable :
    after (.writable 0) (with0 (fun q => { q with txCount := 15 }) 0) (·.trace) =
      some [.regRead 0 (.lsr 0), .response 1] ∧
    after (.writable 0) (with0 (fun q => { q with txCount := 16 }) 0) (·.trace) =
      some [.regRead 0 (.lsr 0), .response 0] := by decide

/-- WR-7: the CTS pin stops, LSR is not read and the count is kept. -/
theorem test_writable_cts :
    after (.writable 0)
      { with0 (fun q => { q with txCount := 16, swCts := 0x0200 }) 0x40 with draw := { drawsOf 0x40 with cts := true } }
      (fun t => ((t.port 0).txCount, t.trace)) = some (16, [.gpioRead 0x0200 true, .response 0]) := by decide

/-- PU-2. -/
theorem test_putc : after (.putc 0 0x41) (with0 (fun q => { q with txCount := 16 }) 0x40) (fun t =>
    ((t.port 0).txCount, t.trace)) = some (1, [.regRead 0 (.lsr 0x40), .regWrite 0 (.thr 0x41)]) := by decide

/-- PU-7: not from a handler. -/
theorem test_putc_isr : after (.putc 0 0x41) { base 0x40 with agent := .isr 3 } faultCodes = some (some (17, 0, 12, 0)) := by
  decide

/-- GC-2, micro-step A. -/
theorem test_getc : after (.getc 0) (with0 (fun q => { q with swRts := 0x0100 }) 0x01) (fun t => (t.fgStep, t.trace)) =
    some (.getcB 0, [.regRead 0 (.lsr 0x01), .gpioWrite 0x0100 false]) := by decide

/-- GC-1, micro-step B. -/
theorem test_getc_byte : afterStep (moves .fg { base 0 with fgStep := .getcB 0 }) (fun t => (t.fgStep, t.trace)) =
    some (.idle, [.regRead 0 (.rbr 0x41), .response 0x41]) := by decide

/-- FC-5: step 1 clears both bits by one read and one write and keeps the others; step 5 routes the pin. -/
theorem test_setFlowControl :
    after (.setFlowControl 1 .rtsCts 0x0016 0x0011) (base 0) (·.mcr1) = some ⟨false, false, 0x2A⟩ ∧
    afterStep (moves .fg { base 0 with fgStep := .sfc5 ⟨1, .rtsCts, 0x0016, 0x0011, false⟩ })
      (fun t => (t.mcr1.autoCts, (t.port 1).swCts, t.gpio)) = some (true, NC, []) := by decide

/-- FC-7: on port 0 the pins that map to port 1 take the software path. -/
theorem test_setFlowControl_software :
    afterStep (moves .fg { base 0 with fgStep := .sfc6 ⟨0, .rtsCts, 0x0016, 0x0011, false⟩ })
      (fun t => ((t.port 0).swRts, (t.port 0).irqFlow.rx, (t.port 0).nvicEn, t.pin 0x0016)) =
    some (0x0016, true, true, ⟨.output, .low⟩) := by decide

/-- PF-1, the trace up to DoFlow's step 1. -/
theorem test_init : after (.init 0x0002 0x0003) (base 0) (·.trace) =
    some [.power 0, .pclkDiv1 0, .regWrite 0 (.fcr ⟨true, true, true, 0, 5⟩), .regRead 0 (.lcr 0x03),
      .regWrite 0 (.lcr 0x83), .regWrite 0 (.dlm 0x02), .regWrite 0 (.dll 0x71), .regWrite 0 (.fdr 0x10),
      .regRead 0 (.lcr 0x83), .regWrite 0 (.lcr 0x03), .regWrite 0 (.lcr 0x03), .pinOut 0x0002 .tx,
      .pinOut 0x0003 .rx, .pinMode 0x0002 .pullUp, .pinMode 0x0003 .pullUp] := by decide +kernel

/-- PF-7: the late fault, after the power requests. -/
theorem test_init_lowClock :
    after (.init 0x000A 0x000B) { base 0 with platform := { platform with pclkLess1 := 99999 } }
      (fun t => (t.port 2).power == .on && !(t.port 2).initialized && faultCodes t == some (1, 2, 14, 0)) = some true := by
  decide

/-- PF-10. -/
theorem test_free : after (.free 0) (with0 (fun q => { q with cbId := 0x55 }) 0) (fun t => ((t.port 0).cbId, t.trace)) =
    some (0, []) := by decide

/-- PF-11: the count is kept. -/
theorem test_clear : after (.clear 0) (with0 (fun q => { q with txCount := 9 }) 0) (fun t => ((t.port 0).txCount, t.trace)) =
    some (9, [.regWrite 0 (.fcr ⟨true, true, true, 0, 5⟩)]) := by decide

/-! ### Steps -/

/-- BD-5: what a table word runs, as the first instruction after reset. -/
theorem test_withFetchWord :
    afterStep (State.reset.withFetchWord 64 0x0000258009000000) faultCodes = some (some (18, 0, 1, 1)) := by decide

/-- FT-9: no step after a fault. -/
theorem test_halted :
    (match step { base 0 with fault := some ⟨.notInitialized, 1, 1, .fg⟩ } with
     | .next _ => false | .fault .halted => true | .refused _ => false) = true := by decide

/-- IE-10: no entry while the line is disabled. -/
theorem test_no_entry : afterStep (moves (.irq 0) (base 0)) (·.trace) = some [] := by decide

/-- The reset values of R47 that the spec gives, and the canonical form of the GPIO record. -/
theorem test_reset : Gpio.wf State.reset.gpio ∧ State.reset.fault = none ∧ (State.reset.port 3).swRts = NC := by decide

/-! ### Witnesses: states and operands that meet the hypotheses of each statement -/

/-- FG presents a command on an initialised port: the hypotheses most statements share. -/
abbrev Presents (s : State) (port : PortField) (p : Port) : Prop :=
  s.agent = .fg ∧ port.toNat = p.val ∧ (s.port p).initialized = true

/-- The same for READABLE and WRITABLE from a handler. -/
abbrev Polls (s : State) (port : PortField) (p : Port) : Prop :=
  (s.agent = .fg ∨ s.agent = .isr 2) ∧ port.toNat = p.val ∧ (s.port p).initialized = true

/-- Port 0 with both software pins in use and its interrupts on. -/
def softFlow (lsr : Byte) : State :=
  with0 (fun q => { q with
    swRts := 0x0100, swCts := 0x0200, irqFlow := ⟨true, false⟩, ier := ⟨⟨true, false⟩, 0⟩, nvicEn := true, vec := true }) lsr

/-- The exchange of one command word by FG, and by the handler on ISR3. -/
def fgHas (ws : List Word) : State := moves .fg { base 0 with fgWords := ws }

def isrHas (ws : List Word) : State :=
  moves (.isr 3)
    { (base 0).modPort 3 (fun q => { q with isrStep := .inHandler }) with isrWords := #v[[], [], [], ws] }

theorem test_witness_EncodeOfDecodeIsTheWords :
    decode [0x3FFFFFFF, 0xFFFFFFFF, 7] = .command (.irqHandler 7 0xFFFFFF 0xFFFFFFFF) [7] := by decide

/-- A selected row of each length, and a word that no row selects. -/
theorem test_witness_DecoderFollowsTheOpcodeMap :
    (opcodeMap.any fun r => r.selectedBy 0x3FFFFFFF && r.words == 2) = true ∧
    (opcodeMap.any fun r => r.selectedBy 0x87000000 && r.words == 1) = true ∧
    (opcodeMap.all fun r => r.selectedBy 0x88000000 == false) = true := by decide

theorem test_witness_RefusedCommandIsRecordedAndNothingElse :
    ((fgHas [0x88000000, 1]).fault = none ∧ 0x11 ≤ ((0x88000000#32).extractLsb' 27 5).toNat ∧
      (fgHas [0x88000000, 1]).nextInput.move = .fg ∧ (fgHas [0x88000000, 1]).fgStep = .idle ∧
      (fgHas [0x88000000, 1]).fgWords = 0x88000000 :: [1]) ∧
    ((isrHas [0x71000000, 1]).fault = none ∧
      (opcodeMap.any fun r => r.op.code == (0x71000000#32).extractLsb' 27 5 && (0x71000000 &&& r.mask) != r.pattern) ∧
      (isrHas [0x71000000, 1]).nextInput.move = .isr 3 ∧ ((isrHas [0x71000000, 1]).port 3).isrStep = .inHandler ∧
      (isrHas [0x71000000, 1]).isrWords[3] = 0x71000000 :: [1]) := by decide

theorem test_witness_StepRunsTheCommandFgPresents :
    (fgHas [0x83000000, 9]).fault = none ∧ (fgHas [0x83000000, 9]).nextInput.move = .fg ∧
    (fgHas [0x83000000, 9]).fgStep = .idle ∧ decode (fgHas [0x83000000, 9]).fgWords = .command (.clear 3) [9] := by
  decide

theorem test_witness_StepRunsTheCommandAHandlerPresents :
    (isrHas [0x48000000]).fault = none ∧ (isrHas [0x48000000]).nextInput.move = .isr 3 ∧
    ((isrHas [0x48000000]).port 3).isrStep = .inHandler ∧
    decode (isrHas [0x48000000]).isrWords[3] = .command (.readable 0) [] ∧
    (moves (.isr 3) (base 0)).fault = none ∧ (moves (.isr 3) (base 0)).nextInput.move = .isr 3 ∧
    ((moves (.isr 3) (base 0)).port 3).isrStep = .idle := by decide

theorem test_witness_StepAdvancesTheCommandInProgress :
    (moves .fg { base 0 with fgStep := .getcB 3 }).fault = none ∧
    (moves .fg { base 0 with fgStep := .getcB 3 }).nextInput.move = .fg ∧
    (moves .fg { base 0 with fgStep := .getcB 3 }).fgStep ≠ .idle := by decide

theorem test_witness_TwoWordCommandWaitsForItsArgument :
    ((fgHas []).fault = none ∧ (fgHas []).nextInput.move = .fg ∧ (fgHas []).fgStep = .idle ∧ (fgHas []).fgWords = []) ∧
    ((fgHas [0x70000000]).fault = none ∧ (fgHas [0x70000000]).nextInput.move = .fg ∧
      (fgHas [0x70000000]).fgStep = .idle ∧ (fgHas [0x70000000]).fgWords = [0x70000000] ∧
      (opcodeMap.any fun r => r.selectedBy 0x70000000 && r.words == 2) = true) ∧
    ((isrHas [0x38000001]).fault = none ∧ (isrHas [0x38000001]).nextInput.move = .isr 3 ∧
      ((isrHas [0x38000001]).port 3).isrStep = .inHandler ∧ (isrHas [0x38000001]).isrWords[3] = [0x38000001] ∧
      (opcodeMap.any fun r => r.selectedBy 0x38000001 && r.words == 2) = true) := by decide

/-- An entry that may start, and, under IIR_RESPECTS_IER, one whose draw reports a disabled source. -/
theorem test_witness_InterruptStartsOnlyWhereAllowed :
    ((moves (.irq 0) (softFlow 0)).fault = none ∧ (moves (.irq 0) (softFlow 0)).nextInput.move = .irq 0 ∧
      ((softFlow 0).port 0).nvicEn = true ∧ ((softFlow 0).port 0).vec = true ∧
      ((softFlow 0).port 0).isrStep = .idle ∧ (softFlow 0).platform.iirRespectsIer = false) ∧
    ((drawsOf 0x41).iir.extractLsb' 1 3).toNat = 2 ∧ ((softFlow 0).port 0).ier.en.rx = true ∧
    ((base 0).port 0).ier.en.rx = false := by decide

theorem test_witness_HandlerReturnOnlyIdlesItsIsr :
    (moves (.ret 3) (base 0)).fault = none ∧ (moves (.ret 3) (base 0)).nextInput.move = .ret 3 := by decide

theorem test_witness_StepStopsExactlyWhenFaulted :
    (base 0).fault = none ∧ { base 0 with fault := some ⟨.notInitialized, 1, 1, .fg⟩ }.fault ≠ none := by decide

theorem test_witness_InterruptsLeaveTheForegroundAlone :
    (moves (.irq 0) (softFlow 0)).nextInput.move ≠ .fg ∧
    afterStep (moves (.irq 0) (softFlow 0)) (fun t => (t.pin 0x0100).out) = some .high := by decide

/-- One witness for each check, at the ports next to the boundary. -/
theorem test_witness_CommonChecksFaultInOrder :
    (Instr.irqEntry 3).op = .irqEntry ∧ (base 0).agent ≠ .controller ∧
    { base 0 with agent := .isr 3 }.agent = .isr 3 ∧ (Instr.init 2 3).op ≠ .readable ∧ (Instr.init 2 3).op ≠ .writable ∧
    4 ≤ (Instr.clear 4).portField.toNat ∧ (Instr.readable 2).portField.toNat = (2 : Port).val ∧
    ((base 0).port 2).initialized = false := by decide

/-- A precise fault and INIT's late one. -/
theorem test_witness_FaultsArePrecise :
    after (.format 0 4 0 1) (base 0) (fun t => t.fault ≠ (base 0).fault) = some True ∧
    after (.init 0x000A 0x000B) { base 0 with platform := { platform with pclkLess1 := 99999 } } faultCodes =
      some (some (1, 2, 14, 0)) ∧
    { base 0 with agent := .controller }.agent = .controller := by
  refine ⟨?_, by decide, rfl⟩
  exact congrArg some (eq_true (by decide))

theorem test_witness_HandlerMayOnlyPoll :
    { softFlow 0x40 with agent := .isr 3 }.agent = .isr 3 ∧ { softFlow 0x40 with agent := .isr 3 }.fault = none ∧
    after (.writable 0) { softFlow 0x40 with agent := .isr 3 } (·.fault) = some none := by decide

theorem test_witness_DivisorAdmitsExactly :
    (9600 ≠ 0 ∧ 16 * 9600 ≤ 153600 ∧ 153600 / (16 * 9600) ≤ 0xFFFF ∧ 153600 % (16 * 9600) = 0) ∧
    16 * 9600 > 153599 ∧ 96000000 / (16 * 91) > 0xFFFF := by decide

theorem test_witness_DivisorTripleIsInRange : divisorOf .exact 96000000 6000000 = some ⟨1, 0, 1⟩ := by decide

/-- A search with an early out and one without (DC-2, DC-7). -/
theorem test_witness_ExactDivisorSearchHasTheClosedForm :
    (115200 ≠ 0 ∧ 16 * 115200 ≤ 96000000 ∧ 96000000 / (16 * 115200) ≤ 0xFFFF ∧ 96000000 % (16 * 115200) ≠ 0) ∧
    (921600 ≠ 0 ∧ 16 * 921600 ≤ 96000000 ∧ 96000000 / (16 * 921600) ≤ 0xFFFF ∧ 96000000 % (16 * 921600) ≠ 0) := by
  decide

theorem test_witness_BaudProgramsTheDivisor :
    Presents (base 0) 3 3 ∧
    divisorOf (base 0).platform.dcArith (base 0).platform.pclkHz (BitVec.toNat (9600 : Word)) = some ⟨625, 0, 1⟩ := by
  decide

theorem test_witness_BaudOutOfRangeWritesNothing :
    Presents (base 0) 3 3 ∧ BitVec.toNat (0 : Word) = 0 ∧
    16 * BitVec.toNat (6000001 : Word) > (base 0).platform.pclkHz ∧
    (base 0).platform.pclkHz / (16 * BitVec.toNat (91 : Word)) > 0xFFFF := by decide

theorem test_witness_FormatWritesTheLineControlWord :
    Presents (base 0) 3 3 ∧ 5 ≤ BitVec.toNat 8#4 ∧ BitVec.toNat 8#4 ≤ 8 ∧ 1 ≤ BitVec.toNat 2#2 ∧ BitVec.toNat 2#2 ≤ 2 ∧
    BitVec.toNat 4#3 ≤ 4 := by decide

theorem test_witness_FormatChecksInOrder :
    Presents (base 0) 0 0 ∧ ¬ (5 ≤ BitVec.toNat 4#4 ∧ BitVec.toNat 4#4 ≤ 8) ∧ ¬ (5 ≤ BitVec.toNat 9#4 ∧ BitVec.toNat 9#4 ≤ 8) ∧
    ¬ (BitVec.toNat 0#2 = 1 ∨ BitVec.toNat 0#2 = 2) ∧ ¬ (BitVec.toNat 3#2 = 1 ∨ BitVec.toNat 3#2 = 2) ∧
    ¬ BitVec.toNat 5#3 ≤ 4 := by decide

theorem test_witness_LineControlWordDecodesBack :
    5 ≤ BitVec.toNat 5#4 ∧ BitVec.toNat 5#4 ≤ 8 ∧ 1 ≤ BitVec.toNat 1#2 ∧ BitVec.toNat 1#2 ≤ 2 ∧
    (lcrFormat 5 .forced0 1).getLsbD 3 = true := by decide

theorem test_witness_BreakChangesOneBit : Presents (base 0) 0 0 ∧ Presents (base 0) 3 3 := by decide

theorem test_witness_EnableRequestSetsBitVectorAndLine : Presents (base 0) 3 3 := by decide

theorem test_witness_LastDisableRequestClearsBitAndLine :
    Presents (softFlow 0) 0 0 ∧ ((softFlow 0).port 0).irqFlow.get .tx = false ∧
    ((softFlow 0).port 0).irqApi.get .rx = false := by decide

theorem test_witness_DisableRequestKeptByTheOtherRequester :
    Presents (softFlow 0) 0 0 ∧ ((softFlow 0).port 0).irqFlow.get .rx = true ∧
    ((with0 (fun q => { q with irqApi := ⟨false, true⟩ }) 0).port 0).irqApi.get .tx = true := by decide

theorem test_witness_IrqHandlerRegisters :
    Presents (base 0) 3 3 ∧ (base 0).platform.handlerSlots = .global ∧
    { platform with handlerSlots := .perPort }.handlerSlots = .perPort := by decide

/-- RX with and without software RTS, TX, and an ignored code. -/
theorem test_witness_IsrDispatch :
    { softFlow 0 with agent := .controller }.agent = .controller ∧ BitVec.toNat (3 : PortField) = (3 : Port).val ∧
    ((softFlow 0).port 0).swRts ≠ NC ∧ ((base 0).port 3).swRts = NC ∧ Gpio.wf (softFlow 0).gpio ∧
    (BitVec.extractLsb' 1 3 0x04#8).toNat = 2 ∧ (BitVec.extractLsb' 1 3 0x02#8).toNat = 1 ∧
    (BitVec.extractLsb' 1 3 0x06#8).toNat = 3 := by decide

theorem test_witness_ReadableRespondsBitZero :
    Polls (base 0) 0 0 ∧ Polls { base 1 with agent := .isr 2 } 3 3 := by decide

/-- Every clause: CTS says stop; TXE; full credit (16); credit left (15). -/
theorem test_witness_WritableFollowsThePredicate :
    Polls { softFlow 0 with agent := .isr 2 } 0 0 ∧ ((softFlow 0).port 0).swCts ≠ NC ∧ ((base 0).port 3).swCts = NC ∧
    (0x40#8).getLsbD ((base 0).platform.txeBit.val + 1) = true ∧
    (0x00#8).getLsbD ((base 0).platform.txeBit.val + 1) = false ∧
    16 ≤ ((with0 (fun q => { q with txCount := 16 }) 0).port 0).txCount.toNat ∧
    ((with0 (fun q => { q with txCount := 15 }) 0).port 0).txCount.toNat < 16 := by decide

theorem test_witness_PutcSendsWhenWritable :
    Presents (with0 (fun q => { q with txCount := 15 }) 0) 0 0 ∧ (base 0).draw.prompt = true ∧
    ((with0 (fun q => { q with txCount := 15 }) 0).port 0).swCts = NC ∧
    ((with0 (fun q => { q with txCount := 15 }) 0).port 0).txCount.toNat < 16 := by decide

theorem test_witness_PutcWaitsOtherwise :
    Presents (with0 (fun q => { q with txCount := 16 }) 0) 0 0 ∧
    (with0 (fun q => { q with txCount := 16 }) 0).draw.lsr.getLsbD
      ((with0 (fun q => { q with txCount := 16 }) 0).platform.txeBit.val + 1) = false ∧
    16 ≤ ((with0 (fun q => { q with txCount := 16 }) 0).port 0).txCount.toNat := by decide

theorem test_witness_PutcHoldIsOneGuardedStep :
    { softFlow 0x40 with fgStep := .putcW 0 0x41 }.fgStep = .putcW 0 0x41 ∧ (softFlow 0x40).draw.cts = false ∧
    (softFlow 0x40).draw.lsr.getLsbD ((softFlow 0x40).platform.txeBit.val + 1) = true := by decide

theorem test_witness_CreditSaturatesAtSixteen :
    Presents (base 0) 3 3 ∧ (base 0).draw.prompt = true ∧ (base 0).fgStep = .idle ∧ ((base 0).port 3).swCts = NC ∧
    ((base 0).port 3).txCount = 0 ∧ (List.replicate 16 0x30#8).length = 16 ∧
    (base 0).draw.lsr.getLsbD ((base 0).platform.txeBit.val + 1) = false ∧
    (0x40#8).getLsbD ((base 0).platform.txeBit.val + 1) = true := by decide

theorem test_witness_GetcAcceptsWhenReadable :
    Presents (softFlow 1) 0 0 ∧ (softFlow 1).draw.prompt = true ∧ (softFlow 1).draw.lsr.getLsbD 0 = true ∧
    ((softFlow 1).port 0).swRts ≠ NC ∧ Gpio.wf (softFlow 1).gpio ∧ ((base 1).port 3).swRts = NC ∧
    (base 0).draw.lsr.getLsbD 0 = false := by decide

theorem test_witness_GetcTakesTheByte :
    { base 0 with fgStep := .getcW 3 }.fgStep = .getcW 3 ∧ (base 0).draw.lsr.getLsbD 0 = false ∧
    (base 1).draw.lsr.getLsbD 0 = true ∧ ((base 1).port 3).swRts = NC ∧
    ((softFlow 1).port 0).swRts ≠ NC ∧ Gpio.wf (softFlow 1).gpio ∧
    { base 0 with fgStep := .getcB 3 }.fgStep = .getcB 3 := by decide

/-- GETC waits on port 0, and the environment's next choices are `ms`, all with LSR 0x41 and IIR 0x04. -/
def getcThen (ms : List Move) : State :=
  { softFlow 0 with fgStep := .getcW 0, inputs := ms.map fun m => ⟨m, drawsOf 0x41⟩ }

theorem test_witness_RtsAfterGetc :
    (getcThen [.fg, .fg]).fault = none ∧ Gpio.wf (getcThen [.fg, .fg]).gpio ∧
    (getcThen [.fg, .fg]).fgStep = .getcW 0 ∧ ((getcThen [.fg, .fg]).port 0).swRts ≠ NC ∧
    (drawsOf 0x41).lsr.getLsbD 0 = true ∧ ((drawsOf 0x41).iir.extractLsb' 1 3).toNat = 2 ∧
    (getcThen [.fg, .irq 0, .fg]).inputs = [⟨.fg, drawsOf 0x41⟩, ⟨.irq 0, drawsOf 0x41⟩, ⟨.fg, drawsOf 0x41⟩] ∧
    ((getcThen [.fg]).port 0).nvicEn = true ∧ ((getcThen [.fg]).port 0).vec = true ∧
    ((getcThen [.fg]).port 0).isrStep = .idle ∧ ((getcThen [.fg]).port 0).ier.en.rx = true := by decide

theorem test_witness_SetFlowControlEntersTheSequence :
    Presents (base 0) 1 1 ∧ (base 0).draw.prompt = true ∧ ({ drawsOf 0 with prompt := false } : Draws).prompt = false := by
  decide

/-- A request on the auto-capable port, and one on port 3. -/
def request (p : Port) (mode : FlowMode) : FlowRequest := ⟨p, mode, 0x0016, 0x0011, false⟩

theorem test_witness_FlowStepsOneToFour :
    { base 0 with fgStep := .sfc1 (request 1 .rts) }.fgStep = .sfc1 (request 1 .rts) ∧
    { base 0 with fgStep := .sfc2 (request 3 .rts), agent := .isr 0 }.fgStep = .sfc2 (request 3 .rts) ∧
    ((base 0).port 3).initialized = true ∧
    { base 0 with fgStep := .sfc3 (request 3 .rts) }.fgStep = .sfc3 (request 3 .rts) ∧
    { base 0 with fgStep := .sfc4 (request 3 .none) }.fgStep = .sfc4 (request 3 .none) := by decide

/-- Hardware on port 1, software on port 3, and a mode without CTS. -/
theorem test_witness_FlowStepFiveConnectsCts :
    { base 0 with fgStep := .sfc5 (request 1 .cts) }.fgStep = .sfc5 (request 1 .cts) ∧
    pinmap (base 0).platform (request 1 .cts).txPin .cts = some 1 ∧ (request 1 .cts).txPin ≠ NC ∧
    (request 3 .rtsCts).port ≠ 1 ∧ Gpio.wf (base 0).gpio ∧ (request 3 .rts).mode ≠ .cts := by decide

theorem test_witness_FlowStepSixConnectsRts :
    { base 0 with fgStep := .sfc6 (request 1 .rts) }.fgStep = .sfc6 (request 1 .rts) ∧ (request 1 .rts).respond = false ∧
    pinmap (base 0).platform (request 1 .rts).rxPin .rts = some 1 ∧ (request 1 .rts).rxPin ≠ NC ∧
    (request 3 .rtsCts).port ≠ 1 ∧ Gpio.wf (base 0).gpio ∧ (request 3 .cts).mode ≠ .rts := by decide

/-- The flow sequence of port 0 stands at `st`, its old software RTS in `pin`, and an RX entry comes. -/
def inWindow (pin : Pin) (st : FgStep) : State :=
  { (softFlow 0).modPort 0 (fun q =>
      { q with swRts := pin, irqApi := ⟨true, false⟩, irqFlow := ⟨false, false⟩, ier := ⟨⟨true, false⟩, 0⟩ }) with
    fgStep := st, agent := .controller }

/-- The RTS pin at an RX entry: high before step 3 (R125), not written after it (FC-10). -/
theorem test_rtsWindow :
    after (.irqEntry 0) (inWindow 0x0100 (.sfc3 (request 0 .rts))) (fun t => (t.pin 0x0100).out) = some .high ∧
    after (.irqEntry 0) (inWindow NC (.sfc4 (request 0 .rts))) (·.gpio) = some (softFlow 0).gpio := by decide

theorem test_witness_FlowWindowRaisesNoRts :
    ((inWindow 0x0100 (.sfc3 (request 0 .none))).Inv ∧
      (inWindow 0x0100 (.sfc3 (request 0 .none))).agent = .controller) ∧
    (inWindow NC (.sfc4 (request 0 .none))).Inv ∧ (inWindow NC (.sfc5 (request 0 .rts))).Inv ∧
    (inWindow NC (.sfc6 (request 0 .rts))).Inv := by
  refine ⟨?_, ?_, ?_, ?_⟩ <;> decide

theorem test_witness_HardwareFlowControlOnPortOne :
    (base 0).agent = .fg ∧ ((base 0).port 1).initialized = true ∧ pinmap (base 0).platform 0x0016 .rts = some 1 ∧
    pinmap (base 0).platform 0x0011 .cts = some 1 := by decide

theorem test_witness_FlowRequestMatchesSoftwareRts : Presents (softFlow 0) 0 0 ∧ Presents (base 0) 3 3 := by decide

/-- Port 2, which is not initialised yet, and port 1. -/
theorem test_witness_InitBringsUpThePort :
    (base 0).agent = .fg ∧ pinmap (base 0).platform 0x000A .tx = some 2 ∧ pinmap (base 0).platform 0x000B .rx = some 2 ∧
    pinmap (base 0).platform 0x000F .tx = some 1 ∧ pinmap (base 0).platform 0x0010 .rx = some 1 ∧
    divisorOf (base 0).platform.dcArith (base 0).platform.pclkHz 9600 = some ⟨625, 0, 1⟩ := by decide

theorem test_witness_StateAfterInit :
    (base 0).agent = .fg ∧ pinmap (base 0).platform 0x000A .tx = some 2 ∧ pinmap (base 0).platform 0x000B .rx = some 2 ∧
    divisorOf (base 0).platform.dcArith (base 0).platform.pclkHz 9600 = some ⟨625, 0, 1⟩ ∧
    ((base 0).port 2).ier.en.rx = (((base 0).port 2).irqApi.rx || ((base 0).port 2).irqFlow.rx) := by decide

/-- PF-3, PF-4, PF-5. -/
theorem test_witness_InitChecksThePins :
    (base 0).agent = .fg ∧ pinmap (base 0).platform NC .tx = none ∧ pinmap (base 0).platform 0x0002 .tx = some 0 ∧
    pinmap (base 0).platform NC .rx = none ∧ pinmap (base 0).platform 0x000B .rx = some 2 ∧
    pinmap (base 0).platform 0x0003 .rx = some 0 := by decide

theorem test_witness_InitWithALowClockFaultsLate :
    pinmap platform 0x0002 .tx = some 0 ∧ pinmap platform 0x0003 .rx = some 0 ∧
    ({ platform with pclkLess1 := 153598 } : Platform).pclkHz < 153600 := by decide

theorem test_witness_FreeClearsTheIdentifier : Presents (base 0) 3 3 := by decide

theorem test_witness_ClearResetsBothFifos : Presents (base 0) 3 3 := by decide

/-- A state all of whose ports are at reset is one a run can start in. -/
theorem test_witness_InvariantHoldsAtReset :
    { base 0 with ports := #v[fresh, fresh, fresh, fresh] }.Initial := by decide

/-- A state that meets the invariant, with a command in progress and an interrupt on, has a next state. -/
theorem test_witness_EveryStepKeepsTheInvariant :
    (getcThen [.fg]).Inv ∧ afterStep (getcThen [.fg]) (·.fgStep) = some (.getcB 0) := by decide

theorem test_witness_ReachableStatesKeepEnablesAndCredit :
    Reachable { base 0 with ports := #v[fresh, fresh, fresh, fresh] } :=
  .start test_witness_InvariantHoldsAtReset

theorem test_witness_NoStepUndoesInitialisation :
    afterStep (moves (.irq 0) (softFlow 0)) (fun t => (t.port 0).vec) = some true := by decide

theorem test_witness_EachFieldHasItsWriters :
    after (.irqSet 0 .rx true) (base 0) (fun t => (t.port 0).irqApi) ≠ some ((base 0).port 0).irqApi := by decide

theorem test_witness_CommandsLeaveOtherPortsAlone :
    after (.init 0x000A 0x000B) (base 0) (fun t => (t.port 3).lcr) = some ((base 0).port 3).lcr ∧
    pinmap (base 0).platform 0x000A .tx ≠ some 3 ∧ (Instr.clear 0).op ≠ .init ∧
    (Instr.clear 0).portField.toNat ≠ (3 : Port).val := by decide

theorem test_witness_GpioRecordReadsBack : Gpio.wf [(0x0100, ⟨.output, .low⟩), (0xFFFE, ⟨.input, .unknown⟩)] := by decide

end Sys2Proof.Machine.Tests
end

