-- ==== Sys2Proof/Proofs/EnablesAndCredit.lean ====
section
/-! The enable bits and the line of a port follow its requesters, and its credit count is at most 16, in
every reachable state (10_state.md R43, R44, R45). The three facts speak of five fields of a port's row and
need no other part of the invariant: an operation that writes none of the five keeps them as they stand, the
applicator restores them after a requester's slot is written, and a byte is sent only on a credit. -/

namespace Sys2Proof.Machine

/-! ### The property of a row and of a state -/

/-- The five fields agree: each enable bit is the OR of the two requester flags (R43), the line is on
exactly when a direction is (R44), and the count is within the FIFO's depth (R45). -/
structure Agree (en api flow : PerDir) (line : Bool) (count : Byte) : Prop where
  enable : ∀ d, en.get d = (api.get d || flow.get d)
  line   : line = (en.rx || en.tx)
  credit : count.toNat ≤ 16

/-- A port's row has R43, R44 and R45. It is a statement about five fields alone, so that a row that
differs in other fields has the same one, by `Iff.rfl`. -/
def PortState.Consistent (q : PortState) : Prop := Agree q.ier.en q.irqApi q.irqFlow q.nvicEn q.txCount

/-- Every port's row has R43, R44 and R45. -/
def State.Consistent (s : State) : Prop := ∀ p, (s.port p).Consistent

/-- A port's row between the write of a requester's slot for direction `d` and the applicator's answer to
the request `en` (R113): the other direction and the line are as they should be, `d`'s own bit may lag. -/
structure PortState.RequestPending (q : PortState) (d : Dir) (en : Bool) : Prop where
  other   : q.ier.en.get (otherDir d) = (q.irqApi.get (otherDir d) || q.irqFlow.get (otherDir d))
  line    : q.nvicEn = (q.ier.en.rx || q.ier.en.tx)
  credit  : q.txCount.toNat ≤ 16
  asked   : en = true → (q.irqApi.get d || q.irqFlow.get d) = true
  granted : (q.irqApi.get d || q.irqFlow.get d) = true → en = false → q.ier.en.get d = true

theorem dir_eq_or_eq_other (d e : Dir) : e = d ∨ e = otherDir d := by cases d <;> cases e <;> decide

/-- Some direction is on, counted from either direction. -/
theorem perDir_or (f : PerDir) (d : Dir) : (f.rx || f.tx) = (f.get d || f.get (otherDir d)) := by
  cases d
  · rfl
  · exact Bool.or_comm _ _

/-! ### Updates that write no row -/

section
variable {s : State} {p : Port}

@[simp] theorem emit_consistent (es : List Event) : (s.emit es).Consistent ↔ s.Consistent := Iff.rfl
@[simp] theorem setFgStep_consistent (st : FgStep) : (s.setFgStep st).Consistent ↔ s.Consistent := Iff.rfl
@[simp] theorem presentedBy_consistent (a : Agent) : (s.presentedBy a).Consistent ↔ s.Consistent := Iff.rfl
@[simp] theorem setFgWords_consistent (ws : List Word) : (s.setFgWords ws).Consistent ↔ s.Consistent := Iff.rfl
@[simp] theorem setIsrWords_consistent (ws : List Word) : (s.setIsrWords p ws).Consistent ↔ s.Consistent := Iff.rfl
@[simp] theorem takeInput_consistent : s.takeInput.Consistent ↔ s.Consistent := Iff.rfl
@[simp] theorem raise_consistent (c : FaultCause) (op : BitVec 5) (pf : PortField) :
    (s.raise c op pf).Consistent ↔ s.Consistent := Iff.rfl
@[simp] theorem gpioInit_consistent (k : Pin) (dir : GpioDir) : (s.gpioInit k dir).Consistent ↔ s.Consistent := Iff.rfl
@[simp] theorem gpioWrite_consistent (k : Pin) (b : Bool) : (s.gpioWrite k b).Consistent ↔ s.Consistent := Iff.rfl
@[simp] theorem pinOut_consistent (k : Pin) (sig : Signal) : (s.pinOut k sig).Consistent ↔ s.Consistent := Iff.rfl
@[simp] theorem pullUp_consistent (k : Pin) : (s.pullUp k).Consistent ↔ s.Consistent := Iff.rfl

/-! ### Updates of one row -/

/-- A row may be inconsistent before its update if it is consistent after it. -/
theorem modPort_consistent_of_others {f : PortState → PortState} (hs : ∀ q, q ≠ p → (s.port q).Consistent)
    (hf : (f (s.port p)).Consistent) : (s.modPort p f).Consistent := by
  intro q
  rw [modPort_port]
  split
  · exact hf
  · next hq => exact hs q hq

theorem modPort_consistent {f : PortState → PortState} (hs : s.Consistent)
    (hf : ∀ q : PortState, q.Consistent → (f q).Consistent) : (s.modPort p f).Consistent :=
  modPort_consistent_of_others (fun q _ => hs q) (hf _ (hs p))

theorem writeLcr_consistent (hs : s.Consistent) (v : Byte) : (s.writeLcr p v).Consistent := by
  rw [writeLcr_eq, emit_consistent]
  exact modPort_consistent hs fun _ hq => hq

theorem setLcrBit_consistent (hs : s.Consistent) (n : Nat) (b : Bool) : (s.setLcrBit p n b).Consistent := by
  rw [setLcrBit_eq, emit_consistent]
  exact modPort_consistent hs fun _ hq => hq

theorem resetFifos_consistent (hs : s.Consistent) (tx : Bool) : (s.resetFifos p tx).Consistent := by
  rw [resetFifos_eq, emit_consistent]
  exact modPort_consistent hs fun _ hq => hq

theorem programDivisor_consistent (hs : s.Consistent) (dl dav mv : Nat) :
    (s.programDivisor p dl dav mv).Consistent := by
  rw [programDivisor_eq, emit_consistent]
  exact modPort_consistent hs fun _ hq => hq

theorem setHandler_consistent (hs : s.Consistent) (h : HandlerToken) : (s.setHandler p h).Consistent := by
  unfold State.setHandler
  split
  · exact hs
  · exact modPort_consistent hs fun _ hq => hq

/-! ### The arbiter (R112-R118) -/

/-- The enable branch sets the bit that was asked for, and the line (R114). -/
theorem enableLine_consistent {d : Dir} (hs : ∀ q, q ≠ p → (s.port q).Consistent)
    (hp : (s.port p).RequestPending d true) : (s.enableLine p d).Consistent := by
  rw [enableLine_eq, emit_consistent]
  refine modPort_consistent_of_others hs ⟨fun e => ?_, ?_, hp.credit⟩
  · obtain rfl | rfl := dir_eq_or_eq_other d e
    · simp [hp.asked]
    · simpa using hp.other
  · simp [perDir_or _ d]

/-- The disable branch clears a bit that no requester wants, and the line with it unless the other direction
is on (R115). -/
theorem disableLine_consistent {d : Dir} (hs : ∀ q, q ≠ p → (s.port q).Consistent)
    (hp : (s.port p).RequestPending d false) (hno : s.requested p d = false) : (s.disableLine p d).Consistent := by
  have enable : ∀ e, ((s.port p).ier.en.set d false).get e = ((s.port p).irqApi.get e || (s.port p).irqFlow.get e) := by
    intro e
    obtain rfl | rfl := dir_eq_or_eq_other d e
    · simpa [State.requested] using hno
    · simpa using hp.other
  rw [disableLine_eq]
  split
  · next hon =>
    rw [emit_consistent]
    refine modPort_consistent_of_others hs ⟨enable, ?_, hp.credit⟩
    simp [hp.line, perDir_or _ d, hon]
  · next hoff =>
    rw [emit_consistent]
    refine modPort_consistent_of_others hs ⟨enable, ?_, hp.credit⟩
    simp [perDir_or _ d, hoff]

/-- A bit that another requester still wants is on already, so the applicator leaves the row (R116). -/
theorem consistent_of_still_requested {d : Dir} (hs : ∀ q, q ≠ p → (s.port q).Consistent)
    (hp : (s.port p).RequestPending d false) (hyes : s.requested p d = true) : s.Consistent := by
  intro q
  by_cases hq : q = p
  · subst hq
    refine ⟨fun e => ?_, hp.line, hp.credit⟩
    obtain rfl | rfl := dir_eq_or_eq_other d e
    · exact (hp.granted hyes rfl).trans hyes.symm
    · exact hp.other
  · exact hs q hq

/-- The applicator answers a pending request (R113). -/
theorem applyRequest_consistent {d : Dir} {en : Bool} (hs : ∀ q, q ≠ p → (s.port q).Consistent)
    (hp : (s.port p).RequestPending d en) : (s.applyRequest p d en).Consistent := by
  obtain ⟨rfl, heq⟩ | ⟨rfl, hno, heq⟩ | ⟨rfl, hyes, heq⟩ := applyRequest_cases s p d en
  · rw [heq]
    exact enableLine_consistent hs hp
  · rw [heq]
    exact disableLine_consistent hs hp hno
  · rw [heq]
    exact consistent_of_still_requested hs hp hyes

/-- Writing the application's slot makes the request pending. -/
theorem irqApi_requestPending {q : PortState} (hq : q.Consistent) (d : Dir) (en : Bool) :
    PortState.RequestPending { q with irqApi := q.irqApi.set d en } d en where
  other := by simpa using hq.enable (otherDir d)
  line := hq.line
  credit := hq.credit
  asked := by simp +contextual
  granted := by
    rintro hwant rfl
    have hflow : q.irqFlow.get d = true := by simpa using hwant
    simp [hq.enable d, hflow]

/-- Writing the flow-control slot makes the request pending. -/
theorem irqFlow_requestPending {q : PortState} (hq : q.Consistent) (d : Dir) (en : Bool) :
    PortState.RequestPending { q with irqFlow := q.irqFlow.set d en } d en where
  other := by simpa using hq.enable (otherDir d)
  line := hq.line
  credit := hq.credit
  asked := by simp +contextual
  granted := by
    rintro hwant rfl
    have happ : q.irqApi.get d = true := by simpa using hwant
    simp [hq.enable d, happ]

/-- A slot's write that makes a request pending, and the applicator after it. -/
theorem modPort_applyRequest_consistent {f : PortState → PortState} {d : Dir} {en : Bool} (hs : s.Consistent)
    (hf : (f (s.port p)).RequestPending d en) : ((s.modPort p f).applyRequest p d en).Consistent := by
  refine applyRequest_consistent (fun q hq => ?_) ?_
  · rw [modPort_port_ne _ _ _ _ hq]
    exact hs q
  · rwa [modPort_port_same]

theorem requestApi_consistent (hs : s.Consistent) (d : Dir) (en : Bool) : (s.requestApi p d en).Consistent :=
  modPort_applyRequest_consistent hs (irqApi_requestPending (hs p) d en)

theorem requestFlow_consistent (hs : s.Consistent) (d : Dir) (en : Bool) : (s.requestFlow p d en).Consistent :=
  modPort_applyRequest_consistent hs (irqFlow_requestPending (hs p) d en)

/-! ### The credit count (R130-R138) -/

/-- A row whose count is replaced by one within the FIFO's depth. -/
theorem PortState.Consistent.withTxCount {q : PortState} (hq : q.Consistent) {n : Byte} (hn : n.toNat ≤ 16) :
    PortState.Consistent { q with txCount := n } :=
  ⟨hq.enable, hq.line, hn⟩

/-- An evaluation of Writable resets the count or keeps it (R131). -/
theorem evalWritable_consistent (hs : s.Consistent) : (s.evalWritable p).Consistent := by
  rw [evalWritable_eq, emit_consistent]
  refine modPort_consistent hs fun q hq => hq.withTxCount ?_
  split
  · decide
  · exact hq.credit

/-- PUTC's hold is lifted only with a credit left: after a reset, or with a count below 16 (R136, R137). -/
theorem pollPutc_consistent (hs : s.Consistent) (b : Byte) : (s.pollPutc p b).Consistent := by
  unfold State.pollPutc
  split
  · next hw =>
    obtain ⟨hgo, hcredit⟩ := (writable_iff s p).1 hw
    rw [sendByte_eq, setFgStep_consistent, emit_consistent]
    refine modPort_consistent_of_others (fun q _ => hs q) ((hs p).withTxCount ?_)
    by_cases ht : s.txeSeen = true
    · rw [if_pos ⟨hgo, ht⟩]
      decide
    · rw [if_neg fun h => ht h.2]
      have hlt := hcredit.resolve_left ht
      rw [BitVec.toNat_add, show (1 : Byte).toNat = 1 from rfl]
      omega
  · exact hs

theorem pollGetc_consistent (hs : s.Consistent) : (s.pollGetc p).Consistent := by
  unfold State.pollGetc
  split
  · obtain ⟨-, heq⟩ | ⟨-, heq⟩ := acceptByte_cases s p <;> rw [heq] <;> exact hs
  · exact hs

/-! ### The flow sequence (R144-R149) and FG's micro-steps -/

theorem endFlow_consistent (hs : s.Consistent) (r : FlowRequest) : (s.endFlow r).Consistent := by
  unfold State.endFlow
  split <;> exact hs

theorem flowStep1_consistent (hs : s.Consistent) (r : FlowRequest) : (s.flowStep1 r).Consistent := by
  rw [flowStep1_eq]
  exact hs

theorem flowStep2_consistent (hs : s.Consistent) (r : FlowRequest) : (s.flowStep2 r).Consistent :=
  requestFlow_consistent hs .rx false

theorem flowStep3_consistent (hs : s.Consistent) (r : FlowRequest) : (s.flowStep3 r).Consistent :=
  (setFgStep_consistent _).2 (modPort_consistent hs fun _ hq => hq)

theorem flowStep4_consistent (hs : s.Consistent) (r : FlowRequest) : (s.flowStep4 r).Consistent := by
  unfold State.flowStep4
  split
  · exact endFlow_consistent hs r
  · exact hs

theorem connectCts_consistent (hs : s.Consistent) (pin : Pin) : (s.connectCts p pin).Consistent := by
  unfold State.connectCts
  split
  · exact hs
  · exact modPort_consistent ((gpioInit_consistent _ _).2 hs) fun _ hq => hq

theorem flowStep5_consistent (hs : s.Consistent) (r : FlowRequest) : (s.flowStep5 r).Consistent := by
  unfold State.flowStep5
  split
  · exact connectCts_consistent hs r.txPin
  · exact hs

/-- Step 6's FIFO reset, then the hardware path or the pin, its slot and the RX request (R149). -/
theorem connectRts_consistent (hs : s.Consistent) (pin : Pin) : (s.connectRts p pin).Consistent := by
  have hreset : (s.resetFifos p false).Consistent := resetFifos_consistent hs false
  unfold State.connectRts
  simp only
  split
  · exact hreset
  · refine requestFlow_consistent ?_ .rx true
    refine modPort_consistent ?_ fun _ hq => hq
    simpa using hreset

theorem flowStep6_consistent (hs : s.Consistent) (r : FlowRequest) : (s.flowStep6 r).Consistent := by
  unfold State.flowStep6
  refine endFlow_consistent ?_ r
  split
  · exact connectRts_consistent hs r.rxPin
  · exact hs

/-- Every micro-step of FG's command in progress (R17). -/
theorem advanceFg_consistent (hs : s.Consistent) : s.advanceFg.Consistent := by
  unfold State.advanceFg
  cases s.fgStep with
  | idle => exact hs
  | putcW p b => exact pollPutc_consistent hs b
  | getcW p => exact pollGetc_consistent hs
  | getcB p => exact hs
  | sfc1 r => exact flowStep1_consistent hs r
  | sfc2 r => exact flowStep2_consistent hs r
  | sfc3 r => exact flowStep3_consistent hs r
  | sfc4 r => exact flowStep4_consistent hs r
  | sfc5 r => exact flowStep5_consistent hs r
  | sfc6 r => exact flowStep6_consistent hs r

theorem enterFg_consistent (hs : s.Consistent) (st : FgStep) : (s.enterFg st).Consistent := by
  unfold State.enterFg
  simp only
  split
  · exact advanceFg_consistent ((setFgStep_consistent st).2 hs)
  · exact hs

/-! ### Interrupt entry (R125-R128) -/

theorem callHandler_consistent (hs : s.Consistent) (ev : Dir) : (s.callHandler p ev).Consistent := by
  obtain ⟨-, heq⟩ | ⟨-, heq⟩ := callHandler_cases s p ev
  · rwa [heq]
  · rw [heq, emit_consistent]
    exact modPort_consistent hs fun _ hq => hq

theorem raiseRts_consistent (hs : s.Consistent) : (s.raiseRts p .rx).Consistent := by
  obtain ⟨-, heq⟩ | ⟨-, heq⟩ := raiseRts_cases s p <;> rw [heq] <;> exact hs

/-- Interrupt entry does not touch the enables (R179). -/
theorem enterIsr_consistent (hs : s.Consistent) : (s.enterIsr p).Consistent := by
  have hread : (s.readIir p).Consistent := hs
  obtain ⟨-, heq⟩ | ⟨-, heq⟩ | ⟨-, heq⟩ := enterIsr_cases s p <;> rw [heq]
  · exact hread
  · exact callHandler_consistent hread .tx
  · exact callHandler_consistent (raiseRts_consistent hread) .rx

/-! ### INIT (R155, R157) -/

theorem powerOn_consistent (hs : s.Consistent) : (s.powerOn p).Consistent :=
  (emit_consistent _).2 (modPort_consistent hs fun _ hq => hq)

theorem selectPclk_consistent (hs : s.Consistent) : (s.selectPclk p).Consistent :=
  (emit_consistent _).2 (modPort_consistent hs fun _ hq => hq)

theorem initPower_consistent (hs : s.Consistent) : (s.initPower p).Consistent :=
  resetFifos_consistent (selectPclk_consistent (powerOn_consistent hs)) true

theorem initLine_consistent (hs : s.Consistent) (t : Triple) (txPin rxPin : Pin) :
    (s.initLine p t txPin rxPin).Consistent := by
  unfold State.initLine
  refine modPort_consistent ?_ fun _ hq => hq
  simp only [pinOut_consistent, pullUp_consistent]
  exact writeLcr_consistent (programDivisor_consistent hs _ _ _) _

theorem initPort_consistent (hs : s.Consistent) (txPin rxPin : Pin) : (s.initPort p txPin rxPin).Consistent := by
  unfold State.initPort
  split
  · rw [raise_consistent]
    exact initPower_consistent hs
  · exact enterFg_consistent (initLine_consistent (initPower_consistent hs) _ txPin rxPin) _

/-! ### Commands, moves and runs -/

/-- A command with checks keeps what its body keeps: a fault changes no row (R163, R170). -/
theorem checked_consistent (hs : s.Consistent) (op : Op) (port : PortField) {body : Port → State}
    (hbody : ∀ p, (body p).Consistent) : (s.checked op port body).Consistent := by
  obtain ⟨-, heq⟩ | ⟨-, -, heq⟩ | ⟨-, -, -, -, heq⟩ | ⟨p, -, -, -, heq⟩ := checked_cases s op port body
  · rwa [heq]
  · rwa [heq]
  · rwa [heq]
  · rw [heq]
    exact hbody p

theorem execBaud_consistent (hs : s.Consistent) (port : PortField) (rate : Word) :
    ∃ t, execBaud port rate s = .next t ∧ t.Consistent := by
  refine ⟨_, rfl, checked_consistent hs _ _ fun p => ?_⟩
  split
  · exact hs
  · exact programDivisor_consistent hs _ _ _

theorem execFormat_consistent (hs : s.Consistent) (port : PortField) (bits : BitVec 4) (par : BitVec 3)
    (stops : BitVec 2) : ∃ t, execFormat port bits par stops s = .next t ∧ t.Consistent := by
  refine ⟨_, rfl, checked_consistent hs _ _ fun p => ?_⟩
  split
  · exact hs
  · exact writeLcr_consistent hs _

theorem execIrqEntry_consistent (hs : s.Consistent) (port : PortField) :
    ∃ t, execIrqEntry port s = .next t ∧ t.Consistent := by
  refine ⟨_, rfl, ?_⟩
  split
  · exact enterIsr_consistent hs
  · exact hs
  · exact hs
  · exact hs

theorem execInit_consistent (hs : s.Consistent) (txPin rxPin : Pin) :
    ∃ t, execInit txPin rxPin s = .next t ∧ t.Consistent := by
  refine ⟨_, rfl, ?_⟩
  split
  · split
    · exact hs
    · exact initPort_consistent hs txPin rxPin
  · exact hs

/-- Every command, presented by any agent (R80). -/
theorem exec_consistent (hs : s.Consistent) (i : Instr) : ∃ t, exec i s = .next t ∧ t.Consistent := by
  cases i with
  | baud port rate => exact execBaud_consistent hs port rate
  | format port bits par stops => exact execFormat_consistent hs port bits par stops
  | breakSet port => exact ⟨_, rfl, checked_consistent hs _ _ fun _ => setLcrBit_consistent hs _ _⟩
  | breakClear port => exact ⟨_, rfl, checked_consistent hs _ _ fun _ => setLcrBit_consistent hs _ _⟩
  | irqSet port dir en => exact ⟨_, rfl, checked_consistent hs _ _ fun _ => requestApi_consistent hs dir en⟩
  | flowIrqSet port dir en => exact ⟨_, rfl, checked_consistent hs _ _ fun _ => requestFlow_consistent hs dir en⟩
  | irqHandler port htok id =>
    refine ⟨_, rfl, checked_consistent hs _ _ fun _ => setHandler_consistent ?_ htok⟩
    exact modPort_consistent hs fun _ hq => hq
  | irqEntry port => exact execIrqEntry_consistent hs port
  | readable port => exact ⟨_, rfl, checked_consistent hs _ _ fun _ => hs⟩
  | writable port => exact ⟨_, rfl, checked_consistent hs _ _ fun _ => evalWritable_consistent hs⟩
  | getc port => exact ⟨_, rfl, checked_consistent hs _ _ fun _ => enterFg_consistent hs _⟩
  | putc port byte => exact ⟨_, rfl, checked_consistent hs _ _ fun _ => enterFg_consistent hs _⟩
  | setFlowControl port mode rxPin txPin =>
    exact ⟨_, rfl, checked_consistent hs _ _ fun _ => enterFg_consistent hs _⟩
  | init txPin rxPin => exact execInit_consistent hs txPin rxPin
  | free port => exact ⟨_, rfl, checked_consistent hs _ _ fun _ => modPort_consistent hs fun _ hq => hq⟩
  | clear port => exact ⟨_, rfl, checked_consistent hs _ _ fun _ => resetFifos_consistent hs true⟩

theorem takeFgCommand_consistent (hs : s.Consistent) : ∃ t, s.takeFgCommand = .next t ∧ t.Consistent := by
  unfold State.takeFgCommand
  split
  · exact ⟨_, rfl, hs⟩
  · exact ⟨_, rfl, hs⟩
  · exact exec_consistent (by simpa using hs) _

theorem takeIsrCommand_consistent (hs : s.Consistent) (p : Port) :
    ∃ t, s.takeIsrCommand p = .next t ∧ t.Consistent := by
  unfold State.takeIsrCommand
  split
  · exact ⟨_, rfl, hs⟩
  · exact ⟨_, rfl, hs⟩
  · exact exec_consistent (by simpa using hs) _

theorem moveFg_consistent (hs : s.Consistent) : ∃ t, s.moveFg = .next t ∧ t.Consistent := by
  unfold State.moveFg
  split
  · exact takeFgCommand_consistent hs
  · exact ⟨_, rfl, advanceFg_consistent hs⟩

theorem moveIrq_consistent (hs : s.Consistent) (p : Port) : ∃ t, s.moveIrq p = .next t ∧ t.Consistent := by
  unfold State.moveIrq
  split
  · exact exec_consistent (by simpa using hs) _
  · exact ⟨_, rfl, hs⟩

theorem moveIsr_consistent (hs : s.Consistent) (p : Port) : ∃ t, s.moveIsr p = .next t ∧ t.Consistent := by
  unfold State.moveIsr
  split
  · exact takeIsrCommand_consistent hs p
  · exact ⟨_, rfl, hs⟩

/-- Every agent's move (R12, R13). -/
theorem moveBy_consistent (hs : s.Consistent) (m : Move) : ∃ t, s.moveBy m = .next t ∧ t.Consistent := by
  cases m with
  | fg => exact moveFg_consistent hs
  | irq p => exact moveIrq_consistent hs p
  | isr p => exact moveIsr_consistent hs p
  | ret p => exact ⟨_, rfl, modPort_consistent hs fun _ hq => hq⟩

theorem step_consistent {t : State} (hs : s.Consistent) (hstep : step s = .next t) : t.Consistent := by
  unfold step at hstep
  split at hstep
  · cases hstep
  · obtain ⟨u, hu, hcons⟩ := moveBy_consistent ((takeInput_consistent (s := s)).2 hs) s.nextInput.move
    cases hu.symm.trans hstep
    exact hcons

/-- A port at reset: nothing requested, nothing enabled, nothing counted (R47). -/
theorem initial_row_consistent {q : PortState} (hq : q.Initial) : q.Consistent := by
  obtain ⟨-, -, hcount, -, hapi, hflow, -, -, hen, -, -, hline, -⟩ := hq
  unfold PortState.Consistent
  rw [hcount, hapi, hflow, hen, hline]
  exact ⟨fun d => by cases d <;> rfl, rfl, by decide⟩

theorem reachable_consistent (hs : Reachable s) : s.Consistent := by
  induction hs with
  | start hinit => exact fun p => initial_row_consistent (hinit.1 p)
  | next _ hstep ih => exact step_consistent ih hstep

end

/-- Settles O56: R43, R44 and R45 hold at a start and every step of any agent keeps them. -/
theorem reachableStatesKeepEnablesAndCredit : Obligations.ReachableStatesKeepEnablesAndCredit := by
  unfold Obligations.ReachableStatesKeepEnablesAndCredit
  intro s hs p
  obtain ⟨henable, hline, hcredit⟩ := reachable_consistent hs p
  exact ⟨henable, hline, hcredit⟩

end Sys2Proof.Machine
end

