-- ==== Sys2Proof/Proofs/Divisor.lean ====
section
/-! The divisor calculator admits a rate, returns a triple in range, and searches in closed form; BAUD
programs what it returns (40_divisor.md R91-R105). The search is tied to two functions of the library: it
is `List.find?` for a candidate below the threshold and, failing that, `List.argmin` of the error. Both
answer the first such candidate of the list, and the list stands in the order of R94. -/

namespace Sys2Proof.Machine

/-! ### The three branches of the calculator (R91-R94) -/

/-- The rates the calculator admits: the admission R91 and the width R92. -/
def Admitted (pclk baud : Nat) : Prop := baud ≠ 0 ∧ 16 * baud ≤ pclk ∧ pclk / (16 * baud) ≤ 0xFFFF

/-- What the calculator does at every rate: it refuses, answers exactly, or searches. -/
theorem divisorOf_cases (a : DcArith) (pclk baud : Nat) :
    (¬ Admitted pclk baud ∧ divisorOf a pclk baud = none) ∨
    (Admitted pclk baud ∧ pclk % (16 * baud) = 0 ∧ divisorOf a pclk baud = some ⟨pclk / (16 * baud), 0, 1⟩) ∨
    (Admitted pclk baud ∧ pclk % (16 * baud) ≠ 0 ∧
      divisorOf a pclk baud =
        search (errOf a pclk baud) (thresholdOf a) (searchSpace (pclk / (16 * baud))) none) := by
  unfold divisorOf Admitted
  split
  · exact .inl ⟨by omega, rfl⟩
  · simp only
    split
    · exact .inl ⟨by omega, rfl⟩
    · split
      · exact .inr (.inl ⟨by omega, ‹_›, rfl⟩)
      · exact .inr (.inr ⟨by omega, ‹_›, rfl⟩)

/-- The quotient of an admitted rate is a divisor of 16 bits, not 0. -/
theorem Admitted.quotient_range {pclk baud : Nat} (h : Admitted pclk baud) :
    1 ≤ pclk / (16 * baud) ∧ pclk / (16 * baud) ≤ 0xFFFF := by
  obtain ⟨hbaud, hle, hwidth⟩ := h
  exact ⟨Nat.div_pos hle (by omega), hwidth⟩

/-- There is a candidate for every divisor but 0: the divisor itself with the fraction 1/2. -/
theorem searchSpace_ne_nil {dl0 : Nat} (h : 1 ≤ dl0) : searchSpace dl0 ≠ [] :=
  List.ne_nil_of_mem ((mem_searchSpace dl0 ⟨dl0, 1, 2⟩).2 (by simp only; omega))

theorem divisorOf_eq_none_iff (a : DcArith) (pclk baud : Nat) :
    divisorOf a pclk baud = none ↔ ¬ Admitted pclk baud := by
  obtain ⟨hout, heq⟩ | ⟨hin, -, heq⟩ | ⟨hin, -, heq⟩ := divisorOf_cases a pclk baud
  · simp [hout, heq]
  · simp [hin, heq]
  · have hfound := search_ne_none (errOf a pclk baud) (thresholdOf a) _ none
      (.inr (searchSpace_ne_nil hin.quotient_range.1))
    simp [hin, heq, hfound]

/-- Settles O17: of the three branches, only the refusal answers no triple. -/
theorem divisorAdmitsExactly : Obligations.DivisorAdmitsExactly := by
  unfold Obligations.DivisorAdmitsExactly
  intro a pclk baud
  constructor
  · rw [divisorOf_eq_none_iff, Admitted]
    omega
  · intro hbaud hle hwidth hexact
    obtain ⟨hout, -⟩ | ⟨-, -, heq⟩ | ⟨-, hrem, -⟩ := divisorOf_cases a pclk baud
    · exact absurd ⟨hbaud, hle, hwidth⟩ hout
    · exact heq
    · exact absurd hexact hrem

/-! ### The range of a triple (R99) -/

/-- Settles O18: the exact case has the fraction 0/1, and a search answers one of its candidates. -/
theorem divisorTripleIsInRange : Obligations.DivisorTripleIsInRange := by
  unfold Obligations.DivisorTripleIsInRange
  intro a pclk baud t ht
  obtain ⟨-, heq⟩ | ⟨hin, hexact, heq⟩ | ⟨hin, -, heq⟩ := divisorOf_cases a pclk baud
  · cases heq.symm.trans ht
  · cases heq.symm.trans ht
    have hrange := hin.quotient_range
    simp only
    omega
  · have hrange := hin.quotient_range
    obtain hmem | ⟨_, hnone, -⟩ := search_mem _ _ _ _ _ (heq.symm.trans ht)
    · rw [mem_searchSpace] at hmem
      omega
    · cases hnone

/-! ### BAUD (R103-R105) -/

/-- The divisor programming of a triple in range, by value: the nibbles of FDR, and DLAB set and then
cleared. -/
theorem programDivisor_eq_of_range (s : State) (p : Port) (d : Triple) (hdav : d.dav < 16) (hmv : d.mv < 16) :
    s.programDivisor p d.dl d.dav d.mv =
      (s.modPort p fun q =>
        { q with
          lcr := q.lcr &&& 0x7F
          dlm := BitVec.ofNat 8 (d.dl / 256)
          dll := BitVec.ofNat 8 (d.dl % 256)
          fdr := BitVec.ofNat 8 (16 * d.mv + d.dav) }).emit
        [.regRead p (.lcr (s.port p).lcr),
         .regWrite p (.lcr ((s.port p).lcr ||| 0x80)),
         .regWrite p (.dlm (BitVec.ofNat 8 (d.dl / 256))),
         .regWrite p (.dll (BitVec.ofNat 8 (d.dl % 256))),
         .regWrite p (.fdr (BitVec.ofNat 8 (16 * d.mv + d.dav))),
         .regRead p (.lcr ((s.port p).lcr ||| 0x80)),
         .regWrite p (.lcr ((s.port p).lcr &&& 0x7F))] := by
  have hset := fun v => (withBit_dlab v).1
  have hclear := fun v => (withBit_dlab v).2
  simp only [programDivisor_eq, fdrOf_eq _ _ hdav hmv, dll_eq, hclear]
  simp only [hset]

/-- BAUD at an admitted rate, from FG on an initialised port, is the divisor programming (R103). -/
theorem exec_baud_of_divisor {s : State} {port : PortField} {p : Port} {rate : Word} {d : Triple}
    (hfg : s.agent = .fg) (hport : port.toNat = p.val) (hinit : (s.port p).initialized = true)
    (hd : divisorOf s.platform.dcArith s.platform.pclkHz rate.toNat = some d) :
    exec (.baud port rate) s = .next (s.programDivisor p d.dl d.dav d.mv) := by
  have hmay : mayPresent s.agent .baud = true := by rw [hfg]; rfl
  have hdiv : s.divisor rate.toNat = some d := hd
  show execBaud port rate s = _
  rw [execBaud, checked_ok s .baud port _ p hmay ((portOf_eq_some port p).2 hport) hinit, hdiv]

/-- Only the row of the port and the trace may differ after an update of that row and its events. -/
theorem onlyPort_modPort_emit (s : State) (p : Port) (f : PortState → PortState) (es : List Event) :
    OnlyPort p s ((s.modPort p f).emit es) := by
  refine ⟨⟨rfl, rfl, rfl, rfl, rfl, rfl, rfl, rfl, rfl⟩, fun q hq => ?_, rfl, rfl, rfl⟩
  rw [emit_port, modPort_port_ne _ _ _ _ hq]

/-- Settles O21: a triple in range fits the registers, so that the accesses write its numbers. -/
theorem baudProgramsTheDivisor : Obligations.BaudProgramsTheDivisor := by
  unfold Obligations.BaudProgramsTheDivisor
  intro s port p rate d hfg hport hinit hd
  obtain ⟨-, -, -, hmv, hdav, -⟩ := divisorTripleIsInRange _ _ _ _ hd
  refine ⟨_, exec_baud_of_divisor hfg hport hinit hd, ?_⟩
  rw [programDivisor_eq_of_range s p d (by omega) (by omega)]
  exact ⟨onlyPort_modPort_emit .., by rw [emit_port, modPort_port_same], rfl⟩

/-! ### The order of the candidates (R94) -/

/-- The order of R94: by dl, then mv, then dav. -/
def Triple.Before (t u : Triple) : Prop :=
  t.dl < u.dl ∨ (t.dl = u.dl ∧ (t.mv < u.mv ∨ (t.mv = u.mv ∧ t.dav < u.dav)))

theorem Triple.Before.asymm {t u : Triple} (h : t.Before u) : ¬ u.Before t := by
  unfold Triple.Before at *
  omega

theorem candidates_pairwise_before (dl : Nat) : (candidates dl).Pairwise Triple.Before := by
  unfold candidates
  split
  · exact .nil
  · rw [List.pairwise_flatMap]
    constructor
    · intro mv _
      rw [List.pairwise_map]
      exact (List.pairwise_lt_range' 1).imp fun hlt => .inr ⟨rfl, .inr ⟨rfl, hlt⟩⟩
    · refine (List.pairwise_lt_range' 1).imp fun hlt t ht u hu => ?_
      simp only [List.mem_map] at ht hu
      obtain ⟨_, -, rfl⟩ := ht
      obtain ⟨_, -, rfl⟩ := hu
      exact .inr ⟨rfl, .inl hlt⟩

theorem searchSpace_pairwise_before (dl0 : Nat) : (searchSpace dl0).Pairwise Triple.Before := by
  unfold searchSpace
  rw [List.pairwise_flatMap]
  refine ⟨fun dl _ => candidates_pairwise_before dl, (List.pairwise_lt_range' 1).imp fun hlt t ht u hu => ?_⟩
  obtain ⟨-, hdl, -⟩ := (mem_candidates _ t).1 ht
  obtain ⟨-, hdl', -⟩ := (mem_candidates _ u).1 hu
  exact .inl (by omega)

/-- In a list that stands in the order of R94, a candidate that comes before another has the smaller
index. -/
theorem lt_of_getElem_before {l : List Triple} (hl : l.Pairwise Triple.Before) {i j : Nat} (hi : i < l.length)
    (hj : j < l.length) (h : l[i].Before l[j]) : i < j := by
  obtain hlt | rfl | hgt := Nat.lt_trichotomy i j
  · exact hlt
  · exact absurd h h.asymm
  · exact absurd (List.pairwise_iff_getElem.1 hl j i hj hi hgt) h.asymm

/-- Nothing before the candidate that `find?` answers has the property. -/
theorem eq_false_of_before_find? {l : List Triple} (hl : l.Pairwise Triple.Before) {f : Triple → Bool}
    {t u : Triple} (ht : l.find? f = some t) (hu : u ∈ l) (hut : u.Before t) : f u = false := by
  obtain ⟨-, i, hi, rfl, hfirst⟩ := List.find?_eq_some_iff_getElem.1 ht
  obtain ⟨j, hj, rfl⟩ := List.getElem_of_mem hu
  simpa using hfirst j (lt_of_getElem_before hl hj hi hut)

/-- Everything before the candidate that `argmin` answers has a larger value. -/
theorem lt_of_before_argmin {l : List Triple} (hl : l.Pairwise Triple.Before) {f : Triple → ℚ} {t u : Triple}
    (ht : t ∈ l.argmin f) (hu : u ∈ l) (hut : u.Before t) : f t < f u := by
  obtain ⟨hmem, -, hfirst⟩ := List.mem_argmin_iff.1 ht
  by_contra hle
  have hidx : l.idxOf u < l.idxOf t :=
    lt_of_getElem_before hl (List.idxOf_lt_length_of_mem hu) (List.idxOf_lt_length_of_mem hmem) (by simpa using hut)
  exact hidx.not_ge (hfirst u hu (not_lt.1 hle))

/-! ### Errors as rationals (R96) -/

/-- The rational a fraction stands for. -/
def Frac.toRat (x : Frac) : ℚ := x.num / x.den

/-- Comparison by cross multiplication is the order of the rationals. -/
theorem Frac.lt_iff {x y : Frac} (hx : 0 < x.den) (hy : 0 < y.den) : x.lt y = true ↔ x.toRat < y.toRat := by
  have hx' : (0 : ℚ) < x.den := by exact_mod_cast hx
  have hy' : (0 : ℚ) < y.den := by exact_mod_cast hy
  rw [Frac.lt, decide_eq_true_iff, Frac.toRat, Frac.toRat, div_lt_div_iff₀ hx' hy']
  exact_mod_cast Iff.rfl

/-- The error of R96, over the rationals. -/
def errRat (pclk baud : Nat) (t : Triple) : ℚ :=
  |(baud : ℚ) - (pclk : ℚ) / (16 * (t.dl : ℚ) * (1 + (t.dav : ℚ) / (t.mv : ℚ)))| / (baud : ℚ)

theorem errExact_den_pos {pclk baud : Nat} {t : Triple} (hbaud : baud ≠ 0) (hdl : t.dl ≠ 0) (hmv : 1 ≤ t.mv) :
    0 < (errExact pclk baud t).den := by
  simp only [errExact]
  have : 0 < t.mv + t.dav := by omega
  positivity

/-- The truncated differences of the two naturals add up to the distance. -/
theorem cast_sub_add_sub (m n : Nat) : ((m - n + (n - m) : Nat) : ℚ) = |(m : ℚ) - n| := by
  obtain h | h := Nat.le_total m n
  · have h' : (m : ℚ) ≤ n := by exact_mod_cast h
    rw [Nat.sub_eq_zero_of_le h, Nat.zero_add, Nat.cast_sub h, abs_sub_comm, abs_of_nonneg (sub_nonneg.2 h')]
  · have h' : (n : ℚ) ≤ m := by exact_mod_cast h
    rw [Nat.sub_eq_zero_of_le h, Nat.add_zero, Nat.cast_sub h, abs_of_nonneg (sub_nonneg.2 h')]

/-- The error computed in naturals, over one denominator, is the error of R96. -/
theorem errExact_toRat {pclk baud : Nat} {t : Triple} (hbaud : baud ≠ 0) (hdl : t.dl ≠ 0) (hmv : 1 ≤ t.mv) :
    (errExact pclk baud t).toRat = errRat pclk baud t := by
  have hb : (0 : ℚ) < baud := by exact_mod_cast Nat.pos_of_ne_zero hbaud
  have hd : (0 : ℚ) < t.dl := by exact_mod_cast Nat.pos_of_ne_zero hdl
  have hm : (0 : ℚ) < t.mv := by exact_mod_cast hmv
  have hk : (0 : ℚ) < 16 * t.dl * (t.mv + t.dav) := by positivity
  have hrate : (baud : ℚ) - pclk / (16 * t.dl * (1 + t.dav / t.mv)) =
      (16 * baud * t.dl * (t.mv + t.dav) - pclk * t.mv) / (16 * t.dl * (t.mv + t.dav)) := by
    field_simp
  rw [errRat, hrate, abs_div, abs_of_pos hk, div_div, Frac.toRat, errExact, cast_sub_add_sub]
  push_cast
  congr 1
  ring

/-! ### The search in closed form (R97, R98, R100) -/

/-- On the candidates of `l`, the comparisons that a search makes, of two errors and of an error with the
threshold, are those of the rationals `val` and `bound`. -/
structure Measures (err : Triple → Frac) (threshold : Frac) (val : Triple → ℚ) (bound : ℚ) (l : List Triple) :
    Prop where
  lt    : ∀ t ∈ l, ∀ u ∈ l, (err t).lt (err u) = true ↔ val t < val u
  below : ∀ t ∈ l, (err t).lt threshold = true ↔ val t < bound

theorem errExact_measures (pclk : Nat) {baud : Nat} (hbaud : baud ≠ 0) (dl0 : Nat) :
    Measures (errExact pclk baud) errThreshold (errRat pclk baud) (1 / 1000) (searchSpace dl0) := by
  have hpos : ∀ t ∈ searchSpace dl0, 0 < (errExact pclk baud t).den := by
    intro t ht
    obtain ⟨hdl, -, -, hmv, -⟩ := (mem_searchSpace dl0 t).1 ht
    exact errExact_den_pos hbaud hdl hmv
  have hval : ∀ t ∈ searchSpace dl0, (errExact pclk baud t).toRat = errRat pclk baud t := by
    intro t ht
    obtain ⟨hdl, -, -, hmv, -⟩ := (mem_searchSpace dl0 t).1 ht
    exact errExact_toRat hbaud hdl hmv
  have hbound : errThreshold.toRat = 1 / 1000 := by norm_num [errThreshold, Frac.toRat]
  constructor
  · intro t ht u hu
    rw [← hval t ht, ← hval u hu]
    exact Frac.lt_iff (hpos t ht) (hpos u hu)
  · intro t ht
    rw [← hval t ht, ← hbound]
    exact Frac.lt_iff (hpos t ht) (by decide)

/-- The best so far, when `done` has been examined: the first of least value, with its error. -/
def bestOf (err : Triple → Frac) (val : Triple → ℚ) (done : List Triple) : Option Best :=
  (done.argmin val).map fun t => ⟨t, err t⟩

section
variable {err : Triple → Frac} {threshold : Frac} {val : Triple → ℚ} {bound : ℚ} {all : List Triple}

/-- The best after one more candidate: it replaces the best exactly when it improves on it (R97). -/
theorem bestOf_concat (hm : Measures err threshold val bound all) {done : List Triple} {t : Triple}
    (hdone : ∀ u ∈ done, u ∈ all) (ht : t ∈ all) :
    bestOf err val (done ++ [t]) =
      if improves (err t) (bestOf err val done) then some ⟨t, err t⟩ else bestOf err val done := by
  unfold bestOf
  rw [List.argmin_concat]
  cases hbest : done.argmin val with
  | none => rfl
  | some b =>
    have hlt := hm.lt t ht b (hdone b (List.argmin_mem hbest))
    simp only [Option.map_some, improves, hlt]
    split <;> rfl

/-- A candidate below the threshold improves on a best that is not below it. -/
theorem improves_of_below (hm : Measures err threshold val bound all) {done : List Triple} {t : Triple}
    (hdone : ∀ u ∈ done, u ∈ all ∧ bound ≤ val u) (ht : t ∈ all) (hbelow : val t < bound) :
    improves (err t) (bestOf err val done) = true := by
  unfold bestOf
  cases hbest : done.argmin val with
  | none => rfl
  | some b =>
    obtain ⟨hb, hge⟩ := hdone b (List.argmin_mem hbest)
    exact (hm.lt t ht b hb).2 (hbelow.trans_le hge)

/-- The search from the best of `done`, with nothing in `done` below the threshold: the first remaining
candidate below it, else the first of least value among all. -/
theorem search_bestOf (hm : Measures err threshold val bound all) (l : List Triple) (hl : ∀ u ∈ l, u ∈ all) :
    ∀ done : List Triple, (∀ u ∈ done, u ∈ all ∧ bound ≤ val u) →
      search err threshold l (bestOf err val done) =
        (l.find? fun t => decide (val t < bound)).or ((done ++ l).argmin val) := by
  induction l with
  | nil =>
    intro done _
    simp [search, bestOf, Function.comp_def]
  | cons t l ih =>
    intro done hdone
    obtain ⟨ht, hl'⟩ := List.forall_mem_cons.1 hl
    rw [search, List.find?_cons]
    by_cases hbelow : val t < bound
    · simp [improves_of_below hm hdone ht hbelow, (hm.below t ht).2 hbelow, hbelow]
    · have hnot : (err t).lt threshold = false := by
        rw [← Bool.not_eq_true, hm.below t ht]
        exact hbelow
      have hdone' : ∀ u ∈ done ++ [t], u ∈ all ∧ bound ≤ val u :=
        List.forall_mem_append.2 ⟨hdone, by simpa using ⟨ht, not_lt.1 hbelow⟩⟩
      have hrest := ih hl' (done ++ [t]) hdone'
      rw [bestOf_concat hm (fun u hu => (hdone u hu).1) ht, List.append_assoc, List.singleton_append] at hrest
      simp only [hnot, hbelow, decide_false, ← hrest]
      split <;> simp

end

/-- The exact search over the rational error of R96: the first candidate below 1/1000, else the first of
least error (R100). -/
theorem search_exact_eq (pclk : Nat) {baud : Nat} (hbaud : baud ≠ 0) (dl0 : Nat) :
    search (errOf .exact pclk baud) (thresholdOf .exact) (searchSpace dl0) none =
      ((searchSpace dl0).find? fun t => decide (errRat pclk baud t < 1 / 1000)).or
        ((searchSpace dl0).argmin (errRat pclk baud)) :=
  search_bestOf (errExact_measures pclk hbaud dl0) _ (fun _ hu => hu) [] (by simp)

/-- The result `t` of R100 for the errors `val` and the threshold `bound`, among the candidates of `l` in the
order of R94. -/
def FirstBelowOrLeast (val : Triple → ℚ) (bound : ℚ) (l : List Triple) (t : Triple) : Prop :=
  (val t < bound ∧ ∀ u ∈ l, u.Before t → bound ≤ val u) ∨
  ((∀ u ∈ l, bound ≤ val u ∧ val t ≤ val u) ∧ ∀ u ∈ l, u.Before t → val t < val u)

/-- In a list that stands in the order of R94, the first of the list is the first of that order. -/
theorem firstBelowOrLeast_of_find?_or_argmin {val : Triple → ℚ} {bound : ℚ} {l : List Triple} {t : Triple}
    (hl : l.Pairwise Triple.Before)
    (ht : (l.find? fun t => decide (val t < bound)).or (l.argmin val) = some t) :
    FirstBelowOrLeast val bound l t := by
  obtain hfind | ⟨hnone, hmin⟩ := Option.or_eq_some_iff.1 ht
  · refine .inl ⟨by simpa using List.find?_some hfind, fun u hu hut => ?_⟩
    simpa using eq_false_of_before_find? hl hfind hu hut
  · rw [List.find?_eq_none] at hnone
    exact .inr ⟨fun u hu => ⟨by simpa using hnone u hu, List.le_of_mem_argmin hu hmin⟩,
      fun u hu hut => lt_of_before_argmin hl hmin hu hut⟩

/-- Settles O19: the candidates stand in the order of R94, so that the first of the list that the search
answers is the first of that order. -/
theorem exactDivisorSearchHasTheClosedForm : Obligations.ExactDivisorSearchHasTheClosedForm := by
  unfold Obligations.ExactDivisorSearchHasTheClosedForm
  intro pclk baud hbaud hle hwidth hrem err dl0 candidate before
  obtain ⟨t, ht⟩ := Option.ne_none_iff_exists'.1 (mt (divisorOf_eq_none_iff .exact pclk baud).1
    (not_not.2 ⟨hbaud, hle, hwidth⟩))
  have hsearch : search (errOf .exact pclk baud) (thresholdOf .exact) (searchSpace dl0) none = some t := by
    obtain ⟨-, heq⟩ | ⟨-, hexact, -⟩ | ⟨-, -, heq⟩ := divisorOf_cases .exact pclk baud
    · cases heq.symm.trans ht
    · exact absurd hexact hrem
    · exact heq.symm.trans ht
  have hcand : ∀ u, candidate u ↔ u ∈ searchSpace dl0 := fun u => (mem_searchSpace dl0 u).symm
  have hmem : t ∈ searchSpace dl0 := by simpa using search_mem _ _ _ _ _ hsearch
  refine ⟨t, ht, (hcand t).2 hmem, ?_⟩
  simp only [hcand]
  rw [search_exact_eq pclk hbaud] at hsearch
  exact firstBelowOrLeast_of_find?_or_argmin (searchSpace_pairwise_before dl0) hsearch

end Sys2Proof.Machine
end

