-- ==== Sys2Proof/Proofs/LineFormat.lean ====
section
/-! FORMAT checks its operands in order and writes the whole line-control word, and the word's fields give
the operands back (41_line_format.md R106-R109). Each field of the word is read once, by position; the
obligations follow from these readings and from the branches of the validation. -/

namespace Sys2Proof.Machine

/-! ### The fields of the word (R106) -/

section
variable (bits : BitVec 4) (par : Parity) (stops : BitVec 2)

theorem lcrFormat_wordLength : (lcrFormat bits par stops).extractLsb' 0 2 = (bits - 5).setWidth 2 := by
  rw [lcrFormat, extract_append_low _ _ _ _ (by omega), BitVec.extractLsb'_eq_self]

theorem lcrFormat_stopBits : (lcrFormat bits par stops).extractLsb' 2 1 = (stops - 1).setWidth 1 := by
  rw [lcrFormat, extract_append_high _ _ _ _ (by omega), extract_append_low _ _ _ _ (by omega),
    BitVec.extractLsb'_eq_self]

theorem lcrFormat_paritySelect : (lcrFormat bits par stops).extractLsb' 4 2 = (parityBits par).2 := by
  rw [lcrFormat, extract_append_high _ _ _ _ (by omega), extract_append_high _ _ _ _ (by omega),
    extract_append_high _ _ _ _ (by omega), extract_append_low _ _ _ _ (by omega), BitVec.extractLsb'_eq_self]

theorem lcrFormat_breakAndDlab : (lcrFormat bits par stops).extractLsb' 6 2 = 0 := by
  rw [lcrFormat, extract_append_high _ _ _ _ (by omega), extract_append_high _ _ _ _ (by omega),
    extract_append_high _ _ _ _ (by omega), extract_append_high _ _ _ _ (by omega), BitVec.extractLsb'_eq_self]

/-- PE is 0 exactly for parity none. -/
theorem lcrFormat_parityEnable : (lcrFormat bits par stops).getLsbD 3 = decide (par ≠ .none) := by
  have hpe : (lcrFormat bits par stops).getLsbD 3 = (parityBits par).1.getLsbD 0 := by
    simp only [lcrFormat, BitVec.getLsbD_append]
    rfl
  rw [hpe]
  cases par <;> rfl

end

/-- Two bits hold a word length of 5 to 8, less 5. -/
theorem wordLength_toNat {bits : BitVec 4} (hlo : 5 ≤ bits.toNat) (hhi : bits.toNat ≤ 8) :
    ((bits - 5).setWidth 2).toNat = bits.toNat - 5 := by bv_omega

/-- One bit holds a number of stop bits of 1 or 2, less 1. -/
theorem stopBits_toNat {stops : BitVec 2} (hlo : 1 ≤ stops.toNat) (hhi : stops.toNat ≤ 2) :
    ((stops - 1).setWidth 1).toNat = stops.toNat - 1 := by bv_omega

/-! ### Validation (R81, R107) -/

/-- A code up to 4 names a parity; its bits are PE = (code ≠ 0) and PS = code - 1, which is 0 for none. -/
theorem parityOf_of_le {c : BitVec 3} (hc : c.toNat ≤ 4) :
    ∃ par, parityOf c = some par ∧ (par ≠ .none ↔ c.toNat ≠ 0) ∧ (parityBits par).2.toNat = c.toNat - 1 := by
  unfold parityOf
  generalize c.toNat = n at hc ⊢
  interval_cases n <;> exact ⟨_, rfl, by decide, rfl⟩

theorem parityOf_of_lt {c : BitVec 3} (hc : 4 < c.toNat) : parityOf c = none := by
  unfold parityOf
  split
  case h_6 => rfl
  all_goals omega

section
variable {bits : BitVec 4} {par : BitVec 3} {stops : BitVec 2}

theorem validateFormat_dataBits (hbits : ¬ (5 ≤ bits.toNat ∧ bits.toNat ≤ 8)) :
    validateFormat bits par stops = .error (.configurationError .dataBits) := by
  rw [validateFormat, if_pos hbits]

theorem validateFormat_stopBits (hbits : 5 ≤ bits.toNat ∧ bits.toNat ≤ 8)
    (hstops : ¬ (1 ≤ stops.toNat ∧ stops.toNat ≤ 2)) :
    validateFormat bits par stops = .error (.configurationError .stopBits) := by
  rw [validateFormat, if_neg (not_not.2 hbits), if_pos hstops]

theorem validateFormat_parity (hbits : 5 ≤ bits.toNat ∧ bits.toNat ≤ 8)
    (hstops : 1 ≤ stops.toNat ∧ stops.toNat ≤ 2) (hpar : parityOf par = none) :
    validateFormat bits par stops = .error (.configurationError .parity) := by
  rw [validateFormat, if_neg (not_not.2 hbits), if_neg (not_not.2 hstops), hpar]

theorem validateFormat_ok {pr : Parity} (hbits : 5 ≤ bits.toNat ∧ bits.toNat ≤ 8)
    (hstops : 1 ≤ stops.toNat ∧ stops.toNat ≤ 2) (hpar : parityOf par = some pr) :
    validateFormat bits par stops = .ok pr := by
  rw [validateFormat, if_neg (not_not.2 hbits), if_neg (not_not.2 hstops), hpar]

/-! ### FORMAT (R107, R108) -/

variable {s : State} {port : PortField} {p : Port}

/-- FORMAT from FG on an initialised port, when a check fails: the fault is recorded, nothing is written. -/
theorem exec_format_of_error {c : FaultCause} (hfg : s.agent = .fg) (hport : port.toNat = p.val)
    (hinit : (s.port p).initialized = true) (hc : validateFormat bits par stops = .error c) :
    exec (.format port bits par stops) s = .next (s.withFault c 0x02 port) := by
  show execFormat port bits par stops s = _
  rw [execFormat, checked_fg s .format port p _ (by decide) hfg hport hinit, hc]
  rfl

/-- FORMAT from FG on an initialised port, when every check passes: one write of the whole LCR. -/
theorem exec_format_of_ok {pr : Parity} (hfg : s.agent = .fg) (hport : port.toNat = p.val)
    (hinit : (s.port p).initialized = true) (hpr : validateFormat bits par stops = .ok pr) :
    exec (.format port bits par stops) s = .next (s.writeLcr p (lcrFormat bits pr stops)) := by
  show execFormat port bits par stops s = _
  rw [execFormat, checked_fg s .format port p _ (by decide) hfg hport hinit, hpr]

end

/-- Settles O23: the word written is LcrFormat of the operands, whose fields are read off by position. -/
theorem formatWritesTheLineControlWord : Obligations.FormatWritesTheLineControlWord := by
  unfold Obligations.FormatWritesTheLineControlWord
  intro s port p bits par stops hfg hport hinit hb5 hb8 hs1 hs2 hpar
  obtain ⟨pr, hpr, henable, hselect⟩ := parityOf_of_le hpar
  refine ⟨_, lcrFormat bits pr stops,
    exec_format_of_ok hfg hport hinit (validateFormat_ok ⟨hb5, hb8⟩ ⟨hs1, hs2⟩ hpr), ?_⟩
  rw [writeLcr_eq]
  refine ⟨onlyPort_modPort_emit .., by rw [emit_port, modPort_port_same], rfl, ?_, ?_, ?_, ?_, ?_⟩
  · rw [lcrFormat_wordLength, wordLength_toNat hb5 hb8]
  · rw [lcrFormat_stopBits, stopBits_toNat hs1 hs2]
  · rw [lcrFormat_parityEnable, decide_eq_true_iff, henable]
  · rw [lcrFormat_paritySelect, hselect]
  · exact lcrFormat_breakAndDlab bits pr stops

/-- Settles O24: each check that fails, after the ones before it passed, is the error of the validation. -/
theorem formatChecksInOrder : Obligations.FormatChecksInOrder := by
  unfold Obligations.FormatChecksInOrder
  intro s port p bits par stops hfg hport hinit badBits badStops badPar
  have hstops : badStops ↔ ¬ (1 ≤ stops.toNat ∧ stops.toNat ≤ 2) := by omega
  refine ⟨fun hb => ?_, fun hb hs => ?_, fun hb hs hp => ?_⟩
  · exact exec_format_of_error hfg hport hinit (validateFormat_dataBits hb)
  · exact exec_format_of_error hfg hport hinit (validateFormat_stopBits (not_not.1 hb) (hstops.1 hs))
  · exact exec_format_of_error hfg hport hinit
      (validateFormat_parity (not_not.1 hb) (not_not.1 (mt hstops.2 hs)) (parityOf_of_lt (not_le.1 hp)))

/-! ### The inverse decoding (R109) -/

/-- On legal operands lcrDecode is a left inverse of lcrFormat. -/
theorem lcrDecode_lcrFormat {bits : BitVec 4} {stops : BitVec 2} (par : Parity) (hb5 : 5 ≤ bits.toNat)
    (hb8 : bits.toNat ≤ 8) (hs1 : 1 ≤ stops.toNat) (hs2 : stops.toNat ≤ 2) :
    lcrDecode (lcrFormat bits par stops) = (bits, par, stops) := by
  have hbits : ((bits - 5).setWidth 2).setWidth 4 + 5 = bits := by bv_omega
  have hstops : ((stops - 1).setWidth 1).setWidth 2 + 1 = stops := by bv_omega
  rw [lcrDecode, lcrFormat_wordLength, lcrFormat_stopBits, lcrFormat_parityEnable, lcrFormat_paritySelect, hbits,
    hstops]
  cases par <;> rfl

/-- Settles O25: each operand is read off its field, and lcrDecode is a left inverse of lcrFormat. -/
theorem lineControlWordDecodesBack : Obligations.LineControlWordDecodesBack := by
  unfold Obligations.LineControlWordDecodesBack
  intro bits par stops hb5 hb8 hs1 hs2 v
  refine ⟨?_, ?_, ?_, ?_, lcrDecode_lcrFormat par hb5 hb8 hs1 hs2⟩
  · rw [lcrFormat_wordLength, wordLength_toNat hb5 hb8, Nat.sub_add_cancel hb5]
  · rw [lcrFormat_stopBits, stopBits_toNat hs1 hs2, Nat.sub_add_cancel hs1]
  · rw [lcrFormat_parityEnable]
    simp
  · rw [lcrFormat_parityEnable, lcrFormat_paritySelect]
    cases par <;> decide

end Sys2Proof.Machine
end

