-- ==== Sys2Proof/Proofs/InterruptArbiter.lean ====
section
/-! A request reaches the applicator, and an interrupt entry dispatches on INTID (42_interrupt_arbiter.md
R113-R118, R125-R128). Each outcome is one equation: the update of the port's row, of the RTS pin where
there is one, and the events. The obligations read their clauses off these equations. -/

namespace Sys2Proof.Machine

/-! ### The applicator after a slot's write (R113, R114, R116) -/

section
variable {s : State} {port : PortField} {p : Port} {f : PortState → PortState} {d : Dir}

/-- The enable branch after a write that leaves IER: one update of the row, and the four events in order
(R114). -/
theorem modPort_applyRequest_enable (hier : (f (s.port p)).ier = (s.port p).ier) :
    (s.modPort p f).applyRequest p d true =
      (s.modPort p fun q =>
        { f q with ier := { (f q).ier with en := (f q).ier.en.set d true }, vec := true, nvicEn := true }).emit
        [.regRead p (.ier (s.port p).ier),
         .regWrite p (.ier { (s.port p).ier with en := (s.port p).ier.en.set d true }),
         .nvicSetVector p, .nvicEnable p] := by
  show (s.modPort p f).enableLine p d = _
  rw [enableLine_eq, modPort_modPort, modPort_port_same, hier]

/-- The no-change branch after a write that leaves the direction wanted (R116). -/
theorem modPort_applyRequest_wanted
    (hwant : ((f (s.port p)).irqApi.get d || (f (s.port p)).irqFlow.get d) = true) :
    (s.modPort p f).applyRequest p d false = s.modPort p f := by
  have hreq : (s.modPort p f).requested p d = true := by rwa [State.requested, modPort_port_same]
  rw [State.applyRequest, if_neg Bool.false_ne_true, if_pos hreq]

/-- Only the row of the port may differ after an update of that row. -/
theorem onlyPort_modPort (s : State) (p : Port) (f : PortState → PortState) : OnlyPort p s (s.modPort p f) := by
  rw [← emit_nil (s.modPort p f)]
  exact onlyPort_modPort_emit s p f []

/-! ### The two requests (R117, R118) -/

/-- IRQ_SET from FG on an initialised port is the application's request. -/
theorem exec_irqSet_fg (en : Bool) (hfg : s.agent = .fg) (hport : port.toNat = p.val)
    (hinit : (s.port p).initialized = true) : exec (.irqSet port d en) s = .next (s.requestApi p d en) := by
  show execIrqSet port d en s = _
  rw [execIrqSet, checked_fg s .irqSet port p _ (by decide) hfg hport hinit]

/-- FLOW_IRQ_SET from FG on an initialised port is the flow control's request. -/
theorem exec_flowIrqSet_fg (en : Bool) (hfg : s.agent = .fg) (hport : port.toNat = p.val)
    (hinit : (s.port p).initialized = true) : exec (.flowIrqSet port d en) s = .next (s.requestFlow p d en) := by
  show execFlowIrqSet port d en s = _
  rw [execFlowIrqSet, checked_fg s .flowIrqSet port p _ (by decide) hfg hport hinit]

/-! ### The event an INTID reports (R126) -/

theorem eventOf_eq_tx_iff {iir : Byte} : eventOf iir = some .tx ↔ (iir.extractLsb' 1 3).toNat = 1 := by
  unfold eventOf
  split <;> simp_all

theorem eventOf_eq_rx_iff {iir : Byte} : eventOf iir = some .rx ↔ (iir.extractLsb' 1 3).toNat = 2 := by
  unfold eventOf
  split <;> simp_all

theorem eventOf_eq_none_iff {iir : Byte} :
    eventOf iir = none ↔ (iir.extractLsb' 1 3).toNat ≠ 1 ∧ (iir.extractLsb' 1 3).toNat ≠ 2 := by
  unfold eventOf
  split <;> simp_all

/-! ### Interrupt entry (R125-R128) -/

/-- IRQ_ENTRY from the interrupt controller is the interrupt entry of its port (R125). -/
theorem exec_irqEntry_controller (hctl : s.agent = .controller) (hport : port.toNat = p.val) :
    exec (.irqEntry port) s = .next (s.enterIsr p) := by
  show execIrqEntry port s = _
  rw [execIrqEntry, hctl, (portOf_eq_some port p).2 hport]

end

section
variable {s : State} {p : Port}

/-- The handler call of an entry on port `p` (R128): none while no identifier is registered. -/
abbrev handlerCall (s : State) (p : Port) (ev : Dir) : List Event :=
  if (s.port p).cbId = 0 then [] else [.handler (s.handlerOf p) (s.port p).cbId ev]

/-- A port's row after its handler was called, if an identifier is registered (R128, R180). -/
def PortState.handlerCalled (q : PortState) : PortState :=
  { q with isrStep := if q.cbId ≠ 0 then .inHandler else q.isrStep }

/-- The row after the call, under a condition that lets the entry get as far as the call. -/
theorem handlerCalled_eq_of {q : PortState} {c : Prop} [Decidable c] (hc : c) :
    q.handlerCalled = { q with isrStep := if c ∧ q.cbId ≠ 0 then .inHandler else q.isrStep } := by
  simp only [PortState.handlerCalled, hc, true_and]

/-- The handler call as one update of the row and its events. -/
theorem callHandler_eq (s : State) (p : Port) (ev : Dir) :
    s.callHandler p ev = (s.modPort p PortState.handlerCalled).emit (handlerCall s p ev) := by
  obtain ⟨hid, heq⟩ | ⟨hid, heq⟩ := callHandler_cases s p ev
  · have hrow : s.modPort p PortState.handlerCalled = s :=
      modPort_eq_self _ _ _ (by rw [PortState.handlerCalled, if_neg (not_not.2 hid)])
    rw [heq, hrow, handlerCall, if_pos hid, emit_nil]
  · have hrow : s.modPort p PortState.handlerCalled = s.modPort p fun q => { q with isrStep := .inHandler } :=
      modPort_congr _ _ _ _ (by rw [PortState.handlerCalled, if_pos hid])
    rw [heq, hrow, handlerCall, if_neg hid]

/-- An entry whose INTID names an event: the IIR read, the RTS pin, the handler call, in this order (R125). -/
theorem enterIsr_of_event {ev : Dir} (hev : eventOf s.draw.iir = some ev) :
    s.enterIsr p = ((s.readIir p).raiseRts p ev).callHandler p ev := by
  rw [State.enterIsr, hev]

/-- An entry whose INTID is ignored: the IIR read and nothing else (R126). -/
theorem enterIsr_of_ignored (hev : eventOf s.draw.iir = none) :
    s.enterIsr p = s.emit [.regRead p (.iir s.draw.iir)] := by
  rw [State.enterIsr, hev]
  rfl

/-- A TX entry, and an RX entry without software RTS: the IIR read, then the handler call. -/
theorem enterIsr_of_rts_kept {ev : Dir} (hev : eventOf s.draw.iir = some ev)
    (hkept : ev = .tx ∨ (s.port p).swRts = NC) :
    s.enterIsr p =
      (s.modPort p PortState.handlerCalled).emit (.regRead p (.iir s.draw.iir) :: handlerCall s p ev) := by
  have hrts : (s.readIir p).raiseRts p ev = s.readIir p := by
    cases ev with
    | tx => rfl
    | rx =>
      have hnc := hkept.resolve_left (by decide)
      exact ((raiseRts_cases (s.readIir p) p).resolve_right fun h => h.1 hnc).2
  rw [enterIsr_of_event hev, hrts, callHandler_eq, State.readIir, emit_modPort, emit_emit]
  rfl

theorem emit_setPin (s : State) (es : List Event) (k : Pin) (v : GpioPin) :
    (s.emit es).setPin k v = (s.setPin k v).emit es := rfl

/-- An RX entry under software RTS: the IIR read, the RTS pin high, then the handler call (R127). -/
theorem enterIsr_of_rts_raised (hev : eventOf s.draw.iir = some .rx) (hrts : (s.port p).swRts ≠ NC) :
    s.enterIsr p =
      ((s.modPort p PortState.handlerCalled).setPin (s.port p).swRts ⟨(s.pin (s.port p).swRts).dir, .high⟩).emit
        (.regRead p (.iir s.draw.iir) :: .gpioWrite (s.port p).swRts true :: handlerCall s p .rx) := by
  have hraise : (s.readIir p).raiseRts p .rx = (s.readIir p).gpioWrite (s.port p).swRts true :=
    ((raiseRts_cases (s.readIir p) p).resolve_left fun h => hrts h.1).2
  rw [enterIsr_of_event hev, hraise, callHandler_eq, State.readIir, State.gpioWrite, emit_setPin, emit_emit,
    emit_modPort, emit_emit]
  rfl

end

/-- Settles O27: the slot's write leaves IER, so that either request is the enable branch on it. -/
theorem enableRequestSetsBitVectorAndLine : Obligations.EnableRequestSetsBitVectorAndLine := by
  unfold Obligations.EnableRequestSetsBitVectorAndLine
  intro s port p d hfg hport hinit ier events
  constructor
  · refine ⟨_, exec_irqSet_fg true hfg hport hinit, ?_⟩
    rw [State.requestApi, modPort_applyRequest_enable rfl]
    exact ⟨onlyPort_modPort_emit .., rfl, by rw [emit_port, modPort_port_same]⟩
  · refine ⟨_, exec_flowIrqSet_fg true hfg hport hinit, ?_⟩
    rw [State.requestFlow, modPort_applyRequest_enable rfl]
    exact ⟨onlyPort_modPort_emit .., rfl, by rw [emit_port, modPort_port_same]⟩

/-- Settles O29: after the slot's write the other requester still wants the direction, so that the
applicator answers with no change. -/
theorem disableRequestKeptByTheOtherRequester : Obligations.DisableRequestKeptByTheOtherRequester := by
  unfold Obligations.DisableRequestKeptByTheOtherRequester
  intro s port p d hfg hport hinit
  refine ⟨fun hflow => ?_, fun hapi => ?_⟩
  · refine ⟨_, exec_irqSet_fg false hfg hport hinit, ?_⟩
    rw [State.requestApi, modPort_applyRequest_wanted (by simp [hflow])]
    exact ⟨onlyPort_modPort .., rfl, modPort_port_same ..⟩
  · refine ⟨_, exec_flowIrqSet_fg false hfg hport hinit, ?_⟩
    rw [State.requestFlow, modPort_applyRequest_wanted (by simp [hapi])]
    exact ⟨onlyPort_modPort .., rfl, modPort_port_same ..⟩

/-- Settles O31: one case for each outcome of the entry, by INTID and, on RX, by software RTS. -/
theorem isrDispatch : Obligations.IsrDispatch := by
  unfold Obligations.IsrDispatch
  intro s port p hctl hport intid rts read call
  refine ⟨_, exec_irqEntry_controller hctl hport, ?_⟩
  by_cases htx : intid = 1
  · have hrx : intid ≠ 2 := by omega
    have hrow := (modPort_port_same s p PortState.handlerCalled).trans
      (handlerCalled_eq_of (show intid = 1 ∨ intid = 2 from .inl htx))
    rw [enterIsr_of_rts_kept (eventOf_eq_tx_iff.2 htx) (.inl rfl)]
    obtain ⟨hrest, hothers, hmcr, hgpio, hfg⟩ := onlyPort_modPort_emit s p PortState.handlerCalled _
    exact ⟨hrest, hothers, hmcr, hfg, hrow, fun _ => hgpio, fun h => absurd htx h, fun _ => rfl,
      fun h => absurd h hrx, fun h => absurd h hrx⟩
  by_cases hrx : intid = 2
  · have hrow := (modPort_port_same s p PortState.handlerCalled).trans
      (handlerCalled_eq_of (show intid = 1 ∨ intid = 2 from .inr hrx))
    by_cases hrts : rts = NC
    · rw [enterIsr_of_rts_kept (eventOf_eq_rx_iff.2 hrx) (.inr hrts)]
      obtain ⟨hrest, hothers, hmcr, hgpio, hfg⟩ := onlyPort_modPort_emit s p PortState.handlerCalled _
      exact ⟨hrest, hothers, hmcr, hfg, hrow, fun _ => hgpio, fun _ h => absurd hrx h, fun h => absurd h htx,
        fun _ _ => rfl, fun _ h => absurd hrts h⟩
    · rw [enterIsr_of_rts_raised (eventOf_eq_rx_iff.2 hrx) hrts]
      obtain ⟨hrest, hothers, hmcr, -, hfg⟩ := onlyPort_modPort s p PortState.handlerCalled
      refine ⟨hrest, hothers, hmcr, hfg, hrow, fun h => (h.elim (· hrx) hrts).elim, fun _ h => absurd hrx h,
        fun h => absurd h htx, fun _ h => absurd h hrts, fun _ _ hwf => ?_⟩
      have hpin := fun k => setPin_pin (s.modPort p PortState.handlerCalled) hwf rts k ⟨(s.pin rts).dir, .high⟩
      have hhigh := (hpin rts).trans (if_pos rfl)
      exact ⟨rfl, congrArg GpioPin.out hhigh, (congrArg GpioPin.dir hhigh :),
        fun k hk => (hpin k).trans (if_neg hk.symm)⟩
  · rw [enterIsr_of_ignored (eventOf_eq_none_iff.2 ⟨htx, hrx⟩)]
    refine ⟨⟨rfl, rfl, rfl, rfl, rfl, rfl, rfl, rfl, rfl⟩, fun _ _ => rfl, rfl, rfl, ?_, fun _ => rfl, fun _ _ => rfl,
      fun h => absurd h htx, fun h => absurd h hrx, fun h => absurd h hrx⟩
    simp only [htx, hrx, or_self, false_and, if_false, emit_port]

end Sys2Proof.Machine
end

