-- ==== Sys2Proof/Proofs/FlowSequence.lean ====
section
/-! The six steps of the flow sequence, one equation for each branch, and an uninterrupted sequence as their
composition (44_flow_control.md R143-R153). Steps 1 to 4 leave MCR[1]'s auto bits, both pin slots and the
flow request off whatever they were; steps 5 and 6 connect on top of that. -/

namespace Sys2Proof.Machine

/-! ### Micro-steps of FG's command in progress (R17) -/

section
variable {s : State} {r : FlowRequest}

theorem advanceFg_of_idle (h : s.fgStep = .idle) : s.advanceFg = s := by rw [State.advanceFg, h]
theorem advanceFg_of_sfc1 (h : s.fgStep = .sfc1 r) : s.advanceFg = s.flowStep1 r := by rw [State.advanceFg, h]
theorem advanceFg_of_sfc2 (h : s.fgStep = .sfc2 r) : s.advanceFg = s.flowStep2 r := by rw [State.advanceFg, h]
theorem advanceFg_of_sfc3 (h : s.fgStep = .sfc3 r) : s.advanceFg = s.flowStep3 r := by rw [State.advanceFg, h]
theorem advanceFg_of_sfc4 (h : s.fgStep = .sfc4 r) : s.advanceFg = s.flowStep4 r := by rw [State.advanceFg, h]
theorem advanceFg_of_sfc5 (h : s.fgStep = .sfc5 r) : s.advanceFg = s.flowStep5 r := by rw [State.advanceFg, h]
theorem advanceFg_of_sfc6 (h : s.fgStep = .sfc6 r) : s.advanceFg = s.flowStep6 r := by rw [State.advanceFg, h]

/-- The last of `n + 1` micro-steps comes after the first `n`. -/
theorem advanceFgBy_succ (s : State) (n : Nat) : s.advanceFgBy (n + 1) = (s.advanceFgBy n).advanceFg := by
  induction n generalizing s with
  | zero => rfl
  | succ n ih => exact ih s.advanceFg

/-- A command that `n` micro-steps bring to its end ends in the same state when the step that took it has run
the first of them already: the micro-step left over finds FG idle (log 6). -/
theorem enterFg_advanceFgBy_of_idle {st : FgStep} {n : Nat} (hidle : ((s.setFgStep st).advanceFgBy n).fgStep = .idle) :
    (s.enterFg st).advanceFgBy n = (s.setFgStep st).advanceFgBy n := by
  by_cases hprompt : s.draw.prompt = true
  · have henter : s.enterFg st = (s.setFgStep st).advanceFg := if_pos hprompt
    calc (s.enterFg st).advanceFgBy n
        = (s.setFgStep st).advanceFgBy (n + 1) := by rw [henter, State.advanceFgBy]
      _ = ((s.setFgStep st).advanceFgBy n).advanceFg := advanceFgBy_succ _ n
      _ = (s.setFgStep st).advanceFgBy n := advanceFg_of_idle hidle
  · have henter : s.enterFg st = s.setFgStep st := if_neg hprompt
    rw [henter]

/-- SET_FLOW_CONTROL from FG on an initialised port enters the sequence before step 1 (R143). -/
theorem exec_setFlowControl_fg {port : PortField} {p : Port} {mode : FlowMode} {rxPin txPin : Pin}
    (hfg : s.agent = .fg) (hport : port.toNat = p.val) (hinit : (s.port p).initialized = true) :
    exec (.setFlowControl port mode rxPin txPin) s = .next (s.enterFg (.sfc1 ⟨p, mode, rxPin, txPin, false⟩)) := by
  show execSetFlowControl port mode rxPin txPin s = _
  rw [execSetFlowControl, checked_fg s .setFlowControl port p _ (by decide) hfg hport hinit]

end

/-! ### Events that set up or drive no pin -/

/-- The event is a GpioInit or a GpioWrite (R41). -/
def Event.setsPin : Event → Bool
  | .gpioInit _ _ => true
  | .gpioWrite _ _ => true
  | _ => false

/-- None of the events sets up or drives a pin. -/
abbrev PinFree (es : List Event) : Prop := es.any Event.setsPin = false

theorem PinFree.append {xs ys : List Event} (hx : PinFree xs) (hy : PinFree ys) : PinFree (xs ++ ys) := by
  rw [PinFree, List.any_append, hx, hy]
  rfl

theorem PinFree.not_mem {es : List Event} (h : PinFree es) (pin : Pin) (dir : GpioDir) (b : Bool) :
    .gpioInit pin dir ∉ es ∧ .gpioWrite pin b ∉ es :=
  ⟨fun hmem => List.any_eq_false.1 h _ hmem rfl, fun hmem => List.any_eq_false.1 h _ hmem rfl⟩

/-! ### Step 2: the flow request (R145) -/

/-- A flow request writes its port's row and the trace, and no pin. -/
theorem requestFlow_writes (s : State) (p : Port) (d : Dir) (en : Bool) :
    ∃ f es, s.requestFlow p d en = (s.modPort p f).emit es ∧ PinFree es := by
  unfold State.requestFlow
  generalize (fun q : PortState => { q with irqFlow := q.irqFlow.set d en }) = g
  obtain ⟨-, h⟩ | ⟨-, -, h⟩ | ⟨-, -, h⟩ := applyRequest_cases (s.modPort p g) p d en
  · rw [h, enableLine_eq, modPort_modPort]
    exact ⟨_, _, rfl, rfl⟩
  · rw [h, disableLine_eq]
    split <;> rw [modPort_modPort] <;> exact ⟨_, _, rfl, rfl⟩
  · rw [h]
    exact ⟨g, [], (emit_nil _).symm, rfl⟩

theorem requestFlow_agent (s : State) (p : Port) (d : Dir) (en : Bool) : (s.requestFlow p d en).agent = s.agent := by
  obtain ⟨f, es, heq, -⟩ := requestFlow_writes s p d en
  rw [heq]
  rfl

/-- Step 2 is FLOW_IRQ_SET p, RX, 0 as FG presents it, whoever moved before it (R145, R151). -/
theorem flowStep2_eq_exec {s : State} {r : FlowRequest} (hinit : (s.port r.port).initialized = true) :
    ∃ u, exec (.flowIrqSet (fieldOfPort r.port) .rx false) (s.presentedBy .fg) = .next u ∧
      s.flowStep2 r = { u with fgStep := .sfc3 r, agent := s.agent } := by
  have hfield : (fieldOfPort r.port).toNat = r.port.val := (portOf_eq_some _ _).1 (portOf_fieldOfPort r.port)
  refine ⟨_, exec_flowIrqSet_fg false rfl hfield hinit, ?_⟩
  rw [requestFlow_presentedBy, ← requestFlow_agent s r.port .rx false]
  rfl

/-! ### Steps 3 and 4 (R146, R147) -/

/-- A port's row with both pin slots cleared. -/
def PortState.withoutFlowPins (q : PortState) : PortState := { q with swRts := NC, swCts := NC }

theorem flowStep3_eq (s : State) (r : FlowRequest) :
    s.flowStep3 r = (s.modPort r.port PortState.withoutFlowPins).setFgStep (.sfc4 r) := rfl

theorem flowStep4_of_mode_ne_none (s : State) {r : FlowRequest} (hmode : r.mode ≠ .none) :
    s.flowStep4 r = s.setFgStep (.sfc5 r) := if_neg hmode

/-- The end of a sequence: FG is idle, and INIT's has its response (R147, R155). -/
theorem endFlow_eq (s : State) (r : FlowRequest) :
    s.endFlow r = (s.setFgStep .idle).emit (if r.respond then [.response (wordOfPort r.port)] else []) := by
  unfold State.endFlow
  cases r.respond
  · exact (emit_nil (s.setFgStep .idle)).symm
  · rfl

theorem flowStep4_of_mode_none (s : State) {r : FlowRequest} (hmode : r.mode = .none) :
    s.flowStep4 r = s.endFlow r := if_pos hmode

/-! ### Step 5 (R148) -/

/-- The auto bits' read-modify-write after other events: one write of MCR[1], its two accesses last (R35). -/
theorem emit_updateMcr (s : State) (es : List Event) (m : Mcr) :
    (s.emit es).updateMcr m = (s.setMcr1 m).emit (es ++ [.regRead 1 (.mcr s.mcr1), .regWrite 1 (.mcr m)]) :=
  emit_emit (s.setMcr1 m) es _

/-- A pin that maps to a port is present. -/
theorem pinmap_some_ne_nc {plat : Platform} {pin : Pin} {sig : Signal} {p : Port} (h : pinmap plat pin sig = some p) :
    pin ≠ NC := by
  rintro rfl
  cases h

section
variable {s : State} {r : FlowRequest}

theorem flowStep5_of_absent (habsent : ¬((r.mode = .cts ∨ r.mode = .rtsCts) ∧ r.txPin ≠ NC)) :
    s.flowStep5 r = { s with fgStep := .sfc6 r } := by
  rw [State.flowStep5, if_neg (mt (And.imp_left (includesCts_iff _).1) habsent)]
  rfl

theorem flowStep5_of_hardware (hwants : (r.mode = .cts ∨ r.mode = .rtsCts) ∧ r.txPin ≠ NC)
    (hhw : r.port = 1 ∧ pinmap s.platform r.txPin .cts = some 1) :
    s.flowStep5 r = { s with
      fgStep := .sfc6 r
      mcr1 := { s.mcr1 with autoCts := true }
      trace := s.trace ++
        [.pinOut r.txPin .cts, .regRead 1 (.mcr s.mcr1), .regWrite 1 (.mcr { s.mcr1 with autoCts := true })] } := by
  rw [State.flowStep5, if_pos (hwants.imp_left (includesCts_iff _).2), State.connectCts,
    if_pos ((autoPin_iff ..).2 hhw), State.setAutoCts, State.pinOut, emit_updateMcr]
  rfl

theorem flowStep5_of_gpio (hwants : (r.mode = .cts ∨ r.mode = .rtsCts) ∧ r.txPin ≠ NC)
    (hsw : ¬(r.port = 1 ∧ pinmap s.platform r.txPin .cts = some 1)) :
    s.flowStep5 r =
      ((s.gpioInit r.txPin .input).modPort r.port fun q => { q with swCts := r.txPin }).setFgStep (.sfc6 r) := by
  rw [State.flowStep5, if_pos (hwants.imp_left (includesCts_iff _).2), State.connectCts,
    if_neg (mt (autoPin_iff ..).1 hsw)]

/-! ### Step 6 on the hardware path (R149) -/

theorem flowStep6_of_hardware (hwants : (r.mode = .rts ∨ r.mode = .rtsCts) ∧ r.rxPin ≠ NC)
    (hhw : r.port = 1 ∧ pinmap s.platform r.rxPin .rts = some 1) :
    s.flowStep6 r = (((s.modPort r.port fun q => { q with fifoEn := .on, rxTrigger := .one }).setMcr1
        { s.mcr1 with autoRts := true }).emit
      [.regWrite r.port (.fcr ⟨true, true, false, s.platform.rxTriggerOne, s.draw.fcrRest⟩), .pinOut r.rxPin .rts,
       .regRead 1 (.mcr s.mcr1), .regWrite 1 (.mcr { s.mcr1 with autoRts := true })]).endFlow r := by
  have hauto : autoPin s.platform r.port r.rxPin .rts = true := (autoPin_iff ..).2 hhw
  rw [State.flowStep6, if_pos (hwants.imp_left (includesRts_iff _).2), State.connectRts, resetFifos_eq]
  simp only [hauto, if_true, State.setAutoRts, State.pinOut, emit_emit, emit_updateMcr]
  rfl

end

/-! ### An uninterrupted sequence (R151) -/

/-- The state after steps 1 to 4 of a sequence that goes on. -/
def State.flowCleared (s : State) (r : FlowRequest) : State :=
  (((s.flowStep1 r).flowStep2 r).flowStep3 r).flowStep4 r

/-- Six micro-steps of a sequence whose mode is not none are its steps 1 to 6, after which FG is idle, whether
or not the step that took the command ran step 1. -/
theorem enterFg_sfc1_advanceFgBy_six (s : State) (r : FlowRequest) (hmode : r.mode ≠ .none) :
    (s.enterFg (.sfc1 r)).advanceFgBy 6 = ((s.flowCleared r).flowStep5 r).flowStep6 r := by
  have hgoes : (s.flowCleared r).fgStep = .sfc5 r := by rw [State.flowCleared, flowStep4_of_mode_ne_none _ hmode]; rfl
  have hcleared : (s.setFgStep (.sfc1 r)).flowCleared r = s.flowCleared r := by
    simp only [State.flowCleared, flowStep1_eq]
    rfl
  have hsteps : (s.setFgStep (.sfc1 r)).advanceFgBy 6 = ((s.flowCleared r).flowStep5 r).flowStep6 r := by
    show ((s.setFgStep (.sfc1 r)).flowCleared r).advanceFg.advanceFg = _
    rw [hcleared, advanceFg_of_sfc5 hgoes, advanceFg_of_sfc6 rfl]
  rw [← hsteps]
  refine enterFg_advanceFgBy_of_idle ?_
  rw [hsteps, State.flowStep6, endFlow_eq]
  rfl

/-- What steps 1 to 4 of a sequence leave, whatever the port held before it. -/
structure FlowCleared (s : State) (r : FlowRequest) (t : State) : Prop where
  rest   : SameRest s t
  gpio   : t.gpio = s.gpio
  mcr1   : t.mcr1 = if r.port = 1 then { s.mcr1 with autoRts := false, autoCts := false } else s.mcr1
  swRts  : (t.port r.port).swRts = NC
  swCts  : (t.port r.port).swCts = NC
  flowRx : (t.port r.port).irqFlow.rx = false
  trace  : ∃ es, t.trace = s.trace ++ es ∧ PinFree es

/-- The MCR access of step 1 and the flow request of step 2 are all that steps 1 to 4 ask of the
collaborators (R144-R147). -/
theorem flowCleared_spec (s : State) (r : FlowRequest) (hmode : r.mode ≠ .none) : FlowCleared s r (s.flowCleared r) := by
  obtain ⟨f, es, hreq, hfree⟩ := requestFlow_writes (s.flowStep1 r) r.port .rx false
  have hflow := (requestFlow_port (s.flowStep1 r) r.port .rx false).1
  rw [hreq, emit_port, modPort_port_same] at hflow
  have heq : s.flowCleared r =
      (((s.flowStep1 r).modPort r.port fun q => (f q).withoutFlowPins).emit es).setFgStep (.sfc5 r) := by
    rw [State.flowCleared, flowStep4_of_mode_ne_none _ hmode, flowStep3_eq, State.flowStep2, hreq,
      ← modPort_modPort (s.flowStep1 r) r.port f PortState.withoutFlowPins]
    rfl
  have hrow := modPort_port_same (s.flowStep1 r) r.port fun q => (f q).withoutFlowPins
  obtain ⟨hrest, -, hmcr, hgpio, -⟩ :=
    onlyPort_modPort_emit (s.flowStep1 r) r.port (fun q => (f q).withoutFlowPins) es
  rw [heq]
  rw [flowStep1_eq] at hrest hmcr hgpio hrow hflow ⊢
  refine ⟨hrest, hgpio, hmcr, congrArg PortState.swRts hrow, congrArg PortState.swCts hrow, ?_, ?_⟩
  · exact (congrArg (fun q => q.irqFlow.rx) hrow).trans (congrArg PerDir.rx hflow)
  · refine ⟨_, List.append_assoc .., PinFree.append ?_ hfree⟩
    split <;> rfl

/-! ### RTS and CTS in hardware (R153) -/

/-- The request of mode RTS+CTS that SET_FLOW_CONTROL makes on port 1. -/
def hardwareRequest (rtsPin ctsPin : Pin) : FlowRequest := ⟨1, .rtsCts, rtsPin, ctsPin, false⟩

/-- Steps 5 and 6 on their hardware branches: both auto bits, the FIFO reset, and no pin set. -/
theorem flowStep6_flowStep5_of_hardware {t : State} {rtsPin ctsPin : Pin} (hrts : pinmap t.platform rtsPin .rts = some 1)
    (hcts : pinmap t.platform ctsPin .cts = some 1) :
    ∃ es, (t.flowStep5 (hardwareRequest rtsPin ctsPin)).flowStep6 (hardwareRequest rtsPin ctsPin) =
        (((t.modPort 1 fun q => { q with fifoEn := .on, rxTrigger := .one }).setMcr1
          { t.mcr1 with autoRts := true, autoCts := true }).emit es).setFgStep .idle ∧
      PinFree es := by
  rw [flowStep5_of_hardware ⟨.inr rfl, pinmap_some_ne_nc hcts⟩ ⟨rfl, hcts⟩,
    flowStep6_of_hardware ⟨.inr rfl, pinmap_some_ne_nc hrts⟩ ⟨rfl, hrts⟩]
  simp only [State.emit, setMcr1_trace, modPort_trace, List.append_assoc]
  refine ⟨_, rfl, ?_⟩
  rfl

/-- Settles O42: one branch equation for each step. -/
theorem flowStepsOneToFour : Obligations.FlowStepsOneToFour := by
  unfold Obligations.FlowStepsOneToFour
  intro s r
  refine ⟨fun h => ?_, fun h hinit => ?_, fun h => ?_, fun h => ?_⟩
  · rw [advanceFg_of_sfc1 h]
    exact flowStep1_eq s r
  · rw [advanceFg_of_sfc2 h]
    obtain ⟨u, hexec, hstep⟩ := flowStep2_eq_exec hinit
    exact ⟨u, hexec, hstep, (requestFlow_port s r.port .rx false).1⟩
  · rw [advanceFg_of_sfc3 h, flowStep3_eq]
    exact ⟨onlyPort_modPort { s with fgStep := .sfc4 r } r.port PortState.withoutFlowPins, rfl, modPort_port_same ..⟩
  · rw [advanceFg_of_sfc4 h]
    split
    · next hmode =>
      rw [flowStep4_of_mode_none s hmode, endFlow_eq]
      rfl
    · next hmode => exact flowStep4_of_mode_ne_none s hmode

/-- Settles O43: the three branches of step 5; on the GPIO branch the canonical form makes the record read
back. -/
theorem flowStepFiveConnectsCts : Obligations.FlowStepFiveConnectsCts := by
  unfold Obligations.FlowStepFiveConnectsCts
  intro s r h wants hardware auto
  rw [advanceFg_of_sfc5 h]
  refine ⟨flowStep5_of_absent, flowStep5_of_hardware, fun hwants hsw hwf => ?_⟩
  rw [flowStep5_of_gpio hwants hsw]
  obtain ⟨hrest, hothers, hmcr, -, -⟩ :=
    onlyPort_modPort (s.gpioInit r.txPin .input) r.port fun q => { q with swCts := r.txPin }
  have hpin := fun k => gpioInit_pin s hwf r.txPin k .input
  have hrow := modPort_port_same (s.gpioInit r.txPin .input) r.port fun q => { q with swCts := r.txPin }
  exact ⟨hrest, hothers, hmcr, rfl, rfl, hrow, congrArg GpioPin.dir ((hpin r.txPin).trans (if_pos rfl)),
    fun k hk => (hpin k).trans (if_neg hk.symm)⟩

/-- Settles O45: steps 1 to 4 clear what the port held, and steps 5 and 6 take their hardware branches, whose
own events set no pin. -/
theorem hardwareFlowControlOnPortOne : Obligations.HardwareFlowControlOnPortOne := by
  unfold Obligations.HardwareFlowControlOnPortOne
  intro s rtsPin ctsPin hfg hinit hrts hcts
  have hmode : (hardwareRequest rtsPin ctsPin).mode ≠ .none := FlowMode.noConfusion
  have hexec : exec (.setFlowControl 1 .rtsCts rtsPin ctsPin) s =
      .next (s.enterFg (.sfc1 (hardwareRequest rtsPin ctsPin))) := exec_setFlowControl_fg hfg (by decide) hinit
  refine ⟨_, hexec, ?_⟩
  rw [enterFg_sfc1_advanceFgBy_six _ _ hmode]
  have hcleared := flowCleared_spec s (hardwareRequest rtsPin ctsPin) hmode
  generalize s.flowCleared (hardwareRequest rtsPin ctsPin) = t at hcleared ⊢
  obtain ⟨⟨hplat, -, hfault, -⟩, hgpio, hmcr, hswRts, hswCts, hflow, es, htrace, hfree⟩ := hcleared
  rw [← hplat] at hrts hcts
  obtain ⟨es', heq, hfree'⟩ := flowStep6_flowStep5_of_hardware hrts hcts
  rw [heq]
  have hrow := modPort_port_same t 1 fun q => { q with fifoEn := .on, rxTrigger := .one }
  refine ⟨rfl, hfault, ?_, (congrArg PortState.swRts hrow).trans hswRts, (congrArg PortState.swCts hrow).trans hswCts,
    (congrArg (fun q => q.irqFlow.rx) hrow).trans hflow, hgpio, es ++ es', ?_, (hfree.append hfree').not_mem⟩
  · show ({ t.mcr1 with autoRts := true, autoCts := true } : Mcr) = _
    rw [hmcr]
    rfl
  · show t.trace ++ es' = _
    rw [htrace, List.append_assoc]

end Sys2Proof.Machine
end

/-! INIT resolves its pins, and a whole INIT, run without another agent between its steps, is one update of its
port's row, of MCR[1] and of the trace (45_port_facade.md R154-R158). The atomic part is one update of the row;
the flow sequence of mode none that follows withdraws the flow request and clears the pin slots; the fields of the
composed row are then read off. -/

namespace Sys2Proof.Machine

/-! ### Resolving the pins (R154) -/

section
variable {plat : Platform} {txPin rxPin : Pin}

theorem resolvePins_of_txNone (htx : pinmap plat txPin .tx = none) :
    resolvePins plat txPin rxPin = .error (.pinMappingError .txNone) := by
  rw [resolvePins, htx]

theorem resolvePins_of_rxNone (htx : pinmap plat txPin .tx ≠ none) (hrx : pinmap plat rxPin .rx = none) :
    resolvePins plat txPin rxPin = .error (.pinMappingError .rxNone) := by
  obtain ⟨a, ha⟩ := Option.ne_none_iff_exists'.1 htx
  rw [resolvePins, ha, hrx]

theorem resolvePins_of_mismatch {a b : Port} (htx : pinmap plat txPin .tx = some a)
    (hrx : pinmap plat rxPin .rx = some b) (hne : a ≠ b) :
    resolvePins plat txPin rxPin = .error (.pinMappingError .mismatch) := by
  rw [resolvePins, htx, hrx]
  exact if_neg hne

theorem resolvePins_of_agree {p : Port} (htx : pinmap plat txPin .tx = some p) (hrx : pinmap plat rxPin .rx = some p) :
    resolvePins plat txPin rxPin = .ok p := by
  rw [resolvePins, htx, hrx]
  exact if_pos rfl

end

/-! ### INIT from FG -/

/-- The request of the sequence that INIT runs on port `p` (R155). -/
def initRequest (p : Port) : FlowRequest := ⟨p, .none, NC, NC, true⟩

section
variable {s : State} {txPin rxPin : Pin}

/-- A failing resolution is recorded, and INIT does nothing else (R154). -/
theorem exec_init_of_error {c : FaultCause} (hfg : s.agent = .fg) (hc : resolvePins s.platform txPin rxPin = .error c) :
    exec (.init txPin rxPin) s = .next (s.withFault c 0x0E 0) := by
  have hmay : mayPresent s.agent .init = true := by rw [hfg]; rfl
  show execInit txPin rxPin s = _
  rw [execInit, if_pos hmay, hc]
  rfl

/-- On pins that select a port, with a clock that admits 9600 baud: the atomic part, then the flow sequence of
mode none (R155). -/
theorem exec_init_of_ok {p : Port} {d : Triple} (hfg : s.agent = .fg)
    (hp : resolvePins s.platform txPin rxPin = .ok p)
    (hd : divisorOf s.platform.dcArith s.platform.pclkHz 9600 = some d) :
    exec (.init txPin rxPin) s =
      .next (((s.initPower p).initLine p d txPin rxPin).enterFg (.sfc1 (initRequest p))) := by
  have hmay : mayPresent s.agent .init = true := by rw [hfg]; rfl
  have hdiv : s.divisor Config.defaultBaud = some d := hd
  show execInit txPin rxPin s = _
  rw [execInit, if_pos hmay, hp]
  simp only [State.initPort, hdiv]
  rfl

end

/-- Settles O50: each failing resolution is recorded, and two pins of one port resolve to it. -/
theorem initChecksThePins : Obligations.InitChecksThePins := by
  unfold Obligations.InitChecksThePins
  intro s txPin rxPin hfg
  refine ⟨fun _ => rfl, fun htx => ?_, fun htx hrx => ?_, fun a b htx hrx hne => ?_, fun a => resolvePins_of_agree⟩
  · exact exec_init_of_error hfg (resolvePins_of_txNone htx)
  · exact exec_init_of_error hfg (resolvePins_of_rxNone htx hrx)
  · exact exec_init_of_error hfg (resolvePins_of_mismatch htx hrx hne)

/-! ### The atomic part of INIT (R155, R157) -/

/-- A port's row after INIT's atomic part: powered, FIFOs on, the divisor of 9600 baud, 8-N-1. -/
def PortState.broughtUp (q : PortState) (d : Triple) : PortState :=
  { q with
    power := .on, pclkDiv1 := true, fifoEn := .on, rxTrigger := .one, initialized := true
    dlm := BitVec.ofNat 8 (d.dl / 256), dll := BitVec.ofNat 8 (d.dl % 256)
    fdr := BitVec.ofNat 8 (16 * d.mv + d.dav), lcr := 0x03 }

/-- What INIT's atomic part asks of the collaborators, on a port whose LCR is `old` (R155). -/
def initEvents (s : State) (p : Port) (d : Triple) (txPin rxPin : Pin) : List Event :=
  let old := (s.port p).lcr
  [.power p, .pclkDiv1 p, .regWrite p (.fcr ⟨true, true, true, s.platform.rxTriggerOne, s.draw.fcrRest⟩),
   .regRead p (.lcr old), .regWrite p (.lcr (old ||| 0x80)),
   .regWrite p (.dlm (BitVec.ofNat 8 (d.dl / 256))), .regWrite p (.dll (BitVec.ofNat 8 (d.dl % 256))),
   .regWrite p (.fdr (BitVec.ofNat 8 (16 * d.mv + d.dav))),
   .regRead p (.lcr (old ||| 0x80)), .regWrite p (.lcr (old &&& 0x7F)), .regWrite p (.lcr 0x03),
   .pinOut txPin .tx, .pinOut rxPin .rx, .pinMode txPin .pullUp, .pinMode rxPin .pullUp]

theorem initPower_eq (s : State) (p : Port) :
    s.initPower p =
      (s.modPort p fun q => { q with power := .on, pclkDiv1 := true, fifoEn := .on, rxTrigger := .one }).emit
        [.power p, .pclkDiv1 p, .regWrite p (.fcr ⟨true, true, true, s.platform.rxTriggerOne, s.draw.fcrRest⟩)] := by
  simp [State.initPower, State.powerOn, State.selectPclk, resetFifos_eq]

/-- The atomic part is one update of the port's row and its events. -/
theorem initPower_initLine_eq (s : State) (p : Port) {d : Triple} (txPin rxPin : Pin) (hdav : d.dav < 16)
    (hmv : d.mv < 16) :
    (s.initPower p).initLine p d txPin rxPin =
      (s.modPort p (·.broughtUp d)).emit (initEvents s p d txPin rxPin) := by
  have hlcr : lcrFormat 8 .none 1 = 0x03 := by decide
  simp only [State.initLine, initPower_eq, programDivisor_eq_of_range _ _ _ hdav hmv, writeLcr_eq, hlcr, State.pinOut,
    State.pullUp, emit_modPort, emit_emit, modPort_modPort, emit_port, modPort_port_same]
  rfl

/-! ### The flow sequence of mode none (R144-R147) -/

/-- A port's row with the flow request for RX withdrawn: the enable bit is the application's (R43), and `line` is
the interrupt line's state. -/
def PortState.withoutFlowRx (q : PortState) (line : Bool) : PortState :=
  { q with
    irqFlow := { q.irqFlow with rx := false }
    ier := { q.ier with en := { q.ier.en with rx := q.irqApi.rx } }
    nvicEn := line }

/-- Withdrawing the flow request for RX hands the enable bit to the application, whether it wants the direction
(R116) or not (R115). -/
theorem requestFlow_rx_off {s : State} {p : Port}
    (hen : (s.port p).ier.en.rx = ((s.port p).irqApi.rx || (s.port p).irqFlow.rx)) :
    ∃ line es, s.requestFlow p .rx false = (s.modPort p (·.withoutFlowRx line)).emit es := by
  unfold State.requestFlow
  obtain ⟨hfalse, -⟩ | ⟨-, hno, heq⟩ | ⟨-, hyes, heq⟩ :=
    applyRequest_cases (s.modPort p fun q => { q with irqFlow := q.irqFlow.set .rx false }) p .rx false
  · cases hfalse
  · have happ : (s.port p).irqApi.rx = false := by
      simpa [State.requested, PerDir.get, PerDir.set] using hno
    rw [heq, disableLine_eq, modPort_modPort, modPort_modPort]
    split
    · exact ⟨(s.port p).nvicEn, _, congrArg (State.emit · _)
        (modPort_congr _ _ _ _ (by simp [PortState.withoutFlowRx, PerDir.set, happ]))⟩
    · exact ⟨false, _, congrArg (State.emit · _)
        (modPort_congr _ _ _ _ (by simp [PortState.withoutFlowRx, PerDir.set, happ]))⟩
  · have happ : (s.port p).irqApi.rx = true := by
      simpa [State.requested, PerDir.get, PerDir.set] using hyes
    have hon : (s.port p).ier.en.rx = true := by rw [hen, happ, Bool.true_or]
    refine ⟨(s.port p).nvicEn, [], ?_⟩
    rw [heq, emit_nil]
    refine modPort_congr _ _ _ _ ?_
    simp only [PortState.withoutFlowRx, PerDir.set, happ, ← hon]

/-- Four micro-steps of a sequence of mode none are its steps 1 to 4, after which FG is idle, whether or not the
step that took the command ran step 1. -/
theorem enterFg_sfc1_advanceFgBy_four (s : State) (r : FlowRequest) (hmode : r.mode = .none) :
    (s.enterFg (.sfc1 r)).advanceFgBy 4 = s.flowCleared r := by
  have hsteps : (s.setFgStep (.sfc1 r)).advanceFgBy 4 = s.flowCleared r := by
    show (s.setFgStep (.sfc1 r)).flowCleared r = _
    simp only [State.flowCleared, flowStep1_eq]
    rfl
  rw [← hsteps]
  refine enterFg_advanceFgBy_of_idle ?_
  rw [hsteps, State.flowCleared, flowStep4_of_mode_none _ hmode, endFlow_eq]
  rfl

/-- MCR[1] after step 1 of a sequence on port `p` (R144). -/
abbrev autoBitsCleared (s : State) (p : Port) : Mcr :=
  if p = 1 then { s.mcr1 with autoRts := false, autoCts := false } else s.mcr1

/-- The read-modify-write of MCR[1] in step 1 of a sequence on port `p` (R144). -/
abbrev autoBitEvents (s : State) (p : Port) : List Event :=
  if p = 1 then
    [.regRead 1 (.mcr s.mcr1), .regWrite 1 (.mcr { s.mcr1 with autoRts := false, autoCts := false })] else []

/-- A port's row after steps 2 and 3: no flow request for RX and no flow pins, the line at `line` (R145, R146). -/
def PortState.flowOff (q : PortState) (line : Bool) : PortState := (q.withoutFlowRx line).withoutFlowPins

/-- A sequence of mode none is one update of its port's row, of MCR[1] and of the trace, and the sequence's end
(R144-R147). -/
theorem flowCleared_of_mode_none {s : State} {r : FlowRequest} (hmode : r.mode = .none)
    (hen : (s.port r.port).ier.en.rx = ((s.port r.port).irqApi.rx || (s.port r.port).irqFlow.rx)) :
    ∃ line es, s.flowCleared r =
      (((s.modPort r.port (·.flowOff line)).setMcr1 (autoBitsCleared s r.port)).emit es).endFlow r := by
  have hrow : (s.flowStep1 r).port r.port = s.port r.port := by
    rw [flowStep1_eq]
    rfl
  obtain ⟨line, es, hreq⟩ := requestFlow_rx_off (s := s.flowStep1 r) (by rwa [hrow])
  have hstep3 : ((s.flowStep1 r).flowStep2 r).flowStep3 r =
      (((s.flowStep1 r).modPort r.port (·.flowOff line)).emit es).setFgStep (.sfc4 r) := by
    rw [flowStep3_eq, State.flowStep2, hreq]
    exact congrArg (fun t : State => (t.emit es).setFgStep (.sfc4 r))
      (modPort_modPort (s.flowStep1 r) r.port (·.withoutFlowRx line) PortState.withoutFlowPins)
  refine ⟨line, autoBitEvents s r.port ++ es, ?_⟩
  rw [State.flowCleared, flowStep4_of_mode_none _ hmode, hstep3, endFlow_eq, endFlow_eq, ← emit_emit, flowStep1_eq]
  rfl

/-! ### The state after a whole INIT (R158) -/

/-- The latch holds a divisor of 16 bits. -/
theorem dl_broughtUp (q : PortState) {d : Triple} (hdl : d.dl ≤ 0xFFFF) : (q.broughtUp d).dl.toNat = d.dl := by
  show (BitVec.ofNat 8 (d.dl / 256) ++ BitVec.ofNat 8 (d.dl % 256)).toNat = d.dl
  rw [BitVec.toNat_append, ← Nat.shiftLeft_add_eq_or_of_lt (BitVec.isLt _), Nat.shiftLeft_eq, BitVec.toNat_ofNat,
    BitVec.toNat_ofNat]
  omega

/-- The atomic part and the sequence compose: a whole INIT is one update of its port's row, of MCR[1] and of the
trace, and the response. -/
theorem wholeInit_eq {s : State} {p : Port} {d : Triple} (txPin rxPin : Pin) (hdav : d.dav < 16) (hmv : d.mv < 16)
    (hen : (s.port p).ier.en.rx = ((s.port p).irqApi.rx || (s.port p).irqFlow.rx)) :
    ∃ line es, (((s.initPower p).initLine p d txPin rxPin).enterFg (.sfc1 (initRequest p))).advanceFgBy 4 =
      ((((s.modPort p fun q => (q.broughtUp d).flowOff line).setMcr1 (autoBitsCleared s p)).emit es).setFgStep
        .idle).respond (wordOfPort p) := by
  rw [enterFg_sfc1_advanceFgBy_four _ _ rfl, initPower_initLine_eq s p txPin rxPin hdav hmv]
  obtain ⟨line, es, heq⟩ := flowCleared_of_mode_none
    (s := (s.modPort p (·.broughtUp d)).emit (initEvents s p d txPin rxPin)) (r := initRequest p) rfl
    (by simpa [initRequest, PortState.broughtUp] using hen)
  refine ⟨line, initEvents s p d txPin rxPin ++ es, ?_⟩
  rw [heq, ← emit_emit, ← modPort_modPort s p (·.broughtUp d) (·.flowOff line)]
  rfl

/-- Settles O49: the fields are read off the row that INIT composes; the divisor in range fits the latch. -/
theorem stateAfterInit : Obligations.StateAfterInit := by
  unfold Obligations.StateAfterInit
  intro s txPin rxPin p d hfg htx hrx hd hen
  obtain ⟨-, hdl, -, hmv, hdav, -⟩ := divisorTripleIsInRange _ _ _ _ hd
  refine ⟨_, exec_init_of_ok hfg (resolvePins_of_agree htx hrx) hd, ?_⟩
  obtain ⟨line, es, heq⟩ := wholeInit_eq (d := d) txPin rxPin (by omega) (by omega) hen
  rw [heq]
  obtain ⟨hrest, hothers, -, hgpio, -⟩ := onlyPort_modPort s p fun q => (q.broughtUp d).flowOff line
  have hrow := modPort_port_same s p fun q => (q.broughtUp d).flowOff line
  intro u q old
  have hq : q = (old.broughtUp d).flowOff line := hrow
  clear_value q
  subst hq
  have hlatch : ((old.broughtUp d).flowOff line).dl.toNat = d.dl := dl_broughtUp old hdl
  exact ⟨rfl, List.getLast?_concat, rfl, rfl, rfl, rfl, rfl, hlatch, rfl, rfl, rfl, rfl, rfl,
    fun hp => if_pos hp, fun hp => if_neg hp, rfl, rfl, rfl, rfl, rfl, rfl, rfl, rfl, hgpio, hrest, hothers⟩

end Sys2Proof.Machine

/-! CommonChecks rejects a command for its context, its port field or `initialized`, in this order, and a
handler's return idles its ISR (60_exceptions.md R168-R170, R181). Every command but INIT and IRQ_ENTRY is a body
behind CommonChecks, so that the checks are settled once for all of them; INIT and IRQ_ENTRY make the context check
themselves. -/

namespace Sys2Proof.Machine

/-! ### What CommonChecks answers when a check fails (R170) -/

section
variable {s : State} {op : Op} {port : PortField}

/-- The context is checked first, whatever the port field says (R168). -/
theorem checked_of_context (body : Port → State) (hmay : mayPresent s.agent op = false) :
    s.checked op port body = s.withFault .contextViolation op.code port := by
  simp [State.checked, State.commonChecks, hmay, State.raise]

/-- Then the port field (R165). -/
theorem checked_of_no_port (body : Port → State) (hmay : mayPresent s.agent op = true) (hport : 4 ≤ port.toNat) :
    s.checked op port body = s.withFault (.configurationError .port) op.code port := by
  simp [State.checked, State.commonChecks, hmay, (portOf_eq_none port).2 hport, State.raise]

/-- Then `initialized` (R169). -/
theorem checked_of_uninitialized {p : Port} (body : Port → State) (hmay : mayPresent s.agent op = true)
    (hport : port.toNat = p.val) (hinit : (s.port p).initialized = false) :
    s.checked op port body = s.withFault .notInitialized op.code port := by
  simp [State.checked, State.commonChecks, hmay, (portOf_eq_some port p).2 hport, hinit, State.raise]

end

/-! ### Commands and the checks (R168-R170) -/

section
variable {i : Instr} {s : State}

/-- A command other than INIT and IRQ_ENTRY is a body behind CommonChecks. -/
theorem exec_eq_checked (s : State) (hinit : i.op ≠ .init) (hentry : i.op ≠ .irqEntry) :
    ∃ body, exec i s = .next (s.checked i.op i.portField body) := by
  cases i with
  | init txPin rxPin => exact absurd rfl hinit
  | irqEntry port => exact absurd rfl hentry
  | _ => exact ⟨_, rfl⟩

/-- INIT makes the context check before it looks at its pins (R154, R168). -/
theorem exec_init_of_context (txPin rxPin : Pin) (hmay : mayPresent s.agent .init = false) :
    exec (.init txPin rxPin) s = .next (s.withFault .contextViolation Op.init.code 0) := by
  show execInit txPin rxPin s = _
  rw [execInit, if_neg (by simp [hmay])]
  rfl

/-- IRQ_ENTRY is for the interrupt controller alone (R168). -/
theorem exec_irqEntry_of_context (port : PortField) (hmay : mayPresent s.agent .irqEntry = false) :
    exec (.irqEntry port) s = .next (s.withFault .contextViolation Op.irqEntry.code port) := by
  show execIrqEntry port s = _
  unfold execIrqEntry
  cases hagent : s.agent with
  | fg => simp [State.raise, hagent]
  | isr q => simp [State.raise, hagent]
  | controller => simp [mayPresent, hagent] at hmay

/-- Every command that its presenter may not issue (R168). -/
theorem exec_of_context (hmay : mayPresent s.agent i.op = false) :
    exec i s = .next (s.withFault .contextViolation i.op.code i.portField) := by
  cases i with
  | init txPin rxPin => exact exec_init_of_context txPin rxPin hmay
  | irqEntry port => exact exec_irqEntry_of_context port hmay
  | _ => exact congrArg _ (checked_of_context _ hmay)

end

/-- FG may present every command but IRQ_ENTRY, a handler READABLE and WRITABLE (R168, R178). -/
theorem mayPresent_of_permitted {a : Agent} {op : Op} (hentry : op ≠ .irqEntry)
    (h : a = .fg ∨ (∃ q, a = .isr q) ∧ (op = .readable ∨ op = .writable)) : mayPresent a op = true := by
  obtain rfl | ⟨⟨q, rfl⟩, hop⟩ := h
  · simp [mayPresent, hentry]
  · simpa [mayPresent] using hop

/-- Only the interrupt controller may present IRQ_ENTRY (R168). -/
theorem mayPresent_irqEntry_of_ne {a : Agent} (h : a ≠ .controller) : mayPresent a .irqEntry = false := by
  cases a with
  | fg => rfl
  | isr q => rfl
  | controller => exact absurd rfl h

/-- Settles O14: the context is settled for every command at once, the port and `initialized` for the commands
that are a body behind CommonChecks. -/
theorem commonChecksFaultInOrder : Obligations.CommonChecksFaultInOrder := by
  unfold Obligations.CommonChecksFaultInOrder
  intro i s
  refine ⟨fun hop hagent => ?_, fun q hagent hread hwrite => ?_, fun hinit hentry hpermitted => ?_⟩
  · exact exec_of_context (by rw [hop, mayPresent_irqEntry_of_ne hagent])
  · exact exec_of_context (by simp [mayPresent, hagent, hread, hwrite])
  · have hmay : mayPresent s.agent i.op = true := mayPresent_of_permitted hentry hpermitted
    obtain ⟨body, hexec⟩ := exec_eq_checked s hinit hentry
    rw [hexec]
    exact ⟨fun hport => congrArg _ (checked_of_no_port body hmay hport),
      fun p hport hcold => congrArg _ (checked_of_uninitialized body hmay hport hcold)⟩

/-! ### The handler's return (R181) -/

/-- With no fault recorded, the return is the step of the environment's choice. -/
theorem step_of_ret {s : State} {p : Port} (hfault : s.fault = none) (hmove : s.nextInput.move = .ret p) :
    step s = .next (s.takeInput.returnFromIsr p) := by
  rw [step, hfault]
  show s.takeInput.moveBy s.nextInput.move = _
  rw [hmove]
  rfl

/-- Settles O11: the return is one update of its port's row. -/
theorem handlerReturnOnlyIdlesItsIsr : Obligations.HandlerReturnOnlyIdlesItsIsr := by
  unfold Obligations.HandlerReturnOnlyIdlesItsIsr
  intro s p hfault hmove
  exact ⟨_, step_of_ret hfault hmove, modPort_port_same _ _ _, onlyPort_modPort _ _ _, rfl⟩

end Sys2Proof.Machine

/-! Decoding and encoding are inverse to each other, and the decoder accepts the words that the opcode map selects
(30_encoding.md R69-R85). A command word is its OP, its PORT and its OPND; each format cuts OPND into operand fields and
must-be-0 fields. Encoding what was decoded puts the fields together again, and a row's mask covers OP and the
must-be-0 bits. -/

namespace Sys2Proof

/-! ### Decoding what was encoded -/

section
variable {op : Op} {c : Word}

/-- A word with an opcode's number and clear reserved bits goes on to its ARG (R78, R79). -/
theorem decode_cons_of_ok (hop : opField c = op.code) (hok : reservedBitsOk op c = true) (rest : List Word) :
    decode (c :: rest) = decodeArgument op c rest := by
  simp only [decode, hop, ofCode_code, hok, if_true]

/-- With the ARG words that the opcode asks for, the command is there. -/
theorem decodeArgument_of_length {args : List Word} (hlen : args.length = if op.hasArg then 1 else 0)
    (rest : List Word) : decodeArgument op c (args ++ rest) = .command (assemble op c (args.headD 0)) rest := by
  unfold decodeArgument
  cases harg : op.hasArg
  · obtain rfl : args = [] := List.eq_nil_of_length_eq_zero (by simpa [harg] using hlen)
    rfl
  · obtain ⟨a, rfl⟩ := List.length_eq_one_iff.1 (by simpa [harg] using hlen)
    rfl

end

/-- What the encoder writes, for every command. -/
theorem encodedWords (i : Instr) : Laws.EncodedWords.Statement i := by
  cases i with
  | baud p r => exact Laws.EncodedWords.baud p r
  | format p b par st => exact Laws.EncodedWords.format p b par st
  | breakSet p => exact Laws.EncodedWords.breakSet p
  | breakClear p => exact Laws.EncodedWords.breakClear p
  | irqSet p d en => exact Laws.EncodedWords.irqSet p d en
  | flowIrqSet p d en => exact Laws.EncodedWords.flowIrqSet p d en
  | irqHandler p h id => exact Laws.EncodedWords.irqHandler p h id
  | irqEntry p => exact Laws.EncodedWords.irqEntry p
  | readable p => exact Laws.EncodedWords.readable p
  | writable p => exact Laws.EncodedWords.writable p
  | getc p => exact Laws.EncodedWords.getc p
  | putc p b => exact Laws.EncodedWords.putc p b
  | setFlowControl p m rx tx => exact Laws.EncodedWords.setFlowControl p m rx tx
  | init tx rx => exact Laws.EncodedWords.init tx rx
  | free p => exact Laws.EncodedWords.free p
  | clear p => exact Laws.EncodedWords.clear p

section
variable (op : Op) (p : PortField)

/-- FORMAT's operand fields (R71). -/
theorem extract_formatWord (b : BitVec 4) (par : BitVec 3) (st : BitVec 2) :
    let c := commandWord op p (0#14 ++ st ++ 0#1 ++ par ++ b)
    c.extractLsb' 0 4 = b ∧ c.extractLsb' 4 3 = par ∧ c.extractLsb' 8 2 = st := by
  refine ⟨?_, ?_, ?_⟩ <;> rw [extract_commandWord _ _ _ _ _ (by omega)]
  · exact BitVec.extractLsb'_append_eq_right
  · rw [extract_append_high _ _ _ _ (by omega)]
    exact BitVec.extractLsb'_append_eq_right
  · rw [extract_append_high _ _ _ _ (by omega), extract_append_high _ _ _ _ (by omega),
      extract_append_high _ _ _ _ (by omega)]
    exact BitVec.extractLsb'_append_eq_right

/-- The operand bits of IRQ_SET and FLOW_IRQ_SET (R73). -/
theorem getLsbD_irqWord (d en : Bool) :
    let c := commandWord op p (0#15 ++ BitVec.ofBool d ++ 0#7 ++ BitVec.ofBool en)
    c.getLsbD 8 = d ∧ c.getLsbD 0 = en := by
  refine ⟨?_, ?_⟩ <;> rw [getLsbD_commandWord _ _ _ _ (by omega)] <;> cases d <;> cases en <;> rfl

end

/-- The operands are read back from the fields they were written to (R70-R77, R85). -/
theorem assemble_of_encode {i : Instr} {c : Word} {args : List Word} (h : encode i = c :: args) :
    assemble i.op c (args.headD 0) = i := by
  cases i with
  | format p b par st =>
    cases h
    obtain ⟨hbits, hpar, hstops⟩ := extract_formatWord .format p b par st
    simp only [assemble, Instr.op, portField_commandWord, hbits, hpar, hstops]
  | irqSet p d en =>
    cases h
    obtain ⟨hdir, hen⟩ := getLsbD_irqWord .irqSet p d.bit en
    simp only [assemble, Instr.op, portField_commandWord, hdir, hen, ofBit_bit]
  | flowIrqSet p d en =>
    cases h
    obtain ⟨hdir, hen⟩ := getLsbD_irqWord .flowIrqSet p d.bit en
    simp only [assemble, Instr.op, portField_commandWord, hdir, hen, ofBit_bit]
  | irqHandler p t id =>
    cases h
    have htoken : (commandWord .irqHandler p t).extractLsb' 0 24 = t := BitVec.extractLsb'_append_eq_right
    simp only [assemble, Instr.op, portField_commandWord, htoken, List.headD_cons]
  | putc p b =>
    cases h
    have hbyte : (commandWord .putc p (0#16 ++ b)).extractLsb' 0 8 = b :=
      (extract_commandWord _ _ _ _ _ (by omega)).trans BitVec.extractLsb'_append_eq_right
    simp only [assemble, Instr.op, portField_commandWord, hbyte]
  | setFlowControl p m rx tx =>
    cases h
    have hmode : (commandWord .setFlowControl p (0#22 ++ m.code)).extractLsb' 0 2 = m.code :=
      (extract_commandWord _ _ _ _ _ (by omega)).trans BitVec.extractLsb'_append_eq_right
    simp only [assemble, Instr.op, portField_commandWord, hmode, ofCode_flowCode, List.headD_cons,
      BitVec.extractLsb'_append_eq_left, BitVec.extractLsb'_append_eq_right]
  | init tx rx =>
    cases h
    simp only [assemble, Instr.op, List.headD_cons, BitVec.extractLsb'_append_eq_left,
      BitVec.extractLsb'_append_eq_right]
  | _ =>
    cases h
    simp only [assemble, Instr.op, portField_commandWord, List.headD_cons]

/-- Settles O1: the encoded words pass the opcode and the reserved bits, bring the ARG that the opcode asks for, and
their fields are the operands. -/
theorem decodeOfEncodeIsTheCommand : Obligations.DecodeOfEncodeIsTheCommand := by
  unfold Obligations.DecodeOfEncodeIsTheCommand
  intro i rest
  obtain ⟨c, args, henc, hop, -, hok, hlen⟩ := encodedWords i
  rw [henc, List.cons_append, decode_cons_of_ok hop hok, decodeArgument_of_length hlen, assemble_of_encode henc]

/-! ### Encoding what was decoded -/

/-- What was decoded: an opcode's word with clear reserved bits and, for a two-word command, its ARG (R78-R82). -/
theorem decode_eq_command {ws : List Word} {i : Instr} {rest : List Word} (h : decode ws = .command i rest) :
    ∃ (op : Op) (c a : Word), opField c = op.code ∧ reservedBitsOk op c = true ∧ i = assemble op c a ∧
      ws = c :: if op.hasArg then a :: rest else rest := by
  cases ws with
  | nil => cases h
  | cons c tail =>
    unfold decode at h
    simp only at h
    split at h
    · cases h
    · next op hop =>
      split at h
      · next hok =>
        unfold decodeArgument at h
        split at h
        · next harg =>
          split at h
          · cases h
          · next a rest' =>
            cases h
            exact ⟨op, c, a, code_of_ofCode _ _ hop, hok, rfl, by rw [if_pos harg]⟩
        · next harg =>
          cases h
          exact ⟨op, c, 0, code_of_ofCode _ _ hop, hok, rfl, by rw [if_neg harg]⟩
      · cases h

section
variable {op : Op} {c : Word}

/-- A word with an opcode's number is made of that number, its PORT and its OPND (R69). -/
theorem commandWord_fields (hop : opField c = op.code) : commandWord op (portField c) (c.extractLsb' 0 24) = c := by
  unfold commandWord portField
  rw [← hop, opField, BitVec.extractLsb'_append_extractLsb'_eq_extractLsb' (by omega),
    BitVec.extractLsb'_append_extractLsb'_eq_extractLsb' (by omega), BitVec.extractLsb'_eq_self]

/-- One bit as a field of width 1. -/
theorem ofBool_getLsbD {w : Nat} (x : BitVec w) (n : Nat) : BitVec.ofBool (x.getLsbD n) = x.extractLsb' n 1 := by
  rw [BitVec.getLsbD_eq_extractLsb']
  generalize x.extractLsb' n 1 = b
  revert b
  decide

@[simp] theorem bit_ofBit (b : Bool) : (Dir.ofBit b).bit = b := by cases b <;> rfl

/-- FORMAT's OPND is its operand fields and its must-be-0 fields (R71). -/
theorem formatOperands (hok : reservedBitsOk .format c = true) :
    0#14 ++ c.extractLsb' 8 2 ++ 0#1 ++ c.extractLsb' 4 3 ++ c.extractLsb' 0 4 = c.extractLsb' 0 24 := by
  simp only [reservedBitsOk, Bool.and_eq_true, beq_iff_eq] at hok
  obtain ⟨hbit, hhigh⟩ := hok
  have hbit' : c.extractLsb' 7 1 = 0#1 := by rw [← ofBool_getLsbD, hbit]; rfl
  rw [← hbit', show (0#14) = c.extractLsb' 10 14 from hhigh.symm]
  repeat rw [BitVec.extractLsb'_append_extractLsb'_eq_extractLsb' (by omega)]

/-- The OPND of IRQ_SET and FLOW_IRQ_SET is DIR, EN and its must-be-0 fields (R73). -/
theorem irqOperands (hok : reservedBitsOk .irqSet c = true) :
    0#15 ++ BitVec.ofBool (c.getLsbD 8) ++ 0#7 ++ BitVec.ofBool (c.getLsbD 0) = c.extractLsb' 0 24 := by
  simp only [reservedBitsOk, Bool.and_eq_true, beq_iff_eq] at hok
  obtain ⟨hlow, hhigh⟩ := hok
  rw [ofBool_getLsbD, ofBool_getLsbD, show (0#15) = c.extractLsb' 9 15 from hhigh.symm,
    show (0#7) = c.extractLsb' 1 7 from hlow.symm]
  repeat rw [BitVec.extractLsb'_append_extractLsb'_eq_extractLsb' (by omega)]

/-- An OPND of `k` operand bits below `m` must-be-0 bits. -/
theorem lowOperands {k m : Nat} (hhigh : c.extractLsb' k m = 0) :
    0#m ++ c.extractLsb' 0 k = c.extractLsb' 0 (m + k) := by
  rw [show (0#m) = c.extractLsb' k m from hhigh.symm]
  exact BitVec.extractLsb'_append_extractLsb'_eq_extractLsb' (by omega)

/-- INIT's word is its number, and 0 in PORT and OPND (R77). -/
theorem commandWord_init (hop : opField c = Op.init.code) (hlow : c.extractLsb' 0 27 = 0) :
    commandWord .init 0 0 = c := by
  have hword : opField c ++ c.extractLsb' 0 27 = c := BitVec.extractLsb'_append_extractLsb' (w := 5) (len := 27)
  rw [← hword, hop, hlow]
  rfl

/-- The two halves of an ARG word. -/
theorem append_halves (a : Word) : a.extractLsb' 16 16 ++ a.extractLsb' 0 16 = a :=
  BitVec.extractLsb'_append_extractLsb' (w := 16) (len := 16)

/-- Encoding the assembled command puts the words together again (R70-R79). -/
theorem encode_assemble (hop : opField c = op.code) (hok : reservedBitsOk op c = true) (a : Word) :
    encode (assemble op c a) = c :: if op.hasArg then [a] else [] := by
  have hword := commandWord_fields hop
  cases op with
  | format => simp only [assemble, encode, formatOperands hok, hword]; rfl
  | irqSet => simp only [assemble, encode, bit_ofBit, irqOperands hok, hword]; rfl
  | flowIrqSet => simp only [assemble, encode, bit_ofBit, irqOperands hok, hword]; rfl
  | irqHandler => simp only [assemble, encode, hword]; rfl
  | putc =>
    simp only [reservedBitsOk, beq_iff_eq] at hok
    simp only [assemble, encode, lowOperands hok, hword]; rfl
  | setFlowControl =>
    simp only [reservedBitsOk, beq_iff_eq] at hok
    simp only [assemble, encode, code_ofFlowCode, lowOperands hok, hword, append_halves]; rfl
  | init =>
    simp only [reservedBitsOk, beq_iff_eq] at hok
    simp only [assemble, encode, append_halves, commandWord_init hop hok]; rfl
  | _ =>
    simp only [reservedBitsOk, beq_iff_eq] at hok
    simp only [assemble, encode]
    rw [← hok, hword]; rfl

end

/-- Settles O2: what was decoded is an opcode's word with clear reserved bits, and such a word is made of its fields. -/
theorem encodeOfDecodeIsTheWords : Obligations.EncodeOfDecodeIsTheWords := by
  unfold Obligations.EncodeOfDecodeIsTheWords
  intro ws i rest h
  obtain ⟨op, c, a, hop, hok, rfl, rfl⟩ := decode_eq_command h
  rw [encode_assemble hop hok]
  cases op.hasArg <;> rfl

/-! ### The opcode map (R80) -/

/-- The positions of a command word, below OP, that must be 0 under an opcode (R70-R77). -/
def Op.mustBeZero : Op → Nat → Bool
  | .format, n => n == 7 || (10 ≤ n && n < 24)
  | .irqSet, n => (1 ≤ n && n < 8) || (9 ≤ n && n < 24)
  | .flowIrqSet, n => (1 ≤ n && n < 8) || (9 ≤ n && n < 24)
  | .irqHandler, _ => false
  | .putc, n => 8 ≤ n && n < 24
  | .setFlowControl, n => 2 ≤ n && n < 24
  | .init, n => n < 27
  | _, n => n < 24

/-- A field is 0 when each of its bits is. -/
theorem extractLsb'_eq_zero_iff {w : Nat} (x : BitVec w) (k n : Nat) :
    x.extractLsb' k n = 0 ↔ ∀ i, k ≤ i ∧ i < k + n → x.getLsbD i = false := by
  constructor
  · intro h i ⟨hk, hn⟩
    have hbit := congrArg (BitVec.getLsbD · (i - k)) h
    simpa [show i - k < n by omega, show k + (i - k) = i by omega] using hbit
  · intro h
    apply BitVec.eq_of_getLsbD_eq
    intro i hi
    simp [h (k + i) ⟨by omega, by omega⟩]

/-- The decoder's check of the reserved bits, bit by bit (R82). -/
theorem reservedBitsOk_iff (op : Op) (c : Word) :
    reservedBitsOk op c = true ↔ ∀ n, op.mustBeZero n = true → c.getLsbD n = false := by
  cases op with
  | irqHandler => simp [reservedBitsOk, Op.mustBeZero]
  | _ =>
    simp only [reservedBitsOk, Bool.and_eq_true, beq_iff_eq, extractLsb'_eq_zero_iff, Op.mustBeZero, Bool.or_eq_true,
      decide_eq_true_eq, or_imp, forall_and, forall_eq, Nat.zero_le, true_and, Nat.zero_add, Nat.reduceAdd]

theorem Op.mustBeZero_lt {op : Op} {n : Nat} (h : op.mustBeZero n = true) : n < 27 := by
  cases op with
  | irqHandler => cases h
  | _ =>
    simp [Op.mustBeZero] at h
    omega

/-- A row's mask covers OP and the must-be-0 bits, and its pattern is the opcode's number in OP and 0 below. -/
theorem opcodeMap_bits : ∀ row ∈ opcodeMap, ∀ n < 32,
    row.mask.getLsbD n = (decide (27 ≤ n) || row.op.mustBeZero n) ∧
    row.pattern.getLsbD n = (decide (27 ≤ n) && row.op.code.getLsbD (n - 27)) := by decide

/-- Selecting a word is comparing its bits. -/
theorem selectedBy_iff_getLsbD (row : OpcodeRow) (c : Word) :
    row.selectedBy c = true ↔ ∀ n < 32, (c.getLsbD n && row.mask.getLsbD n) = row.pattern.getLsbD n := by
  unfold OpcodeRow.selectedBy
  rw [beq_iff_eq, BitVec.eq_of_getLsbD_eq_iff]
  simp only [BitVec.getLsbD_and]

/-- OP, bit by bit. -/
theorem opField_eq_iff (c : Word) (code : BitVec 5) :
    opField c = code ↔ ∀ n < 5, c.getLsbD (27 + n) = code.getLsbD n := by
  unfold opField
  rw [BitVec.eq_of_getLsbD_eq_iff]
  refine forall₂_congr fun n hn => ?_
  rw [BitVec.getLsbD_extractLsb', decide_eq_true hn, Bool.true_and]

/-- A row selects the words of its opcode with clear reserved bits (R80, R82). -/
theorem selectedBy_iff {row : OpcodeRow} (hrow : row ∈ opcodeMap) (c : Word) :
    row.selectedBy c = true ↔ opField c = row.op.code ∧ reservedBitsOk row.op c = true := by
  have hbits := opcodeMap_bits row hrow
  rw [selectedBy_iff_getLsbD, opField_eq_iff, reservedBitsOk_iff]
  constructor
  · refine fun h => ⟨fun n hn => ?_, fun n hn => ?_⟩
    · have hbit := h (27 + n) (by omega)
      obtain ⟨hmask, hpattern⟩ := hbits (27 + n) (by omega)
      simpa [hmask, hpattern] using hbit
    · have hlt := Op.mustBeZero_lt hn
      have hbit := h n (by omega)
      obtain ⟨hmask, hpattern⟩ := hbits n (by omega)
      simpa [hmask, hpattern, hn, Nat.not_le.2 hlt] using hbit
  · rintro ⟨hop, hzero⟩ n hn
    obtain ⟨hmask, hpattern⟩ := hbits n hn
    rw [hmask, hpattern]
    by_cases hhigh : 27 ≤ n
    · have hbit := hop (n - 27) (by omega)
      rw [Nat.add_sub_cancel' hhigh] at hbit
      simp [hhigh, hbit]
    · cases hmust : row.op.mustBeZero n
      · simp [hhigh]
      · simp [hhigh, hzero n hmust]

/-- A word that no row selects is refused (R82). -/
theorem decode_of_not_selected {c : Word} (hno : ∀ row ∈ opcodeMap, row.selectedBy c = false) (rest : List Word) :
    ∃ why, decode (c :: rest) = .refused why c rest := by
  unfold decode
  simp only
  cases hcode : Op.ofCode (opField c) with
  | none => exact ⟨.opcode, rfl⟩
  | some op =>
    obtain ⟨row, hrow, rfl⟩ := opcodeMap_complete op
    have hok : reservedBitsOk row.op c ≠ true := fun hok =>
      Bool.false_ne_true ((hno row hrow).symm.trans ((selectedBy_iff hrow c).2 ⟨code_of_ofCode _ _ hcode, hok⟩))
    exact ⟨.reservedBits, if_neg hok⟩

/-- Settles O3: a row selects exactly the words of its opcode with clear reserved bits, and these go on to their ARG. -/
theorem decoderFollowsTheOpcodeMap : Obligations.DecoderFollowsTheOpcodeMap := by
  unfold Obligations.DecoderFollowsTheOpcodeMap
  intro c a rest
  refine ⟨fun row hrow hsel => ?_, fun hno => decode_of_not_selected hno _⟩
  obtain ⟨hop, hok⟩ := (selectedBy_iff hrow c).1 hsel
  have hwords := opcodeMap_words row hrow
  rw [decode_cons_of_ok hop hok, decodeArgument]
  cases harg : row.op.hasArg
  · exact ⟨assemble row.op c 0, assemble_op .., by simp [hwords, harg]⟩
  · exact ⟨assemble row.op c a, assemble_op .., by simp [hwords, harg]⟩

/-! ### Words that are refused, or wait (R79, R82) -/

/-- A word whose number names no opcode is refused for it. -/
theorem decode_of_reserved_opcode {c : Word} (hop : (opField c).toNat = 0 ∨ 0x11 ≤ (opField c).toNat)
    (rest : List Word) : decode (c :: rest) = .refused .opcode c rest := by
  simp only [decode, (ofCode_eq_none _).2 hop]

/-- A word of an opcode that its row does not select is refused for its reserved bits. -/
theorem decode_of_reserved_bits {c : Word} {row : OpcodeRow} (hrow : row ∈ opcodeMap) (hop : row.op.code = opField c)
    (hno : c &&& row.mask ≠ row.pattern) (rest : List Word) :
    decode (c :: rest) = .refused .reservedBits c rest := by
  have hsel : ¬ row.selectedBy c = true := by rwa [OpcodeRow.selectedBy, beq_iff_eq]
  have hok : ¬ reservedBitsOk row.op c = true := fun hok => hsel ((selectedBy_iff hrow c).2 ⟨hop.symm, hok⟩)
  simp only [decode, ← hop, ofCode_code, if_neg hok]

/-- The word of a two-word command alone waits for its ARG. -/
theorem decode_of_missing_arg {c : Word} {row : OpcodeRow} (hrow : row ∈ opcodeMap) (hsel : row.selectedBy c = true)
    (htwo : row.words = 2) : decode [c] = .waiting := by
  obtain ⟨hop, hok⟩ := (selectedBy_iff hrow c).1 hsel
  have harg : row.op.hasArg = true := by
    have hwords := opcodeMap_words row hrow
    by_contra h
    simp [h, htwo] at hwords
  simp only [decode_cons_of_ok hop hok, decodeArgument, harg, if_true]

/-- Settles O5: each word list runs through the decoder. -/
theorem sampleWordsDecode : Obligations.SampleWordsDecode := by
  unfold Obligations.SampleWordsDecode
  refine ⟨?_, ?_, ?_, ?_, ?_, ?_, ?_, ?_, ?_, ?_, ?_⟩ <;> decide

end Sys2Proof

/-! What a step does for each choice of the environment (00_scope.md R12-R14, 42_interrupt_arbiter.md R123, R124,
60_exceptions.md R163, R177-R182). One equation for each move and what the agent stands in; the obligations about the
step put the state that the move starts from into them. -/

namespace Sys2Proof.Machine

section
variable {s : State} {p : Port}

/-! ### One equation for each move -/

/-- Without a fault recorded, the step is the move that the environment chose. -/
theorem step_of_no_fault (hfault : s.fault = none) : step s = s.takeInput.moveBy s.nextInput.move := by
  rw [step, hfault]
  rfl

theorem step_of_fg_idle (hfault : s.fault = none) (hmove : s.nextInput.move = .fg) (hidle : s.fgStep = .idle) :
    step s = s.takeInput.takeFgCommand := by
  rw [step_of_no_fault hfault, hmove]
  exact if_pos hidle

theorem step_of_fg_busy (hfault : s.fault = none) (hmove : s.nextInput.move = .fg) (hbusy : s.fgStep ≠ .idle) :
    step s = .next s.takeInput.advanceFg := by
  rw [step_of_no_fault hfault, hmove]
  exact if_neg hbusy

theorem step_of_isr_running (hfault : s.fault = none) (hmove : s.nextInput.move = .isr p)
    (hrun : (s.port p).isrStep = .inHandler) : step s = s.takeInput.takeIsrCommand p := by
  rw [step_of_no_fault hfault, hmove]
  exact if_pos hrun

theorem step_of_isr_idle (hfault : s.fault = none) (hmove : s.nextInput.move = .isr p)
    (hidle : (s.port p).isrStep = .idle) : step s = .next s.takeInput := by
  rw [step_of_no_fault hfault, hmove]
  exact if_neg (by rw [takeInput_port, hidle]; decide)

theorem step_of_irq (hfault : s.fault = none) (hmove : s.nextInput.move = .irq p) :
    step s = if s.takeInput.irqCanStart p then
        exec (.irqEntry (fieldOfPort p)) (s.takeInput.presentedBy .controller)
      else .next s.takeInput := by
  rw [step_of_no_fault hfault, hmove]
  rfl

/-! ### Taking a command (R79, R82) -/

theorem takeFgCommand_of_waiting (h : decode s.fgWords = .waiting) : s.takeFgCommand = .next s := by
  rw [State.takeFgCommand, h]

theorem takeFgCommand_of_refused {why : RefusedSub} {cmd : Word} {rest : List Word}
    (h : decode s.fgWords = .refused why cmd rest) :
    s.takeFgCommand = .next (((s.setFgWords rest).presentedBy .fg).raiseRefused why cmd) := by
  rw [State.takeFgCommand, h]

theorem takeFgCommand_of_command {i : Instr} {rest : List Word} (h : decode s.fgWords = .command i rest) :
    s.takeFgCommand = exec i ((s.setFgWords rest).presentedBy .fg) := by
  rw [State.takeFgCommand, h]

theorem takeIsrCommand_of_waiting (h : decode (s.isrWordsOf p) = .waiting) : s.takeIsrCommand p = .next s := by
  rw [State.takeIsrCommand, h]

theorem takeIsrCommand_of_refused {why : RefusedSub} {cmd : Word} {rest : List Word}
    (h : decode (s.isrWordsOf p) = .refused why cmd rest) :
    s.takeIsrCommand p = .next (((s.setIsrWords p rest).presentedBy (.isr p)).raiseRefused why cmd) := by
  rw [State.takeIsrCommand, h]

theorem takeIsrCommand_of_command {i : Instr} {rest : List Word} (h : decode (s.isrWordsOf p) = .command i rest) :
    s.takeIsrCommand p = exec i ((s.setIsrWords p rest).presentedBy (.isr p)) := by
  rw [State.takeIsrCommand, h]

/-! ### When an interrupt may start (R123, R124) -/

theorem iirAdmitted_iff : s.iirAdmitted p = true ↔ s.platform.iirRespectsIer = false ∨
    (((s.draw.iir.extractLsb' 1 3).toNat = 2 → (s.port p).ier.en.rx = true) ∧
      ((s.draw.iir.extractLsb' 1 3).toNat = 1 → (s.port p).ier.en.tx = true)) := by
  unfold State.iirAdmitted
  rw [Bool.or_eq_true, Bool.not_eq_true']
  refine or_congr_right ?_
  cases h : eventOf s.draw.iir with
  | none =>
    obtain ⟨htx, hrx⟩ := eventOf_eq_none_iff.1 h
    exact iff_of_true rfl ⟨fun h => absurd h hrx, fun h => absurd h htx⟩
  | some d =>
    cases d with
    | rx => simp [eventOf_eq_rx_iff.1 h, PerDir.get]
    | tx => simp [eventOf_eq_tx_iff.1 h, PerDir.get]

theorem irqCanStart_iff : s.irqCanStart p = true ↔
    ((s.port p).nvicEn = true ∧ (s.port p).vec = true ∧ (s.port p).isrStep = .idle) ∧ s.iirAdmitted p = true := by
  simp only [State.irqCanStart, Bool.and_eq_true, beq_iff_eq, and_assoc]

end

/-! ### The step and the commands that are presented -/

/-- Settles O6: an idle FG takes what its words decode to. -/
theorem stepRunsTheCommandFgPresents : Obligations.StepRunsTheCommandFgPresents := by
  unfold Obligations.StepRunsTheCommandFgPresents
  intro s i rest hfault hmove hidle hdecode
  exact (step_of_fg_idle hfault hmove hidle).trans (takeFgCommand_of_command (s := s.takeInput) hdecode)

/-- Settles O7: a running handler takes what its words decode to, and an idle ISR takes nothing. -/
theorem stepRunsTheCommandAHandlerPresents : Obligations.StepRunsTheCommandAHandlerPresents := by
  unfold Obligations.StepRunsTheCommandAHandlerPresents
  intro s p hfault hmove
  refine ⟨fun i rest hrun hdecode => ?_, step_of_isr_idle hfault hmove⟩
  exact (step_of_isr_running hfault hmove hrun).trans (takeIsrCommand_of_command (s := s.takeInput) hdecode)

/-- Settles O8: FG's move, when it is not idle. -/
theorem stepAdvancesTheCommandInProgress : Obligations.StepAdvancesTheCommandInProgress := by
  unfold Obligations.StepAdvancesTheCommandInProgress
  exact fun s => step_of_fg_busy

/-- Settles O9: no word, and the word of a two-word command alone, decode to waiting. -/
theorem twoWordCommandWaitsForItsArgument : Obligations.TwoWordCommandWaitsForItsArgument := by
  unfold Obligations.TwoWordCommandWaitsForItsArgument
  intro s hfault waits
  have hwait : ∀ ws, waits ws → decode ws = .waiting := by
    rintro ws (rfl | ⟨c, row, rfl, hrow, hsel, htwo⟩)
    · rfl
    · exact decode_of_missing_arg hrow hsel htwo
  refine ⟨fun hmove hidle hws => ?_, fun p hmove hrun hws => ?_⟩
  · exact (step_of_fg_idle hfault hmove hidle).trans (takeFgCommand_of_waiting (s := s.takeInput) (hwait _ hws))
  · exact (step_of_isr_running hfault hmove hrun).trans
      (takeIsrCommand_of_waiting (s := s.takeInput) (hwait _ hws))

/-- Settles O4: such a word decodes to a refusal, which takes the word and records its own fields. -/
theorem refusedCommandIsRecordedAndNothingElse : Obligations.RefusedCommandIsRecordedAndNothingElse := by
  unfold Obligations.RefusedCommandIsRecordedAndNothingElse
  intro s c rest hfault op reserved hbad why
  have hdecode : decode (c :: rest) = .refused why c rest := by
    by_cases hres : reserved
    · rw [show why = .opcode from if_pos hres]
      exact decode_of_reserved_opcode hres rest
    · obtain ⟨row, hrow, hop, hno⟩ := hbad.resolve_left hres
      rw [show why = .reservedBits from if_neg hres]
      exact decode_of_reserved_bits hrow hop hno rest
  refine ⟨fun hmove hidle hws => ?_, fun p hmove hrun hws => ?_⟩
  · rw [← hws] at hdecode
    exact (step_of_fg_idle hfault hmove hidle).trans (takeFgCommand_of_refused (s := s.takeInput) hdecode)
  · rw [← hws] at hdecode
    exact (step_of_isr_running hfault hmove hrun).trans (takeIsrCommand_of_refused (s := s.takeInput) hdecode)

/-- Settles O10: line, vector, an idle ISR and an admitted draw are the start condition, read in the state whose
draws are the step's. -/
theorem interruptStartsOnlyWhereAllowed : Obligations.InterruptStartsOnlyWhereAllowed := by
  unfold Obligations.InterruptStartsOnlyWhereAllowed
  intro s p hfault hmove intid ready admitted
  have hstart : s.takeInput.irqCanStart p = true ↔ ready ∧ admitted :=
    irqCanStart_iff.trans (and_congr_right fun _ => iirAdmitted_iff)
  rw [step_of_irq hfault hmove]
  exact ⟨fun hready hadm => if_pos (hstart.2 ⟨hready, hadm⟩), fun hno => if_neg (mt hstart.1 hno)⟩

/-! ### Every step that can be taken has a next state (R163) -/

section
variable (s : State) (p : Port)

theorem takeFgCommand_next : ∃ t, s.takeFgCommand = .next t := by
  unfold State.takeFgCommand
  split
  · exact ⟨_, rfl⟩
  · exact ⟨_, rfl⟩
  · exact exec_next _ _

theorem takeIsrCommand_next : ∃ t, s.takeIsrCommand p = .next t := by
  unfold State.takeIsrCommand
  split
  · exact ⟨_, rfl⟩
  · exact ⟨_, rfl⟩
  · exact exec_next _ _

theorem moveBy_next (m : Move) : ∃ t, s.moveBy m = .next t := by
  cases m with
  | fg =>
    show ∃ t, s.moveFg = .next t
    unfold State.moveFg
    split
    · exact takeFgCommand_next s
    · exact ⟨_, rfl⟩
  | irq p =>
    show ∃ t, s.moveIrq p = .next t
    unfold State.moveIrq
    split
    · exact exec_next _ _
    · exact ⟨_, rfl⟩
  | isr p =>
    show ∃ t, s.moveIsr p = .next t
    unfold State.moveIsr
    split
    · exact takeIsrCommand_next s p
    · exact ⟨_, rfl⟩
  | ret p => exact ⟨_, rfl⟩

end

/-- Settles O12: a recorded fault halts, and every move answers a next state. -/
theorem stepStopsExactlyWhenFaulted : Obligations.StepStopsExactlyWhenFaulted := by
  unfold Obligations.StepStopsExactlyWhenFaulted
  refine fun s => ⟨fun hfault => ?_, fun hfault => ?_⟩
  · obtain ⟨r, hr⟩ := Option.ne_none_iff_exists'.1 hfault
    rw [step, hr]
  · rw [step_of_no_fault hfault]
    exact moveBy_next _ _

end Sys2Proof.Machine

/-! The commands that are one update of a port's row and its events: BAUD out of range, the break commands, the last
disable request, IRQ_HANDLER, READABLE, WRITABLE, FREE, CLEAR and the atomic part of INIT (40_divisor.md R103,
41_line_format.md R110, R111, 42_interrupt_arbiter.md R115, R122, 43_tx_credit.md R130-R135, 45_port_facade.md
R155-R161). -/

namespace Sys2Proof.Machine

section
variable {s : State} {port : PortField} {p : Port}

/-- The row of the port after an update of that row and its events. -/
theorem modPort_emit_port_same (s : State) (p : Port) (f : PortState → PortState) (es : List Event) :
    ((s.modPort p f).emit es).port p = f (s.port p) :=
  modPort_port_same s p f

/-- Only the trace differs after an event. -/
theorem onlyPort_emit (s : State) (p : Port) (es : List Event) : OnlyPort p s (s.emit es) :=
  ⟨⟨rfl, rfl, rfl, rfl, rfl, rfl, rfl, rfl, rfl⟩, fun _ _ => rfl, rfl, rfl, rfl⟩

/-! ### Each command that FG presents on an initialised port -/

/-- BAUD at a rate without a divisor raises BAUD_RANGE before any register is written (R103). -/
theorem exec_baud_of_no_divisor {rate : Word} (hfg : s.agent = .fg) (hport : port.toNat = p.val)
    (hinit : (s.port p).initialized = true)
    (hd : divisorOf s.platform.dcArith s.platform.pclkHz rate.toNat = none) :
    exec (.baud port rate) s = .next (s.withFault (.configurationError .baudRange) 0x01 port) := by
  have hdiv : s.divisor rate.toNat = none := hd
  show execBaud port rate s = _
  rw [execBaud, checked_fg s .baud port p _ (by decide) hfg hport hinit, hdiv]
  rfl

/-- BREAK_SET and BREAK_CLEAR write the break bit (R110, R111). -/
theorem exec_break_fg (b : Bool) (hfg : s.agent = .fg) (hport : port.toNat = p.val)
    (hinit : (s.port p).initialized = true) :
    exec (if b then .breakSet port else .breakClear port) s = .next (s.setLcrBit p bitBc b) := by
  cases b with
  | false => exact congrArg _ (checked_fg s .breakClear port p _ (by decide) hfg hport hinit)
  | true => exact congrArg _ (checked_fg s .breakSet port p _ (by decide) hfg hport hinit)

theorem exec_irqHandler_fg (h : HandlerToken) (id : Word) (hfg : s.agent = .fg) (hport : port.toNat = p.val)
    (hinit : (s.port p).initialized = true) :
    exec (.irqHandler port h id) s = .next ((s.modPort p fun q => { q with cbId := id }).setHandler p h) :=
  congrArg _ (checked_fg s .irqHandler port p _ (by decide) hfg hport hinit)

theorem exec_free_fg (hfg : s.agent = .fg) (hport : port.toNat = p.val) (hinit : (s.port p).initialized = true) :
    exec (.free port) s = .next (s.modPort p fun q => { q with cbId := 0 }) :=
  congrArg _ (checked_fg s .free port p _ (by decide) hfg hport hinit)

theorem exec_clear_fg (hfg : s.agent = .fg) (hport : port.toNat = p.val) (hinit : (s.port p).initialized = true) :
    exec (.clear port) s = .next (s.resetFifos p true) :=
  congrArg _ (checked_fg s .clear port p _ (by decide) hfg hport hinit)

/-! ### The polls, from FG or a handler -/

theorem exec_readable_poll (ha : s.agent = .fg ∨ ∃ q, s.agent = .isr q) (hport : port.toNat = p.val)
    (hinit : (s.port p).initialized = true) :
    exec (.readable port) s = .next ((s.readLsr p).respond (wordOfBool s.readable)) :=
  congrArg _ (checked_poll s .readable port p _ (.inl rfl) ha hport hinit)

theorem exec_writable_poll (ha : s.agent = .fg ∨ ∃ q, s.agent = .isr q) (hport : port.toNat = p.val)
    (hinit : (s.port p).initialized = true) :
    exec (.writable port) s = .next ((s.evalWritable p).respond (wordOfBool (s.writable p))) :=
  congrArg _ (checked_poll s .writable port p _ (.inr rfl) ha hport hinit)

/-! ### The evaluation of Writable (R130, R131) -/

/-- The CTS read of an evaluation: one exactly while software CTS is in effect. -/
abbrev ctsReads (s : State) (p : Port) : List Event :=
  if (s.port p).swCts = NC then [] else [.gpioRead (s.port p).swCts s.draw.cts]

/-- Software CTS says stop. -/
theorem ctsStops_eq_true : s.ctsStops p = true ↔ (s.port p).swCts ≠ NC ∧ s.draw.cts = true := by
  simp [State.ctsStops, State.softCts]

theorem writableReads_eq (s : State) (p : Port) :
    writableReads s p = ctsReads s p ++ if s.ctsStops p then [] else [.regRead p (.lsr s.draw.lsr)] := by
  by_cases h : (s.port p).swCts = NC <;> simp [writableReads, ctsReads, State.softCts, h]

/-- While CTS says stop, LSR is not read and the count is kept. -/
theorem evalWritable_of_stop (hstop : s.ctsStops p = true) :
    s.evalWritable p = s.emit (ctsReads s p) := by
  rw [evalWritable_eq, writableReads_eq, if_pos hstop, List.append_nil,
    modPort_eq_self s p _ (by simp [hstop])]

/-- Otherwise LSR is read; with TXE at 1 the count is reset. -/
theorem evalWritable_of_txe (hgo : s.ctsStops p = false) (htxe : s.txeSeen = true) :
    s.evalWritable p =
      (s.modPort p fun q => { q with txCount := 0 }).emit (ctsReads s p ++ [.regRead p (.lsr s.draw.lsr)]) := by
  rw [evalWritable_eq, writableReads_eq, hgo, htxe]
  rfl

/-- With TXE at 0 the count is kept. -/
theorem evalWritable_of_no_txe (hgo : s.ctsStops p = false) (htxe : s.txeSeen = false) :
    s.evalWritable p = s.emit (ctsReads s p ++ [.regRead p (.lsr s.draw.lsr)]) := by
  rw [evalWritable_eq, writableReads_eq, hgo, modPort_eq_self s p _ (by simp [htxe])]
  rfl

theorem writable_of_stop (hstop : s.ctsStops p = true) : s.writable p = false := by
  rw [State.writable, if_pos hstop]

theorem writable_of_txe (hgo : s.ctsStops p = false) (htxe : s.txeSeen = true) : s.writable p = true :=
  (writable_iff s p).2 ⟨hgo, .inl htxe⟩

/-- With TXE at 0, the count decides. -/
theorem writable_of_no_txe (hgo : s.ctsStops p = false) (htxe : s.txeSeen = false) :
    s.writable p = decide ((s.port p).txCount.toNat < 16) := by
  rw [State.writable, hgo, htxe]
  rfl

/-! ### The slot of a handler (R25, R122) -/

theorem setHandler_of_global (h : HandlerToken) (hslots : s.platform.handlerSlots = .global) :
    s.setHandler p h = { s with handler := some h } := by
  rw [State.setHandler, hslots]

theorem setHandler_of_perPort (h : HandlerToken) (hslots : s.platform.handlerSlots = .perPort) :
    s.setHandler p h = s.modPort p fun q => { q with handler := some h } := by
  rw [State.setHandler, hslots]

/-! ### The last disable request (R115) -/

/-- The disable branch after a write that leaves IER and the line: one update of the row and the access of IER, and
the line with it unless the other direction is on. -/
theorem modPort_applyRequest_unwanted {f : PortState → PortState} {d : Dir}
    (hier : (f (s.port p)).ier = (s.port p).ier) (hline : (f (s.port p)).nvicEn = (s.port p).nvicEn)
    (hno : ((f (s.port p)).irqApi.get d || (f (s.port p)).irqFlow.get d) = false) :
    (s.modPort p f).applyRequest p d false =
      (s.modPort p fun q =>
        { f q with
          ier := { (f q).ier with en := (f q).ier.en.set d false }
          nvicEn := if (s.port p).ier.en.get (otherDir d) then (s.port p).nvicEn else false }).emit
        ([.regRead p (.ier (s.port p).ier),
          .regWrite p (.ier { (s.port p).ier with en := (s.port p).ier.en.set d false })] ++
         if (s.port p).ier.en.get (otherDir d) then [] else [.nvicDisable p]) := by
  have hreq : (s.modPort p f).requested p d = false := by rwa [State.requested, modPort_port_same]
  rw [State.applyRequest, if_neg Bool.false_ne_true, if_neg (by simp [hreq]), disableLine_eq, modPort_port_same, hier,
    modPort_modPort, modPort_modPort]
  cases (s.port p).ier.en.get (otherDir d)
  · rfl
  · exact congrArg (State.emit · _) (modPort_congr _ _ _ _ (by simp [← hline]))

end

/-- Settles O22: the calculator answers no triple for these rates. -/
theorem baudOutOfRangeWritesNothing : Obligations.BaudOutOfRangeWritesNothing := by
  unfold Obligations.BaudOutOfRangeWritesNothing
  intro s port p rate hfg hport hinit hout
  exact exec_baud_of_no_divisor hfg hport hinit ((divisorAdmitsExactly _ _ _).1.2 hout)

/-- Settles O26: the field write of bit 6 keeps the other bits. -/
theorem breakChangesOneBit : Obligations.BreakChangesOneBit := by
  unfold Obligations.BreakChangesOneBit
  intro s port p b hfg hport hinit
  refine ⟨_, withBit (s.port p).lcr bitBc b, exec_break_fg b hfg hport hinit, ?_⟩
  rw [setLcrBit_eq]
  exact ⟨onlyPort_modPort_emit .., modPort_emit_port_same .., fun n hn => withBit_getLsbD _ _ _ _ hn, rfl⟩

/-- Settles O28: with the slot written nobody wants the direction, so that either request is the disable branch. -/
theorem lastDisableRequestClearsBitAndLine : Obligations.LastDisableRequestClearsBitAndLine := by
  unfold Obligations.LastDisableRequestClearsBitAndLine
  intro s port p d hfg hport hinit ier other events line
  have hother : other = (s.port p).ier.en.get (otherDir d) := by cases d <;> rfl
  refine ⟨fun hflow => ?_, fun happ => ?_⟩
  · refine ⟨_, exec_irqSet_fg false hfg hport hinit, ?_⟩
    rw [State.requestApi, modPort_applyRequest_unwanted rfl rfl (by simp [hflow]), ← hother]
    exact ⟨onlyPort_modPort_emit .., rfl, modPort_emit_port_same ..⟩
  · refine ⟨_, exec_flowIrqSet_fg false hfg hport hinit, ?_⟩
    rw [State.requestFlow, modPort_applyRequest_unwanted rfl rfl (by simp [happ]), ← hother]
    exact ⟨onlyPort_modPort_emit .., rfl, modPort_emit_port_same ..⟩

/-- Settles O30: the slot is the one that HANDLER_SLOTS selects. -/
theorem irqHandlerRegisters : Obligations.IrqHandlerRegisters := by
  unfold Obligations.IrqHandlerRegisters
  intro s port p h id hfg hport hinit
  refine ⟨_, exec_irqHandler_fg h id hfg hport hinit, ?_⟩
  cases hslots : s.platform.handlerSlots with
  | global =>
    rw [setHandler_of_global h (by exact hslots)]
    obtain ⟨⟨hplat, -, hfault, hhost⟩, hothers, hmcr, hgpio, hfg⟩ :=
      onlyPort_modPort s p fun q => { q with cbId := id }
    exact ⟨rfl, hmcr, hgpio, hfg, hplat, hfault, hhost, hothers, fun _ => ⟨rfl, modPort_port_same s p fun q => { q with cbId := id }⟩,
      fun hper => by cases hper⟩
  | perPort =>
    rw [setHandler_of_perPort h (by exact hslots), modPort_modPort]
    obtain ⟨⟨hplat, hslot, hfault, hhost⟩, hothers, hmcr, hgpio, hfg⟩ :=
      onlyPort_modPort s p fun q => { q with cbId := id, handler := some h }
    exact ⟨rfl, hmcr, hgpio, hfg, hplat, hfault, hhost, hothers, fun hglob => (by cases hglob),
      fun _ => ⟨hslot, modPort_port_same ..⟩⟩

/-- Settles O32: two events and nothing else. -/
theorem readableRespondsBitZero : Obligations.ReadableRespondsBitZero := by
  unfold Obligations.ReadableRespondsBitZero
  intro s port p ha hport hinit
  refine ⟨_, exec_readable_poll ha hport hinit, ?_⟩
  rw [State.readLsr, State.respond, emit_emit]
  exact ⟨onlyPort_emit .., rfl, rfl⟩

/-- Settles O33: the evaluation and the answer, case by case of the predicate. -/
theorem writableFollowsThePredicate : Obligations.WritableFollowsThePredicate := by
  unfold Obligations.WritableFollowsThePredicate
  intro s port p ha hport hinit cts txe ctsRead
  refine ⟨_, wordOfBool (s.writable p), exec_writable_poll ha hport hinit, ?_⟩
  rw [State.respond]
  cases hcts : s.ctsStops p with
  | true =>
    obtain ⟨hpin, hhigh⟩ := ctsStops_eq_true.1 hcts
    have hstops : ¬ (cts = NC ∨ s.draw.cts = false) := by simp [cts, hpin, hhigh]
    rw [evalWritable_of_stop hcts, writable_of_stop hcts]
    exact ⟨onlyPort_emit .., fun _ _ => ⟨rfl, rfl, rfl⟩, fun h => absurd h hstops⟩
  | false =>
    have hgo := (ctsStops_eq_false s p).1 hcts
    have hstop : cts ≠ NC → s.draw.cts ≠ true := fun hpin => by simp [hgo.resolve_left hpin]
    cases htxe : s.txeSeen with
    | true =>
      rw [evalWritable_of_txe hcts htxe, writable_of_txe hcts htxe, emit_emit]
      exact ⟨onlyPort_modPort_emit .., fun hpin hhigh => absurd hhigh (hstop hpin), fun _ => ⟨by simp [ctsRead, cts],
        fun _ => ⟨rfl, modPort_emit_port_same ..⟩, fun h => absurd (htxe.symm.trans h) (by decide),
        fun h => absurd (htxe.symm.trans h) (by decide)⟩⟩
    | false =>
      rw [evalWritable_of_no_txe hcts htxe, writable_of_no_txe hcts htxe, emit_emit]
      exact ⟨onlyPort_emit .., fun hpin hhigh => absurd hhigh (hstop hpin), fun _ => ⟨by simp [ctsRead, cts],
        fun h => absurd (htxe.symm.trans h) (by decide), fun _ hfull => ⟨by rw [decide_eq_false (by omega)]; rfl, rfl⟩,
        fun _ hcredit => ⟨by rw [decide_eq_true hcredit]; rfl, rfl⟩⟩⟩

/-- Settles O52: one field of the row. -/
theorem freeClearsTheIdentifier : Obligations.FreeClearsTheIdentifier := by
  unfold Obligations.FreeClearsTheIdentifier
  intro s port p hfg hport hinit
  exact ⟨_, exec_free_fg hfg hport hinit, onlyPort_modPort .., modPort_port_same .., rfl⟩

/-- Settles O53: the one form of FCR write. -/
theorem clearResetsBothFifos : Obligations.ClearResetsBothFifos := by
  unfold Obligations.ClearResetsBothFifos
  intro s port p hfg hport hinit
  refine ⟨_, exec_clear_fg hfg hport hinit, ?_⟩
  rw [resetFifos_eq]
  exact ⟨onlyPort_modPort_emit .., modPort_emit_port_same .., rfl⟩

end Sys2Proof.Machine

/-! INIT's atomic part, and INIT with a clock too low for 9600 baud (45_port_facade.md R155, R171); vectors of the
divisor calculator (40_divisor.md R94-R102); the GPIO record (10_state.md R38); the invariant at a start (R47). -/

namespace Sys2Proof.Machine

/-! ### INIT (R155) -/

section
variable {s : State} {txPin rxPin : Pin} {p : Port}

/-- Without a divisor for 9600 baud: the power and FIFO requests, then the fault (R171). -/
theorem exec_init_of_no_divisor (hfg : s.agent = .fg) (hp : resolvePins s.platform txPin rxPin = .ok p)
    (hd : divisorOf s.platform.dcArith s.platform.pclkHz 9600 = none) :
    exec (.init txPin rxPin) s = .next ((s.initPower p).raise (.configurationError .baudRange) Op.init.code 0) := by
  have hmay : mayPresent s.agent .init = true := by rw [hfg]; rfl
  have hdiv : s.divisor Config.defaultBaud = none := hd
  show execInit txPin rxPin s = _
  rw [execInit, if_pos hmay, hp]
  simp only [State.initPort, hdiv]

/-- A fault raised after an update of a port's row is all that differs beyond that row. -/
theorem onlyPort_raise {t : State} (h : OnlyPort p s t) (c : FaultCause) (op : BitVec 5) (pf : PortField) :
    OnlyPort p { s with fault := (t.raise c op pf).fault } (t.raise c op pf) := by
  obtain ⟨⟨hplat, hslot, -, hhost⟩, hothers, hmcr, hgpio, hstep⟩ := h
  exact ⟨⟨hplat, hslot, rfl, hhost⟩, hothers, hmcr, hgpio, hstep⟩

/-- A sequence waits before step 1 (log 6). -/
theorem enterFg_sfc1_of_wait (r : FlowRequest) (hwait : s.draw.prompt = false) :
    s.enterFg (.sfc1 r) = s.setFgStep (.sfc1 r) :=
  if_neg (by rw [hwait]; decide)

/-- A sequence that is promptly advanced has its step 1 done (log 6). -/
theorem enterFg_sfc1_of_prompt (r : FlowRequest) (hprompt : s.draw.prompt = true) :
    s.enterFg (.sfc1 r) = s.flowStep1 r := by
  have henter : s.enterFg (.sfc1 r) = (s.setFgStep (.sfc1 r)).flowStep1 r := if_pos hprompt
  rw [henter, flowStep1_eq, flowStep1_eq]
  rfl

end

/-- Settles O48: the atomic part is one update of the row, and a promptly advanced sequence has its step 1 done. -/
theorem initBringsUpThePort : Obligations.InitBringsUpThePort := by
  unfold Obligations.InitBringsUpThePort
  intro s txPin rxPin p d hfg htx hrx hd old r cleared
  obtain ⟨-, -, -, hmv, hdav, -⟩ := divisorTripleIsInRange _ _ _ _ hd
  refine ⟨_, exec_init_of_ok hfg (resolvePins_of_agree htx hrx) hd, ?_⟩
  rw [initPower_initLine_eq s p txPin rxPin (by omega) (by omega)]
  obtain ⟨hrest, hothers, hmcr, hgpio, -⟩ := onlyPort_modPort_emit s p (·.broughtUp d) (initEvents s p d txPin rxPin)
  have hrow := modPort_emit_port_same s p (·.broughtUp d) (initEvents s p d txPin rxPin)
  cases hprompt : s.draw.prompt with
  | false =>
    rw [enterFg_sfc1_of_wait _ (by exact hprompt)]
    exact ⟨hrest, hothers, hgpio, hrow, rfl, rfl, (List.append_nil _).symm⟩
  | true =>
    rw [enterFg_sfc1_of_prompt _ (by exact hprompt), flowStep1_eq]
    refine ⟨hrest, hothers, hgpio, hrow, rfl, ?_, ?_⟩
    · simp only [true_and]
      rfl
    · simp only [true_and]
      rfl

/-- Settles O51: no divisor is admitted below 16 · 9600 Hz. -/
theorem initWithALowClockFaultsLate : Obligations.InitWithALowClockFaultsLate := by
  unfold Obligations.InitWithALowClockFaultsLate
  intro s txPin rxPin p hfg htx hrx hclock
  have hd : divisorOf s.platform.dcArith s.platform.pclkHz 9600 = none :=
    (divisorAdmitsExactly _ _ _).1.2 (.inr (.inl (by omega)))
  refine ⟨_, exec_init_of_no_divisor hfg (resolvePins_of_agree htx hrx) hd, ?_⟩
  have hrow := modPort_port_same s p fun q =>
    { q with power := .on, pclkDiv1 := true, fifoEn := .on, rxTrigger := .one }
  rw [initPower_eq, ← hfg]
  exact ⟨rfl, onlyPort_raise (onlyPort_modPort_emit ..) _ _ _, hrow, rfl⟩

/-- Settles O60: the laws of the record, for a pin's number. -/
theorem gpioRecordReadsBack : Obligations.GpioRecordReadsBack := by
  unfold Obligations.GpioRecordReadsBack
  intro m k v hwf
  refine ⟨gpioSet_pin_wf m k v hwf, ?_, fun j hj => ?_⟩
  · rw [gpioGet_gpioSet _ _ _ _ hwf.1, if_pos rfl]
  · rw [gpioGet_gpioSet _ _ _ _ hwf.1, if_neg (Ne.symm hj)]

/-! ### A start (R47) -/

/-- A port at reset meets the invariant: nothing is on, registered, counted or initialised. -/
theorem initial_row_inv {s : State} {p : Port} (hp : (s.port p).Initial) : s.PortInv p := by
  obtain ⟨henable, hline, hcredit⟩ := initial_row_consistent hp
  obtain ⟨hrts, hcts, hcount, hinit, happ, hflow, hid, -, -, -, -, hnvic, -, -, -, hisr⟩ := hp
  refine ⟨henable .rx, henable .tx, hline, fun h => ?_, hcredit, fun h => absurd hid h, fun h => ?_, fun h => ?_,
    fun _ => ⟨hrts, hcts, hcount, hid, happ, hflow⟩⟩
  · cases hnvic.symm.trans h
  · cases hisr.symm.trans h
  · cases hinit.symm.trans h

/-- Settles O54: a start has idle ports, an empty GPIO record and an idle FG. -/
theorem invariantHoldsAtReset : Obligations.InvariantHoldsAtReset := by
  unfold Obligations.InvariantHoldsAtReset
  constructor
  · rintro s ⟨hports, -, hgpio, hidle, -, -⟩
    refine ⟨fun p => initial_row_inv (hports p), hgpio ▸ gpio_wf_nil, ?_⟩
    rw [State.progressOk, hidle]
  · refine ⟨fun p => ?_, rfl, rfl, rfl, rfl, rfl⟩
    have hrow : State.reset.port p = PortState.reset p := by fin_cases p <;> rfl
    rw [hrow]
    exact ⟨rfl, rfl, rfl, rfl, rfl, rfl, rfl, rfl, rfl, rfl, rfl, rfl, rfl, rfl, rfl, rfl⟩

/-! ### Vectors of the divisor calculator (95_test_vectors.md 2.1) -/

/-- Settles O20: the calculator runs on each vector. -/
theorem divisorSampleVectors : Obligations.DivisorSampleVectors := by
  unfold Obligations.DivisorSampleVectors
  refine ⟨?_, ?_, ?_, ?_, ?_, ?_, ?_, ?_, ?_⟩
  all_goals decide +kernel

end Sys2Proof.Machine

/-! PUTC, GETC and their holds (43_tx_credit.md R130-R141), and SET_FLOW_CONTROL's entry into its sequence
(44_flow_control.md R143). A hold's outcome is one equation, which a prompt poll and a later micro-step share. -/

namespace Sys2Proof.Machine

/-! ### PUTC (R136, R137) -/

section
variable {s : State} {port : PortField} {p : Port} {b : Byte}

theorem exec_putc_fg (hfg : s.agent = .fg) (hport : port.toNat = p.val) (hinit : (s.port p).initialized = true) :
    exec (.putc port b) s = .next (s.enterFg (.putcW p b)) :=
  congrArg _ (checked_fg s .putc port p _ (by decide) hfg hport hinit)

theorem advanceFg_of_putcW (h : s.fgStep = .putcW p b) : s.advanceFg = s.pollPutc p b := by rw [State.advanceFg, h]

/-- When PUTC's hold is lifted, in the fields of the port and the draws (R130). -/
theorem writable_iff_lifted : s.writable p = true ↔
    ((s.port p).swCts = NC ∨ s.draw.cts = false) ∧
      (s.draw.lsr.getLsbD (s.platform.txeBit.val + 1) = true ∨ (s.port p).txCount.toNat < 16) :=
  (writable_iff s p).trans (and_congr_left fun _ => ctsStops_eq_false s p)

/-- A port's row after a byte is sent: the count is one above what the evaluation left (R131, R137). -/
def PortState.sent (q : PortState) (txe : Bool) : PortState := { q with txCount := (if txe then 0 else q.txCount) + 1 }

/-- A byte that is sent: the evaluation's reads and reset, the THR write, and the count one higher. -/
theorem sendByte_of_writable (hw : s.writable p = true) :
    s.sendByte p b =
      ((s.modPort p (·.sent s.txeSeen)).emit
        (ctsReads s p ++ [.regRead p (.lsr s.draw.lsr), .regWrite p (.thr b)])).setFgStep .idle := by
  have hgo := ((writable_iff s p).1 hw).1
  rw [sendByte_eq, writableReads_eq, hgo]
  simp [PortState.sent]

/-- A poll of PUTC that fails leaves FG in the hold. -/
theorem enterFg_putcW_of_hold (h : s.draw.prompt = false ∨ s.writable p = false) :
    s.enterFg (.putcW p b) = s.setFgStep (.putcW p b) := by
  obtain hwait | hno := h
  · exact if_neg (by rw [hwait]; decide)
  · have hpoll : (s.setFgStep (.putcW p b)).advanceFg = s.setFgStep (.putcW p b) := if_neg (by
      show ¬ s.writable p = true
      rw [hno]; decide)
    simp only [State.enterFg, hpoll, ite_self]

/-- A prompt poll of PUTC that succeeds sends the byte. -/
theorem enterFg_putcW_of_send (hprompt : s.draw.prompt = true) (hw : s.writable p = true) :
    s.enterFg (.putcW p b) = s.sendByte p b := by
  have henter : s.enterFg (.putcW p b) = (s.setFgStep (.putcW p b)).sendByte p b :=
    (if_pos hprompt).trans (if_pos hw)
  rw [henter, sendByte_eq, sendByte_eq]
  rfl

/-- A byte that is sent touches its port's count, the trace and step[FG]. -/
theorem sendByte_frame (hw : s.writable p = true) :
    OnlyPort p { s with fgStep := .idle } (s.sendByte p b) ∧
    (s.sendByte p b).port p = (s.port p).sent s.txeSeen ∧
    (s.sendByte p b).trace =
      s.trace ++ ctsReads s p ++ [.regRead p (.lsr s.draw.lsr), .regWrite p (.thr b)] := by
  rw [sendByte_of_writable hw]
  obtain ⟨hrest, hothers, hmcr, hgpio, -⟩ := onlyPort_modPort s p (·.sent s.txeSeen)
  exact ⟨⟨hrest, hothers, hmcr, hgpio, rfl⟩, modPort_port_same s p (·.sent s.txeSeen), (List.append_assoc ..).symm⟩

end

/-- Settles O34: the poll succeeds, and sends the byte. -/
theorem putcSendsWhenWritable : Obligations.PutcSendsWhenWritable := by
  unfold Obligations.PutcSendsWhenWritable
  intro s port p b hfg hport hinit hprompt cts txe ctsRead hcts htxe
  have hw : s.writable p = true := writable_iff_lifted.2 ⟨hcts, htxe⟩
  exact ⟨_, (exec_putc_fg hfg hport hinit).trans (congrArg _ (enterFg_putcW_of_send hprompt hw)), sendByte_frame hw⟩

/-- Settles O35: there is no poll, or it fails. -/
theorem putcWaitsOtherwise : Obligations.PutcWaitsOtherwise := by
  unfold Obligations.PutcWaitsOtherwise
  intro s port p b hfg hport hinit hwait
  refine (exec_putc_fg hfg hport hinit).trans (congrArg _ (enterFg_putcW_of_hold (hwait.imp_right fun hno => ?_)))
  rw [Bool.eq_false_iff, ne_eq, writable_iff_lifted]
  rintro ⟨hcts, htxe⟩
  obtain ⟨hpin, hhigh⟩ | ⟨hlow, hfull⟩ := hno
  · simp [hpin, hhigh] at hcts
  · rw [hlow] at htxe
    exact htxe.elim (by decide) (by omega)

/-- Settles O36: the poll of the hold, by whether Writable is true. -/
theorem putcHoldIsOneGuardedStep : Obligations.PutcHoldIsOneGuardedStep := by
  unfold Obligations.PutcHoldIsOneGuardedStep
  intro s p b hhold cts txe lifted
  have hlifted : s.writable p = true ↔ lifted := writable_iff_lifted
  rw [advanceFg_of_putcW hhold]
  refine ⟨fun hno => if_neg (mt hlifted.1 hno), fun hyes => ?_⟩
  have hpoll : s.pollPutc p b = s.sendByte p b := if_pos (hlifted.2 hyes)
  rw [hpoll]
  exact sendByte_frame (hlifted.2 hyes)

/-! ### The credit over a list of bytes (R141) -/

theorem onlyPort_refl (s : State) (p : Port) : OnlyPort p s s :=
  ⟨⟨rfl, rfl, rfl, rfl, rfl, rfl, rfl, rfl, rfl⟩, fun _ _ => rfl, rfl, rfl, rfl⟩

theorem onlyPort_trans {s t u : State} {p : Port} (hst : OnlyPort p s t) (htu : OnlyPort p t u) : OnlyPort p s u := by
  obtain ⟨⟨h1, h2, h3, h4, h5, h6, h7, h8, h9⟩, h10, h11, h12, h13⟩ := hst
  obtain ⟨⟨k1, k2, k3, k4, k5, k6, k7, k8, k9⟩, k10, k11, k12, k13⟩ := htu
  exact ⟨⟨k1.trans h1, k2.trans h2, k3.trans h3, k4.trans h4, k5.trans h5, k6.trans h6, k7.trans h7, k8.trans h8,
    k9.trans h9⟩, fun q hq => (k10 q hq).trans (h10 q hq), k11.trans h11, k12.trans h12, k13.trans h13⟩

/-- What every PUTC of R141's scenario finds: FG idle and prompt, on an initialised port, no software CTS, TXE at
0. -/
structure Sending (s : State) (p : Port) : Prop where
  fg     : s.agent = .fg
  init   : (s.port p).initialized = true
  prompt : s.draw.prompt = true
  idle   : s.fgStep = .idle
  noCts  : (s.port p).swCts = NC
  noTxe  : s.txeSeen = false

section
variable {s : State} {port : PortField} {p : Port}

/-- One PUTC with a credit left uses it. -/
theorem exec_putc_of_sending (h : Sending s p) (b : Byte) (hport : port.toNat = p.val)
    (hcredit : (s.port p).txCount.toNat < 16) :
    ∃ t, exec (.putc port b) s = .next t ∧ OnlyPort p s t ∧ Sending t p ∧
      t.port p = { s.port p with txCount := (s.port p).txCount + 1 } := by
  have hw : s.writable p = true := writable_iff_lifted.2 ⟨.inl h.noCts, .inr hcredit⟩
  obtain ⟨honly, hrow, -⟩ := sendByte_frame (b := b) hw
  rw [h.noTxe] at hrow
  have honly' : OnlyPort p s (s.sendByte p b) := by
    rw [show ({ s with fgStep := .idle } : State) = s by rw [← h.idle]] at honly
    exact honly
  refine ⟨_, (exec_putc_fg h.fg hport h.init).trans (congrArg _ (enterFg_putcW_of_send h.prompt hw)), honly', ?_, hrow⟩
  obtain ⟨⟨hplat, -, -, -, -, hagent, hdraw, -, -⟩, -, -, -, hstep⟩ := honly'
  exact {
    fg := hagent.trans h.fg
    init := by rw [hrow]; exact h.init
    prompt := by rw [hdraw]; exact h.prompt
    idle := hstep.trans h.idle
    noCts := by rw [hrow]; exact h.noCts
    noTxe := by rw [State.txeSeen, hplat, hdraw]; exact h.noTxe }

/-- As many PUTCs as there are credits left use one each. -/
theorem execAll_putc_of_sending (hport : port.toNat = p.val) (bytes : List Byte) :
    ∀ s : State, Sending s p → (s.port p).txCount.toNat + bytes.length ≤ 16 →
      ∃ t, execAll (bytes.map fun b => .putc port b) s = .next t ∧ OnlyPort p s t ∧ Sending t p ∧
        t.port p = { s.port p with txCount := (s.port p).txCount + BitVec.ofNat 8 bytes.length } := by
  induction bytes with
  | nil =>
    intro s h _
    exact ⟨s, rfl, onlyPort_refl s p, h, by simp⟩
  | cons b bytes ih =>
    intro s h hcredit
    rw [List.length_cons] at hcredit
    obtain ⟨t, hexec, honly, hsend, hrow⟩ := exec_putc_of_sending h b hport (by omega)
    have hcount : (t.port p).txCount.toNat = (s.port p).txCount.toNat + 1 := by
      rw [hrow]
      exact BitVec.toNat_add_of_lt (by simpa using by omega)
    obtain ⟨u, hall, honly', hsend', hrow'⟩ := ih t hsend (by omega)
    refine ⟨u, ?_, onlyPort_trans honly honly', hsend', ?_⟩
    · rw [List.map_cons, execAll, hexec]
      exact hall
    · have hsum : (s.port p).txCount + 1 + BitVec.ofNat 8 bytes.length =
          (s.port p).txCount + BitVec.ofNat 8 (bytes.length + 1) := by
        rw [BitVec.ofNat_add, BitVec.add_assoc, BitVec.add_comm 1]
        rfl
      rw [hrow', hrow, List.length_cons, ← hsum]

/-- WRITABLE with no credit and TXE at 0 responds 0 and keeps the row. -/
theorem exec_writable_of_full (h : Sending s p) (hport : port.toNat = p.val) (hfull : 16 ≤ (s.port p).txCount.toNat) :
    ∃ u, exec (.writable port) s = .next u ∧ u.port p = s.port p ∧ u.trace.getLast? = some (.response 0) := by
  have hgo : s.ctsStops p = false := (ctsStops_eq_false s p).2 (.inl h.noCts)
  refine ⟨_, exec_writable_poll (.inl h.fg) hport h.init, ?_⟩
  rw [evalWritable_of_no_txe hgo h.noTxe, writable_of_no_txe hgo h.noTxe, decide_eq_false (by omega)]
  exact ⟨rfl, List.getLast?_concat⟩

/-- WRITABLE that reads TXE = 1 responds 1 and gives the credits back. -/
theorem exec_writable_of_txe (hfg : s.agent = .fg) (hport : port.toNat = p.val) (hinit : (s.port p).initialized = true)
    (hcts : (s.port p).swCts = NC) (htxe : s.txeSeen = true) :
    exec (.writable port) s = .next (((s.modPort p fun q => { q with txCount := 0 }).emit
      (ctsReads s p ++ [.regRead p (.lsr s.draw.lsr)])).respond 1) := by
  have hgo : s.ctsStops p = false := (ctsStops_eq_false s p).2 (.inl hcts)
  rw [exec_writable_poll (.inl hfg) hport hinit, evalWritable_of_txe hgo htxe, writable_of_txe hgo htxe]
  rfl

/-- A prompt PUTC on a count of 0 leaves 1, whatever LSR reads. -/
theorem exec_putc_of_zero (b : Byte) (hfg : s.agent = .fg) (hport : port.toNat = p.val)
    (hinit : (s.port p).initialized = true) (hprompt : s.draw.prompt = true) (hcts : (s.port p).swCts = NC)
    (hzero : (s.port p).txCount = 0) : ∃ w, exec (.putc port b) s = .next w ∧ (w.port p).txCount = 1 := by
  have hw : s.writable p = true := writable_iff_lifted.2 ⟨.inl hcts, .inr (by rw [hzero]; decide)⟩
  refine ⟨_, (exec_putc_fg hfg hport hinit).trans (congrArg _ (enterFg_putcW_of_send hprompt hw)), ?_⟩
  obtain ⟨-, hrow, -⟩ := sendByte_frame (b := b) hw
  rw [hrow, PortState.sent, hzero]
  cases s.txeSeen <;> rfl

end

/-- Settles O37: sixteen credits are used one by one; the observation of TXE gives them back. -/
theorem creditSaturatesAtSixteen : Obligations.CreditSaturatesAtSixteen := by
  unfold Obligations.CreditSaturatesAtSixteen
  intro s port p bytes free hfg hport hinit hprompt hidle hcts hcount hlen htxe hfree
  have hsend : Sending s p := ⟨hfg, hinit, hprompt, hidle, hcts, htxe⟩
  obtain ⟨t, hall, honly, hsend', hrow⟩ := execAll_putc_of_sending hport bytes s hsend (by simp [hcount, hlen])
  rw [hcount, hlen] at hrow
  refine ⟨t, hall, honly, hrow, exec_writable_of_full hsend' hport (by rw [hrow]; exact Nat.le_refl 16), ?_⟩
  have hseen : State.txeSeen { t with draw := { t.draw with lsr := free } } = true := by
    obtain ⟨⟨hplat, -⟩, -⟩ := honly
    rw [← hplat] at hfree
    exact hfree
  refine ⟨_, exec_writable_of_txe hsend'.fg hport hsend'.init hsend'.noCts hseen, ?_, List.getLast?_concat,
    fun lsr b => ?_⟩
  · exact congrArg PortState.txCount (modPort_port_same _ p fun q => { q with txCount := 0 })
  · have hreset := modPort_port_same t p fun q => { q with txCount := 0 }
    exact exec_putc_of_zero b hsend'.fg hport ((congrArg PortState.initialized hreset).trans hsend'.init) hsend'.prompt
      ((congrArg PortState.swCts hreset).trans hsend'.noCts) (congrArg PortState.txCount hreset)

end Sys2Proof.Machine

/-! GETC and its micro-steps, the RTS pin after it (43_tx_credit.md R138, R139), the entry of SET_FLOW_CONTROL
(44_flow_control.md R143), step 6 of the flow sequence with a GPIO pin (R149), what an uninterrupted sequence leaves
(R152), and the window in which no RTS is raised (70_reset_and_hazards.md R205). -/

namespace Sys2Proof.Machine

/-! ### GETC (R138) -/

section
variable {s : State} {port : PortField} {p : Port}

theorem exec_getc_fg (hfg : s.agent = .fg) (hport : port.toNat = p.val) (hinit : (s.port p).initialized = true) :
    exec (.getc port) s = .next (s.enterFg (.getcW p)) :=
  congrArg _ (checked_fg s .getc port p _ (by decide) hfg hport hinit)

theorem advanceFg_of_getcW (h : s.fgStep = .getcW p) : s.advanceFg = s.pollGetc p := by rw [State.advanceFg, h]
theorem advanceFg_of_getcB (h : s.fgStep = .getcB p) : s.advanceFg = s.takeByte p := by rw [State.advanceFg, h]

/-- GETC waits, or its first poll fails: FG stands in the hold. -/
theorem enterFg_getcW_of_hold (h : s.draw.prompt = false ∨ s.readable = false) :
    s.enterFg (.getcW p) = s.setFgStep (.getcW p) := by
  obtain hwait | hno := h
  · exact if_neg (by rw [hwait]; decide)
  · have hpoll : (s.setFgStep (.getcW p)).advanceFg = s.setFgStep (.getcW p) := if_neg (by
      show ¬ s.readable = true
      rw [hno]; decide)
    simp only [State.enterFg, hpoll, ite_self]

/-- Micro-step A without software RTS: the LSR read. -/
theorem acceptByte_of_no_rts (hrts : (s.port p).swRts = NC) :
    s.acceptByte p = { s with fgStep := .getcB p, trace := s.trace ++ [.regRead p (.lsr s.draw.lsr)] } :=
  ((acceptByte_cases s p).resolve_right fun h => h.1 hrts).2

/-- Micro-step A under software RTS: the LSR read, and the pin driven low. -/
theorem acceptByte_of_rts (hrts : (s.port p).swRts ≠ NC) :
    s.acceptByte p =
      ((s.emit [.regRead p (.lsr s.draw.lsr)]).gpioWrite (s.port p).swRts false).setFgStep (.getcB p) :=
  ((acceptByte_cases s p).resolve_left fun h => hrts h.1).2

/-- A prompt poll of GETC that succeeds is micro-step A. -/
theorem enterFg_getcW_of_accept (hprompt : s.draw.prompt = true) (hrdr : s.readable = true) :
    s.enterFg (.getcW p) = s.acceptByte p := by
  have henter : s.enterFg (.getcW p) = (s.setFgStep (.getcW p)).acceptByte p :=
    (if_pos hprompt).trans (if_pos hrdr)
  rw [henter]
  by_cases hrts : (s.port p).swRts = NC
  · rw [acceptByte_of_no_rts hrts, acceptByte_of_no_rts (s := s.setFgStep (.getcW p)) hrts]
    rfl
  · rw [acceptByte_of_rts hrts, acceptByte_of_rts (s := s.setFgStep (.getcW p)) hrts]
    rfl

/-- Micro-step A touches no row, no register and, under software RTS, the one pin (R138, R139). -/
theorem acceptByte_frame (s : State) (p : Port) :
    SameRest s (s.acceptByte p) ∧ (s.acceptByte p).ports = s.ports ∧ (s.acceptByte p).mcr1 = s.mcr1 ∧
      (s.acceptByte p).fgStep = .getcB p := by
  obtain ⟨-, heq⟩ | ⟨-, heq⟩ := acceptByte_cases s p <;> rw [heq] <;>
    exact ⟨⟨rfl, rfl, rfl, rfl, rfl, rfl, rfl, rfl, rfl⟩, rfl, rfl, rfl⟩

/-- Under software RTS the pin reads back low, with its direction, and the other pins are as before. -/
theorem acceptByte_pin (hrts : (s.port p).swRts ≠ NC) (hwf : Gpio.wf s.gpio) :
    (s.acceptByte p).trace = s.trace ++ [.regRead p (.lsr s.draw.lsr), .gpioWrite (s.port p).swRts false] ∧
      ((s.acceptByte p).pin (s.port p).swRts).out = .low ∧
      ((s.acceptByte p).pin (s.port p).swRts).dir = (s.pin (s.port p).swRts).dir ∧
      ∀ k : Pin, k ≠ (s.port p).swRts → (s.acceptByte p).pin k = s.pin k := by
  have hpin : ∀ k, (s.acceptByte p).pin k =
      if (s.port p).swRts = k then ⟨(s.pin (s.port p).swRts).dir, .low⟩ else s.pin k := by
    rw [acceptByte_of_rts hrts]
    exact fun k => gpioWrite_pin (s.emit _) hwf (s.port p).swRts k false
  refine ⟨?_, ?_, ?_, fun k hk => (hpin k).trans (if_neg hk.symm)⟩
  · rw [acceptByte_of_rts hrts]
    exact List.append_assoc ..
  · rw [hpin, if_pos rfl]
  · rw [hpin, if_pos rfl]

end

/-- Settles O38: a prompt poll with RDR = 1 is micro-step A, anything else the hold. -/
theorem getcAcceptsWhenReadable : Obligations.GetcAcceptsWhenReadable := by
  unfold Obligations.GetcAcceptsWhenReadable
  intro s port p hfg hport hinit rts read
  have hexec := exec_getc_fg hfg hport hinit
  refine ⟨fun hprompt hrdr => ?_, fun hwait => hexec.trans (congrArg _ (enterFg_getcW_of_hold hwait))⟩
  obtain ⟨hrest, hports, hmcr, hstep⟩ := acceptByte_frame s p
  refine ⟨_, hexec.trans (congrArg _ (enterFg_getcW_of_accept hprompt hrdr)), hrest, hports, hmcr, hstep,
    fun hrts => ?_, acceptByte_pin⟩
  rw [acceptByte_of_no_rts hrts]
  exact ⟨rfl, rfl⟩

/-- Settles O39: the poll of the hold by RDR, and micro-step B. -/
theorem getcTakesTheByte : Obligations.GetcTakesTheByte := by
  unfold Obligations.GetcTakesTheByte
  intro s p rts read
  refine ⟨fun hhold hno => ?_, fun hhold hrdr => ?_, fun hb => ?_⟩
  · rw [advanceFg_of_getcW hhold]
    exact if_neg (by rw [State.readable, hno]; decide)
  · have hpoll : s.pollGetc p = s.acceptByte p := if_pos hrdr
    rw [advanceFg_of_getcW hhold, hpoll]
    obtain ⟨hrest, hports, hmcr, hstep⟩ := acceptByte_frame s p
    exact ⟨acceptByte_of_no_rts, fun hrts hwf => ⟨hrest, hports, hmcr, hstep, acceptByte_pin hrts hwf⟩⟩
  · rw [advanceFg_of_getcB hb, State.takeByte, State.readRbr, State.respond]
    exact congrArg (fun es => ({ s with fgStep := .idle, trace := es } : State)) (List.append_assoc ..)

/-! ### GETC and an interrupt entry between its micro-steps (R139) -/

/-- A run goes on from the next state of its first step. -/
theorem run_of_step {s t : State} (k : Nat) (h : step s = .next t) : core.run (k + 1) s = core.run k t := by
  have hcore : core.step s = .next t := h
  simp only [Host.Core.run, hcore]

/-- FG between GETC's micro-steps, with the RTS pin of software RTS at `level` (R138, R139). -/
structure BetweenGetc (s : State) (p : Port) (rts : Pin) (level : GpioLevel) : Prop where
  noFault : s.fault = none
  step    : s.fgStep = .getcB p
  wf      : Gpio.wf s.gpio
  level   : (s.pin rts).out = level

section
variable {s : State} {p : Port} {a : EnvInput} {rest : List EnvInput}

/-- Micro-step A, with RDR = 1 under software RTS: the pin is low, and every row is as before. -/
theorem step_accepts (hfault : s.fault = none) (hwf : Gpio.wf s.gpio) (hhold : s.fgStep = .getcW p)
    (hrts : (s.port p).swRts ≠ NC) (hin : s.inputs = a :: rest) (hmove : a.move = .fg)
    (hrdr : a.draws.lsr.getLsbD 0 = true) :
    ∃ t, step s = .next t ∧ BetweenGetc t p (s.port p).swRts .low ∧ t.inputs = rest ∧ t.ports = s.ports := by
  have hnext : s.nextInput = a := by rw [State.nextInput, hin]
  have hpoll : s.takeInput.advanceFg = s.takeInput.acceptByte p :=
    (advanceFg_of_getcW (s := s.takeInput) hhold).trans (if_pos (by rw [State.readable, takeInput_draw, hnext, hrdr]))
  obtain ⟨hrest, hports, -, hstep⟩ := acceptByte_frame s.takeInput p
  obtain ⟨-, -, hnofault, -, -, -, -, hinputs, -⟩ := hrest
  obtain ⟨-, hlow, -⟩ := acceptByte_pin (s := s.takeInput) hrts hwf
  refine ⟨_, (step_of_fg_busy hfault (by rw [hnext, hmove]) (by rw [hhold]; exact FgStep.noConfusion)).trans
    (congrArg _ hpoll), ⟨hnofault.trans hfault, hstep, ?_, hlow⟩, hinputs.trans (congrArg List.tail hin), hports⟩
  rw [acceptByte_of_rts (s := s.takeInput) hrts]
  exact gpioSet_pin_wf _ _ _ hwf

/-- Micro-step B ends the command and leaves the pin. -/
theorem step_takes {rts : Pin} {level : GpioLevel} (h : BetweenGetc s p rts level) (hin : s.inputs = a :: rest)
    (hmove : a.move = .fg) : ∃ t, step s = .next t ∧ t.fgStep = .idle ∧ (t.pin rts).out = level := by
  have hnext : s.nextInput = a := by rw [State.nextInput, hin]
  refine ⟨_, (step_of_fg_busy h.noFault (by rw [hnext, hmove]) (by rw [h.step]; exact FgStep.noConfusion)).trans
    (congrArg _ (advanceFg_of_getcB (s := s.takeInput) h.step)), rfl, h.level⟩

/-- An RX entry of the port between the micro-steps drives the pin high and leaves FG where it stands. -/
theorem step_raises {level : GpioLevel} (h : BetweenGetc s p (s.port p).swRts level) (hrts : (s.port p).swRts ≠ NC)
    (hin : s.inputs = a :: rest) (hmove : a.move = .irq p) (hrx : (a.draws.iir.extractLsb' 1 3).toNat = 2)
    (hline : (s.port p).nvicEn = true) (hvec : (s.port p).vec = true) (hidle : (s.port p).isrStep = .idle)
    (hen : (s.port p).ier.en.rx = true) :
    ∃ t, step s = .next t ∧ BetweenGetc t p (s.port p).swRts .high ∧ t.inputs = rest := by
  have hnext : s.nextInput = a := by rw [State.nextInput, hin]
  have hcan : s.takeInput.irqCanStart p = true := irqCanStart_iff.2 ⟨⟨hline, hvec, hidle⟩, iirAdmitted_iff.2 (.inr
    ⟨fun _ => hen, fun htx => by rw [takeInput_draw, hnext, hrx] at htx; cases htx⟩)⟩
  have hiir : (s.takeInput.draw.iir.extractLsb' 1 3).toNat = 2 := by rw [takeInput_draw, hnext, hrx]
  have hexec := exec_irqEntry_controller (s := s.takeInput.presentedBy .controller) rfl
    ((portOf_eq_some _ _).1 (portOf_fieldOfPort p))
  rw [enterIsr_of_rts_raised (s := s.takeInput.presentedBy .controller) (eventOf_eq_rx_iff.2 hiir) hrts] at hexec
  refine ⟨_, ((step_of_irq h.noFault (by rw [hnext, hmove])).trans (if_pos hcan)).trans hexec,
    ⟨h.noFault, h.step, gpioSet_pin_wf _ _ _ h.wf, ?_⟩, congrArg List.tail hin⟩
  exact congrArg GpioPin.out ((setPin_pin _ h.wf _ _ _).trans (if_pos rfl))

end

/-- Settles O40: the three steps, put together in the two orders. -/
theorem rtsAfterGetc : Obligations.RtsAfterGetc := by
  unfold Obligations.RtsAfterGetc
  intro s p a b c rest hfault hwf hhold hrts hmove hrdr
  refine ⟨fun hin hlast => ?_, fun hin hirq hrx hlast hline hvec hidle hen => ?_⟩
  · obtain ⟨t, hstep, hbetween, hin', -⟩ := step_accepts hfault hwf hhold hrts hin hmove hrdr
    obtain ⟨u, hstep', hend, hlow⟩ := step_takes hbetween hin' hlast
    exact ⟨u, (run_of_step 1 hstep).trans (run_of_step 0 hstep'), hend, hlow⟩
  · obtain ⟨t, hstep, hbetween, hin', hports⟩ := step_accepts hfault hwf hhold hrts hin hmove hrdr
    have hrow : t.port p = s.port p := by rw [State.port, hports]; rfl
    rw [← hrow] at hbetween hrts hline hvec hidle hen ⊢
    obtain ⟨u, hstep', hbetween', hin''⟩ := step_raises hbetween hrts hin' hirq hrx hline hvec hidle hen
    obtain ⟨v, hstep'', hend, hhigh⟩ := step_takes hbetween' hin'' hlast
    exact ⟨v, (run_of_step 2 hstep).trans ((run_of_step 1 hstep').trans (run_of_step 0 hstep'')), hend, hhigh⟩

/-! ### SET_FLOW_CONTROL enters its sequence (R143) -/

/-- Settles O41: before step 1, or with step 1 done. -/
theorem setFlowControlEntersTheSequence : Obligations.SetFlowControlEntersTheSequence := by
  unfold Obligations.SetFlowControlEntersTheSequence
  intro s port p mode rxPin txPin hfg hport hinit
  have hexec := exec_setFlowControl_fg (mode := mode) (rxPin := rxPin) (txPin := txPin) hfg hport hinit
  refine ⟨fun hwait => hexec.trans (congrArg _ (enterFg_sfc1_of_wait _ hwait)), ?_⟩
  intro hprompt cleared
  rw [hexec, enterFg_sfc1_of_prompt _ hprompt, flowStep1_eq]

/-! ### Step 6 (R149) -/

/-- A port's row after step 6 with a GPIO pin: the RX FIFO reset, the pin in the slot, and the RX interrupt on for the
flow requester. -/
def PortState.rtsConnected (q : PortState) (pin : Pin) : PortState :=
  { q with
    fifoEn := .on, rxTrigger := .one, swRts := pin, irqFlow := q.irqFlow.set .rx true
    ier := { q.ier with en := q.ier.en.set .rx true }, vec := true, nvicEn := true }

/-- The GPIO record with a pin made an output and driven low. -/
def State.gpioOutputLow (s : State) (pin : Pin) : GpioMap := ((s.gpioInit pin .output).gpioWrite pin false).gpio

/-- The pin reads back as an output at low, and every other pin as before. -/
theorem gpioOutputLow_get {s : State} {pin : Pin} (hwf : Gpio.wf s.gpio) (k : Pin) :
    gpioGet (s.gpioOutputLow pin) k.toNat = if pin = k then ⟨.output, .low⟩ else s.pin k := by
  have hinit : Gpio.wf (s.gpioInit pin .output).gpio := gpioSet_pin_wf _ _ _ hwf
  refine (gpioWrite_pin (s.gpioInit pin .output) hinit pin k false).trans ?_
  rw [gpioInit_pin s hwf, gpioInit_pin s hwf, if_pos rfl]
  split <;> rfl

/-- What step 6 with a GPIO pin asks of the collaborators. -/
def rtsEvents (s : State) (p : Port) (pin : Pin) : List Event :=
  [.regWrite p (.fcr ⟨true, true, false, s.platform.rxTriggerOne, s.draw.fcrRest⟩), .gpioInit pin .output,
   .gpioWrite pin false, .regRead p (.ier (s.port p).ier),
   .regWrite p (.ier { (s.port p).ier with en := (s.port p).ier.en.set .rx true }), .nvicSetVector p, .nvicEnable p]

section
variable {s : State} {r : FlowRequest}

/-- Step 6 of a mode without RTS, or without a pin, is the end of the sequence. -/
theorem flowStep6_of_absent (habsent : ¬((r.mode = .rts ∨ r.mode = .rtsCts) ∧ r.rxPin ≠ NC)) :
    s.flowStep6 r = s.endFlow r := by
  rw [State.flowStep6, if_neg (mt (And.imp_left (includesRts_iff _).1) habsent)]

/-- Step 6 with a GPIO pin is one update of the row, of the pin and of the trace, and the end of the sequence. -/
theorem flowStep6_of_gpio (hwants : (r.mode = .rts ∨ r.mode = .rtsCts) ∧ r.rxPin ≠ NC)
    (hsw : ¬(r.port = 1 ∧ pinmap s.platform r.rxPin .rts = some 1)) :
    s.flowStep6 r =
      ((State.modPort { s with gpio := s.gpioOutputLow r.rxPin } r.port (·.rtsConnected r.rxPin)).emit
        (rtsEvents s r.port r.rxPin)).endFlow r := by
  have hauto : ¬ autoPin s.platform r.port r.rxPin .rts = true := mt (autoPin_iff ..).1 hsw
  have hpin : ((s.resetFifos r.port false).gpioInit r.rxPin .output).gpioWrite r.rxPin false =
      (State.modPort { s with gpio := s.gpioOutputLow r.rxPin } r.port
        fun q => { q with fifoEn := .on, rxTrigger := .one }).emit
        [.regWrite r.port (.fcr ⟨true, true, false, s.platform.rxTriggerOne, s.draw.fcrRest⟩),
         .gpioInit r.rxPin .output, .gpioWrite r.rxPin false] := by
    simp only [resetFifos_eq, State.gpioInit, State.gpioWrite, emit_setPin, emit_emit]
    rfl
  rw [State.flowStep6, if_pos (hwants.imp_left (includesRts_iff _).2), State.connectRts]
  simp only [hauto, Bool.false_eq_true, if_false, hpin, State.requestFlow, State.applyRequest, if_true, enableLine_eq,
    emit_modPort, modPort_modPort, emit_emit, emit_port, modPort_port_same]
  rfl

end

/-- Settles O44: the three branches of step 6; on the GPIO branch the canonical form makes the record read back. -/
theorem flowStepSixConnectsRts : Obligations.FlowStepSixConnectsRts := by
  unfold Obligations.FlowStepSixConnectsRts
  intro s r h hsilent p wants hardware auto fifo ier
  have hend : ∀ t : State, t.endFlow r = t.setFgStep .idle := fun t => if_neg (by rw [hsilent]; decide)
  rw [advanceFg_of_sfc6 h]
  refine ⟨fun hno => ?_, fun hwants hhw => ?_, fun hwants hsw hwf => ?_⟩
  · rw [flowStep6_of_absent hno, hend]
    rfl
  · rw [flowStep6_of_hardware hwants hhw, hend]
    obtain ⟨hrest, hothers, -, hgpio, -⟩ := onlyPort_modPort s p fun q => { q with fifoEn := .on, rxTrigger := .one }
    have hrow := modPort_port_same s p fun q => { q with fifoEn := .on, rxTrigger := .one }
    exact ⟨hrest, hothers, hgpio, rfl, rfl, hrow, rfl⟩
  · rw [flowStep6_of_gpio hwants hsw, hend]
    obtain ⟨hrest, hothers, hmcr, -, -⟩ := onlyPort_modPort s p (·.rtsConnected r.rxPin)
    have hrow := modPort_port_same s p (·.rtsConnected r.rxPin)
    have hpin := gpioOutputLow_get (pin := r.rxPin) hwf
    exact ⟨hrest, hothers, hmcr, rfl, hrow, (hpin _).trans (if_pos rfl),
      fun k hk => (hpin k).trans (if_neg hk.symm), rfl⟩

/-! ### What an uninterrupted sequence leaves (R151, R152) -/

/-- Steps 1 to 4 leave no software flow control and no flow request for RX, and raise no fault, whatever the mode. -/
theorem flowCleared_row (s : State) (r : FlowRequest) :
    (s.flowCleared r).fault = s.fault ∧ ((s.flowCleared r).port r.port).swRts = NC ∧
      ((s.flowCleared r).port r.port).swCts = NC ∧ ((s.flowCleared r).port r.port).irqFlow.rx = false := by
  by_cases hmode : r.mode = .none
  · obtain ⟨f, es, hreq, -⟩ := requestFlow_writes (s.flowStep1 r) r.port .rx false
    have hflow := (requestFlow_port (s.flowStep1 r) r.port .rx false).1
    rw [hreq, emit_port, modPort_port_same] at hflow
    rw [State.flowCleared, flowStep4_of_mode_none _ hmode, endFlow_eq, flowStep3_eq, State.flowStep2, hreq]
    simp only [emit_port, setFgStep_port, modPort_port_same]
    refine ⟨?_, rfl, rfl, (congrArg PerDir.rx hflow :)⟩
    rw [flowStep1_eq]
    rfl
  · obtain ⟨⟨-, -, hfault, -⟩, -, -, hrts, hcts, hflow, -⟩ := flowCleared_spec s r hmode
    exact ⟨hfault, hrts, hcts, hflow⟩

/-- What software flow control a port has, in the fields that R152 ties together. -/
structure SoftwareFlow (q : PortState) (mode : FlowMode) (rxPin txPin : Pin) : Prop where
  request : q.irqFlow.rx = true ↔ q.swRts ≠ NC
  rts     : q.swRts = NC ∨ (q.swRts = rxPin ∧ (mode = .rts ∨ mode = .rtsCts))
  cts     : q.swCts = NC ∨ (q.swCts = txPin ∧ (mode = .cts ∨ mode = .rtsCts))

section
variable {s : State} {r : FlowRequest}

/-- Step 5 changes its port's row in sw_cts alone, and only to a pin that the mode includes. -/
theorem flowStep5_row (s : State) (r : FlowRequest) : (s.flowStep5 r).fault = s.fault ∧
    ((s.flowStep5 r).port r.port = s.port r.port ∨
      ((s.flowStep5 r).port r.port = { s.port r.port with swCts := r.txPin } ∧ (r.mode = .cts ∨ r.mode = .rtsCts))) := by
  by_cases hwants : (r.mode = .cts ∨ r.mode = .rtsCts) ∧ r.txPin ≠ NC
  · by_cases hhw : r.port = 1 ∧ pinmap s.platform r.txPin .cts = some 1
    · rw [flowStep5_of_hardware hwants hhw]
      exact ⟨rfl, .inl rfl⟩
    · rw [flowStep5_of_gpio hwants hhw]
      exact ⟨rfl, .inr ⟨modPort_port_same (s.gpioInit r.txPin .input) r.port fun q => { q with swCts := r.txPin },
        hwants.1⟩⟩
  · rw [flowStep5_of_absent hwants]
    exact ⟨rfl, .inl rfl⟩

/-- Step 6 connects software RTS together with its request, or neither. -/
theorem flowStep6_row (s : State) (r : FlowRequest) : (s.flowStep6 r).fault = s.fault ∧
    ((s.flowStep6 r).port r.port).swCts = (s.port r.port).swCts ∧
    ((((s.flowStep6 r).port r.port).irqFlow = (s.port r.port).irqFlow ∧
        ((s.flowStep6 r).port r.port).swRts = (s.port r.port).swRts) ∨
      (((s.flowStep6 r).port r.port).irqFlow.rx = true ∧ ((s.flowStep6 r).port r.port).swRts = r.rxPin ∧
        r.rxPin ≠ NC ∧ (r.mode = .rts ∨ r.mode = .rtsCts))) := by
  by_cases hwants : (r.mode = .rts ∨ r.mode = .rtsCts) ∧ r.rxPin ≠ NC
  · by_cases hhw : r.port = 1 ∧ pinmap s.platform r.rxPin .rts = some 1
    · rw [flowStep6_of_hardware hwants hhw, endFlow_eq]
      simp only [emit_port, setFgStep_port, setMcr1_port, modPort_port_same, and_self, true_or, and_true]
      rfl
    · rw [flowStep6_of_gpio hwants hhw, endFlow_eq]
      simp only [emit_port, setFgStep_port, modPort_port_same]
      exact ⟨rfl, rfl, .inr ⟨rfl, rfl, hwants.2, hwants.1⟩⟩
  · rw [flowStep6_of_absent hwants, endFlow_eq]
    exact ⟨rfl, rfl, .inl ⟨rfl, rfl⟩⟩

/-- Steps 5 and 6 after a port without software flow control leave the request and the slot together. -/
theorem flowStep6_flowStep5_softwareFlow (hrts : (s.port r.port).swRts = NC) (hcts : (s.port r.port).swCts = NC)
    (hflow : (s.port r.port).irqFlow.rx = false) :
    ((s.flowStep5 r).flowStep6 r).fault = s.fault ∧
      SoftwareFlow (((s.flowStep5 r).flowStep6 r).port r.port) r.mode r.rxPin r.txPin := by
  obtain ⟨hfault, hrow⟩ := flowStep5_row s r
  obtain ⟨hfault', hcts', hlink⟩ := flowStep6_row (s.flowStep5 r) r
  have hslots : ((s.flowStep5 r).port r.port).swRts = NC ∧ ((s.flowStep5 r).port r.port).irqFlow.rx = false ∧
      (((s.flowStep5 r).port r.port).swCts = NC ∨
        (((s.flowStep5 r).port r.port).swCts = r.txPin ∧ (r.mode = .cts ∨ r.mode = .rtsCts))) := by
    obtain heq | ⟨heq, hmode⟩ := hrow <;> rw [heq]
    · exact ⟨hrts, hflow, .inl hcts⟩
    · exact ⟨hrts, hflow, .inr ⟨rfl, hmode⟩⟩
  obtain ⟨hrts5, hflow5, hcts5⟩ := hslots
  rw [← hcts'] at hcts5
  refine ⟨hfault'.trans hfault, ?_⟩
  obtain ⟨hflow6, hrts6⟩ | ⟨hflow6, hrts6, hpin, hmode⟩ := hlink
  · rw [hrts5] at hrts6
    exact ⟨by simp [hflow6, hflow5, hrts6], .inl hrts6, hcts5⟩
  · exact ⟨by simp [hflow6, hrts6, hpin], .inr ⟨hrts6, hmode⟩, hcts5⟩

/-- Six micro-steps of a sequence of mode none are its steps 1 to 4: the last two find FG idle. -/
theorem enterFg_sfc1_advanceFgBy_six_of_none (s : State) (r : FlowRequest) (hmode : r.mode = .none) :
    (s.enterFg (.sfc1 r)).advanceFgBy 6 = s.flowCleared r := by
  have hidle : (s.flowCleared r).fgStep = .idle := by
    rw [State.flowCleared, flowStep4_of_mode_none _ hmode, endFlow_eq]
    rfl
  rw [advanceFgBy_succ _ 5, advanceFgBy_succ _ 4, enterFg_sfc1_advanceFgBy_four s r hmode, advanceFg_of_idle hidle,
    advanceFg_of_idle hidle]

end

/-- Settles O46: steps 1 to 4 clear what the port held; a sequence that goes on connects the slot and its request
together. -/
theorem flowRequestMatchesSoftwareRts : Obligations.FlowRequestMatchesSoftwareRts := by
  unfold Obligations.FlowRequestMatchesSoftwareRts
  intro s port p mode rxPin txPin hfg hport hinit
  refine ⟨_, exec_setFlowControl_fg hfg hport hinit, ?_⟩
  obtain ⟨hfault, hrts, hcts, hflow⟩ := flowCleared_row s ⟨p, mode, rxPin, txPin, false⟩
  by_cases hmode : mode = .none
  · rw [enterFg_sfc1_advanceFgBy_six_of_none _ _ hmode]
    refine ⟨?_, hfault, by simp [hrts, hflow], .inl hrts, .inl hcts⟩
    rw [State.flowCleared, flowStep4_of_mode_none _ hmode, endFlow_eq]
    rfl
  · rw [enterFg_sfc1_advanceFgBy_six _ _ hmode]
    obtain ⟨hfault', hrequest, hrts', hcts'⟩ := flowStep6_flowStep5_softwareFlow hrts hcts hflow
    exact ⟨by rw [State.flowStep6, endFlow_eq]; rfl, hfault'.trans hfault, hrequest, hrts', hcts'⟩

/-! ### The window in which no RTS is raised (R205) -/

/-- An interrupt entry without software RTS sets up or drives no pin: its events are the IIR read and, for an event,
the handler call. -/
theorem enterIsr_of_no_rts {s : State} {p : Port} (hrts : (s.port p).swRts = NC) :
    ∃ es, (s.enterIsr p).gpio = s.gpio ∧ (s.enterIsr p).trace = s.trace ++ es ∧ PinFree es := by
  cases hev : eventOf s.draw.iir with
  | none =>
    rw [enterIsr_of_ignored hev]
    exact ⟨_, rfl, rfl, rfl⟩
  | some ev =>
    rw [enterIsr_of_rts_kept hev (.inr hrts)]
    refine ⟨_, rfl, rfl, ?_⟩
    unfold handlerCall
    split <;> rfl

/-- In the window after step 2 the flow request for RX is off, and from step 3 on there is no software RTS. -/
theorem progressOk_window {s : State} {r : FlowRequest} (hprogress : s.progressOk = true) :
    (s.fgStep = .sfc3 r → (s.port r.port).irqFlow.rx = false) ∧
    (s.fgStep = .sfc4 r ∨ s.fgStep = .sfc5 r ∨ s.fgStep = .sfc6 r →
      (s.port r.port).irqFlow.rx = false ∧ (s.port r.port).swRts = NC) := by
  refine ⟨fun h => ?_, ?_⟩
  · simp only [State.progressOk, h, Bool.and_eq_true, Bool.not_eq_true'] at hprogress
    exact hprogress.2
  · rintro (h | h | h) <;>
      simp only [State.progressOk, h, Bool.and_eq_true, Bool.not_eq_true', beq_iff_eq] at hprogress
    · obtain ⟨⟨-, hflow⟩, hrts⟩ := hprogress
      exact ⟨hflow, hrts⟩
    · obtain ⟨⟨⟨-, hflow⟩, hrts⟩, -⟩ := hprogress
      exact ⟨hflow, hrts⟩
    · obtain ⟨⟨⟨-, hflow⟩, hrts⟩, -⟩ := hprogress
      exact ⟨hflow, hrts⟩

/-- Settles O47: in the window the enable bit is left to the application's slot, and an entry drives no pin. -/
theorem flowWindowRaisesNoRts : Obligations.FlowWindowRaisesNoRts := by
  unfold Obligations.FlowWindowRaisesNoRts
  rintro s port p r ⟨hports, -, hprogress⟩ hctl hport rfl cleared
  obtain ⟨hsfc3, hcleared⟩ := progressOk_window (r := r) hprogress
  refine ⟨fun h => ?_, fun h => ?_⟩
  · have hflow : (s.port r.port).irqFlow.rx = false := h.elim hsfc3 fun h => (hcleared h).1
    obtain ⟨henable, -⟩ := hports r.port
    rw [henable, hflow, Bool.or_false]
  · obtain ⟨-, hrts⟩ := hcleared h
    obtain ⟨es, hgpio, htrace, hfree⟩ := enterIsr_of_no_rts hrts
    exact ⟨hrts, _, es, exec_irqEntry_controller hctl hport, hgpio, htrace,
      fun pin b => (hfree.not_mem pin .output b).2⟩

end Sys2Proof.Machine

/-! What a command and a step can do, said once (00_scope.md R12-R14, 60_exceptions.md R163, R168-R171), and what no
operation on a port undoes. A command is rejected with a fault, or performs its body on a port that passed the checks;
every body and every micro-step works on one port. -/

namespace Sys2Proof.Machine

/-! ### What a command can do -/

/-- The command passes CommonChecks on port `p` (R170). -/
structure Passes (s : State) (op : Op) (port : PortField) (p : Port) : Prop where
  may  : mayPresent s.agent op = true
  port : portOf port = some p
  init : (s.port p).initialized = true

/-- The commands that are not rejected: what each performs, on which port. -/
inductive Performs (s : State) : Instr → Port → State → Prop where
  | baud {port : PortField} {rate : Word} {p : Port} {d : Triple} (h : Passes s .baud port p)
      (hd : s.divisor rate.toNat = some d) : Performs s (.baud port rate) p (s.programDivisor p d.dl d.dav d.mv)
  | format {port : PortField} {bits : BitVec 4} {par : BitVec 3} {stops : BitVec 2} {p : Port} {pr : Parity}
      (h : Passes s .format port p) :
      Performs s (.format port bits par stops) p (s.writeLcr p (lcrFormat bits pr stops))
  | breakSet {port : PortField} {p : Port} (h : Passes s .breakSet port p) :
      Performs s (.breakSet port) p (s.setLcrBit p bitBc true)
  | breakClear {port : PortField} {p : Port} (h : Passes s .breakClear port p) :
      Performs s (.breakClear port) p (s.setLcrBit p bitBc false)
  | irqSet {port : PortField} {d : Dir} {en : Bool} {p : Port} (h : Passes s .irqSet port p) :
      Performs s (.irqSet port d en) p (s.requestApi p d en)
  | flowIrqSet {port : PortField} {d : Dir} {en : Bool} {p : Port} (h : Passes s .flowIrqSet port p) :
      Performs s (.flowIrqSet port d en) p (s.requestFlow p d en)
  | irqHandler {port : PortField} {token : HandlerToken} {id : Word} {p : Port} (h : Passes s .irqHandler port p) :
      Performs s (.irqHandler port token id) p ((s.modPort p fun q => { q with cbId := id }).setHandler p token)
  | irqEntry {port : PortField} {p : Port} (hctl : s.agent = .controller) (hport : portOf port = some p) :
      Performs s (.irqEntry port) p (s.enterIsr p)
  | readable {port : PortField} {p : Port} (h : Passes s .readable port p) :
      Performs s (.readable port) p ((s.readLsr p).respond (wordOfBool s.readable))
  | writable {port : PortField} {p : Port} (h : Passes s .writable port p) :
      Performs s (.writable port) p ((s.evalWritable p).respond (wordOfBool (s.writable p)))
  | getc {port : PortField} {p : Port} (h : Passes s .getc port p) :
      Performs s (.getc port) p (s.enterFg (.getcW p))
  | putc {port : PortField} {byte : Byte} {p : Port} (h : Passes s .putc port p) :
      Performs s (.putc port byte) p (s.enterFg (.putcW p byte))
  | setFlowControl {port : PortField} {mode : FlowMode} {rxPin txPin : Pin} {p : Port}
      (h : Passes s .setFlowControl port p) :
      Performs s (.setFlowControl port mode rxPin txPin) p (s.enterFg (.sfc1 ⟨p, mode, rxPin, txPin, false⟩))
  | init {txPin rxPin : Pin} {p : Port} {d : Triple} (hmay : mayPresent s.agent .init = true)
      (hpins : resolvePins s.platform txPin rxPin = .ok p) (hd : s.divisor Config.defaultBaud = some d) :
      Performs s (.init txPin rxPin) p (((s.initPower p).initLine p d txPin rxPin).enterFg (.sfc1 (initRequest p)))
  | initLowClock {txPin rxPin : Pin} {p : Port} (hmay : mayPresent s.agent .init = true)
      (hpins : resolvePins s.platform txPin rxPin = .ok p) :
      Performs s (.init txPin rxPin) p ((s.initPower p).raise (.configurationError .baudRange) Op.init.code 0)
  | free {port : PortField} {p : Port} (h : Passes s .free port p) :
      Performs s (.free port) p (s.modPort p fun q => { q with cbId := 0 })
  | clear {port : PortField} {p : Port} (h : Passes s .clear port p) :
      Performs s (.clear port) p (s.resetFifos p true)

/-- The command is rejected before any effect: a fault is recorded under its OP and PORT. -/
def Rejects (s : State) (i : Instr) (t : State) : Prop := ∃ c, t = s.raise c i.op.code i.portField

section
variable {s t : State} {i : Instr}

/-- CommonChecks rejects, or runs the body on a port that passed. -/
theorem checked_inv (s : State) (op : Op) (port : PortField) (body : Port → State) :
    (∃ c, s.checked op port body = s.raise c op.code port) ∨
    ∃ p, Passes s op port p ∧ s.checked op port body = body p := by
  obtain ⟨-, heq⟩ | ⟨-, -, heq⟩ | ⟨-, -, -, -, heq⟩ | ⟨p, hmay, hport, hinit, heq⟩ := checked_cases s op port body
  · exact .inl ⟨_, heq⟩
  · exact .inl ⟨_, heq⟩
  · exact .inl ⟨_, heq⟩
  · exact .inr ⟨p, ⟨hmay, hport, hinit⟩, heq⟩

/-- A command whose body always performs. -/
theorem checked_performs {body : Port → State} (h : t = s.checked i.op i.portField body)
    (hbody : ∀ p, Passes s i.op i.portField p → Performs s i p (body p)) :
    Rejects s i t ∨ ∃ p, Performs s i p t := by
  obtain ⟨c, heq⟩ | ⟨p, hpass, heq⟩ := checked_inv s i.op i.portField body
  · exact .inl ⟨c, h.trans heq⟩
  · rw [h, heq]
    exact .inr ⟨p, hbody p hpass⟩

theorem execBaud_cases {port : PortField} {rate : Word} (h : execBaud port rate s = .next t) :
    Rejects s (.baud port rate) t ∨ ∃ p, Performs s (.baud port rate) p t := by
  injection h with h
  subst h
  obtain ⟨c, heq⟩ | ⟨p, hpass, heq⟩ := checked_inv s .baud port _ <;> rw [heq]
  · exact .inl ⟨c, rfl⟩
  · cases hd : s.divisor rate.toNat with
    | none => exact .inl ⟨_, rfl⟩
    | some d => exact .inr ⟨p, .baud hpass hd⟩

theorem execFormat_cases {port : PortField} {bits : BitVec 4} {par : BitVec 3} {stops : BitVec 2}
    (h : execFormat port bits par stops s = .next t) :
    Rejects s (.format port bits par stops) t ∨ ∃ p, Performs s (.format port bits par stops) p t := by
  injection h with h
  subst h
  obtain ⟨c, heq⟩ | ⟨p, hpass, heq⟩ := checked_inv s .format port _ <;> rw [heq]
  · exact .inl ⟨c, rfl⟩
  · cases hpr : validateFormat bits par stops with
    | error c => exact .inl ⟨c, rfl⟩
    | ok pr => exact .inr ⟨p, .format hpass⟩

theorem execIrqEntry_cases {port : PortField} (h : execIrqEntry port s = .next t) :
    Rejects s (.irqEntry port) t ∨ ∃ p, Performs s (.irqEntry port) p t := by
  injection h with h
  subst h
  split
  · next p hctl hport => exact .inr ⟨p, .irqEntry hctl hport⟩
  · exact .inl ⟨_, rfl⟩
  · exact .inl ⟨_, rfl⟩
  · exact .inl ⟨_, rfl⟩

theorem execInit_cases {txPin rxPin : Pin} (h : execInit txPin rxPin s = .next t) :
    Rejects s (.init txPin rxPin) t ∨ ∃ p, Performs s (.init txPin rxPin) p t := by
  injection h with h
  subst h
  split
  · next hmay =>
    cases hpins : resolvePins s.platform txPin rxPin with
    | error c => exact .inl ⟨c, rfl⟩
    | ok p =>
      refine .inr ⟨p, ?_⟩
      unfold State.initPort
      cases hd : s.divisor Config.defaultBaud with
      | none => exact .initLowClock hmay hpins
      | some d => exact .init hmay hpins hd
  · exact .inl ⟨_, rfl⟩

/-- Every command is rejected, or performs its body on one port. -/
theorem exec_cases (h : exec i s = .next t) : Rejects s i t ∨ ∃ p, Performs s i p t := by
  cases i with
  | baud port rate => exact execBaud_cases h
  | format port bits par stops => exact execFormat_cases h
  | breakSet port => exact checked_performs (Host.Outcome.next.inj h).symm fun _ => .breakSet
  | breakClear port => exact checked_performs (Host.Outcome.next.inj h).symm fun _ => .breakClear
  | irqSet port dir en => exact checked_performs (Host.Outcome.next.inj h).symm fun _ => .irqSet
  | flowIrqSet port dir en => exact checked_performs (Host.Outcome.next.inj h).symm fun _ => .flowIrqSet
  | irqHandler port token id => exact checked_performs (Host.Outcome.next.inj h).symm fun _ => .irqHandler
  | irqEntry port => exact execIrqEntry_cases h
  | readable port => exact checked_performs (Host.Outcome.next.inj h).symm fun _ => .readable
  | writable port => exact checked_performs (Host.Outcome.next.inj h).symm fun _ => .writable
  | getc port => exact checked_performs (Host.Outcome.next.inj h).symm fun _ => .getc
  | putc port byte => exact checked_performs (Host.Outcome.next.inj h).symm fun _ => .putc
  | setFlowControl port mode rxPin txPin =>
    exact checked_performs (Host.Outcome.next.inj h).symm fun _ => .setFlowControl
  | init txPin rxPin => exact execInit_cases h
  | free port => exact checked_performs (Host.Outcome.next.inj h).symm fun _ => .free
  | clear port => exact checked_performs (Host.Outcome.next.inj h).symm fun _ => .clear

end

/-! ### What a step can do -/

/-- An agent that may present a command takes one: the state in which it is performed. -/
inductive Takes (s : State) : State → Prop where
  | fg (rest : List Word) (hmove : s.nextInput.move = .fg) (hidle : s.fgStep = .idle) :
      Takes s ((s.takeInput.setFgWords rest).presentedBy .fg)
  | isr (p : Port) (rest : List Word) (hmove : s.nextInput.move = .isr p) (hrun : (s.port p).isrStep = .inHandler) :
      Takes s ((s.takeInput.setIsrWords p rest).presentedBy (.isr p))

/-- The steps of a block with no fault recorded (R12-R14, R163). -/
inductive Stepped (s : State) : State → Prop where
  | stutter : Stepped s s.takeInput
  | refused {u : State} (hu : Takes s u) (why : RefusedSub) (cmd : Word) : Stepped s (u.raiseRefused why cmd)
  | command {u t : State} {i : Instr} (hu : Takes s u) (h : exec i u = .next t) : Stepped s t
  | advance (hmove : s.nextInput.move = .fg) (hbusy : s.fgStep ≠ .idle) : Stepped s s.takeInput.advanceFg
  | entry (p : Port) (hmove : s.nextInput.move = .irq p) (hcan : s.takeInput.irqCanStart p = true) :
      Stepped s ((s.takeInput.presentedBy .controller).enterIsr p)
  | ret (p : Port) (hmove : s.nextInput.move = .ret p) : Stepped s (s.takeInput.returnFromIsr p)

section
variable {s t : State} {p : Port}

theorem stepped_of_takeFgCommand (hmove : s.nextInput.move = .fg) (hidle : s.fgStep = .idle)
    (h : s.takeInput.takeFgCommand = .next t) : Stepped s t := by
  unfold State.takeFgCommand at h
  split at h
  · cases h
    exact .stutter
  · cases h
    exact .refused (.fg _ hmove hidle) _ _
  · exact .command (.fg _ hmove hidle) h

theorem stepped_of_takeIsrCommand (hmove : s.nextInput.move = .isr p) (hrun : (s.port p).isrStep = .inHandler)
    (h : s.takeInput.takeIsrCommand p = .next t) : Stepped s t := by
  unfold State.takeIsrCommand at h
  split at h
  · cases h
    exact .stutter
  · cases h
    exact .refused (.isr p _ hmove hrun) _ _
  · exact .command (.isr p _ hmove hrun) h

theorem stepped_of_moveIrq (hmove : s.nextInput.move = .irq p) (h : s.takeInput.moveIrq p = .next t) :
    Stepped s t := by
  unfold State.moveIrq at h
  split at h
  · next hcan =>
    rw [exec_irqEntry_controller rfl ((portOf_eq_some _ _).1 (portOf_fieldOfPort p))] at h
    cases h
    exact .entry p hmove hcan
  · cases h
    exact .stutter

/-- Every step is one of these. -/
theorem step_cases (h : step s = .next t) : s.fault = none ∧ Stepped s t := by
  cases hfault : s.fault with
  | some r =>
    rw [step, hfault] at h
    cases h
  | none =>
    refine ⟨rfl, ?_⟩
    rw [step_of_no_fault hfault] at h
    cases hmove : s.nextInput.move with
    | fg =>
      rw [hmove] at h
      by_cases hidle : s.fgStep = .idle
      · exact stepped_of_takeFgCommand hmove hidle ((if_pos hidle).symm.trans h)
      · cases (if_neg hidle).symm.trans h
        exact .advance hmove hidle
    | irq p =>
      rw [hmove] at h
      exact stepped_of_moveIrq hmove h
    | isr p =>
      rw [hmove] at h
      by_cases hrun : (s.port p).isrStep = .inHandler
      · exact stepped_of_takeIsrCommand hmove hrun ((if_pos hrun).symm.trans h)
      · cases (if_neg hrun).symm.trans h
        exact .stutter
    | ret p =>
      rw [hmove] at h
      cases h
      exact .ret p hmove

end

end Sys2Proof.Machine

/-! What the operations on a port leave as it was, and what they do not undo (10_state.md R21, R37, R39, R41, R43-R46,
60_exceptions.md R171, R179). `Works p s t` composes, so that each operation is settled from the ones it is made of. -/

namespace Sys2Proof.Machine

/-! ### One port at work -/

/-- What no update of a port's row undoes (R21, R37, R39), and the IER bits the block does not own (R30). -/
structure PortState.Lasts (q q' : PortState) : Prop where
  initialized : q.initialized = true → q'.initialized = true
  vec         : q.vec = true → q'.vec = true
  power       : q.power = .on → q'.power = .on
  pclkDiv1    : q.pclkDiv1 = true → q'.pclkDiv1 = true
  ierRest     : q'.ier.rest = q.ier.rest

/-- What every body and micro-step keeps of its port's row: a line that is on has its vector, an initialised port is
ready, no ISR starts or returns, and no identifier or handler is registered. -/
structure PortState.Keeps (q q' : PortState) : Prop extends q.Lasts q' where
  isrStep : q'.isrStep = q.isrStep
  handler : q'.handler = q.handler
  cbId    : q'.cbId ≠ 0 → q.cbId ≠ 0
  line    : (q.nvicEn = true → q.vec = true) → q'.nvicEn = true → q'.vec = true
  ready   : (q.initialized = true → q.Ready) → q'.initialized = true → q'.Ready

/-- Only port `p`'s row, MCR[1] if `p` is the port it belongs to, the GPIO record, step[FG], the handler slot, the
fault record and the trace may differ; the trace grows, and the record stays canonical. -/
structure Touches (p : Port) (s t : State) : Prop where
  platform : t.platform = s.platform
  host     : SameHost s t
  others   : SameOtherPorts p s t
  mcr1     : t.mcr1 = s.mcr1 ∨ (p = 1 ∧ t.mcr1.rest = s.mcr1.rest)
  gpio     : Gpio.wf s.gpio → Gpio.wf t.gpio
  trace    : s.trace <+: t.trace

/-- An operation at work on port `p`: it keeps the port's row, registers no handler and raises no fault. -/
structure Works (p : Port) (s t : State) : Prop extends Touches p s t where
  handler : t.handler = s.handler
  fault   : t.fault = s.fault
  row     : (s.port p).Keeps (t.port p)

theorem PortState.Lasts.refl (q : PortState) : q.Lasts q := ⟨id, id, id, id, rfl⟩

theorem PortState.Lasts.trans {q q' q'' : PortState} (h : q.Lasts q') (h' : q'.Lasts q'') : q.Lasts q'' where
  initialized := h'.initialized ∘ h.initialized
  vec := h'.vec ∘ h.vec
  power := h'.power ∘ h.power
  pclkDiv1 := h'.pclkDiv1 ∘ h.pclkDiv1
  ierRest := h'.ierRest.trans h.ierRest

theorem PortState.Keeps.refl (q : PortState) : q.Keeps q := ⟨.refl q, rfl, rfl, id, id, id⟩

theorem PortState.Keeps.trans {q q' q'' : PortState} (h : q.Keeps q') (h' : q'.Keeps q'') : q.Keeps q'' where
  toLasts := h.toLasts.trans h'.toLasts
  isrStep := h'.isrStep.trans h.isrStep
  handler := h'.handler.trans h.handler
  cbId := h.cbId ∘ h'.cbId
  line := h'.line ∘ h.line
  ready := h'.ready ∘ h.ready

section
variable {p : Port} {s t u : State}

theorem Touches.trans (h : Touches p s t) (h' : Touches p t u) : Touches p s u where
  platform := h'.platform.trans h.platform
  host := by
    obtain ⟨h1, h2, h3, h4, h5, h6⟩ := h.host
    obtain ⟨k1, k2, k3, k4, k5, k6⟩ := h'.host
    exact ⟨k1.trans h1, k2.trans h2, k3.trans h3, k4.trans h4, k5.trans h5, k6.trans h6⟩
  others := fun q hq => (h'.others q hq).trans (h.others q hq)
  mcr1 := by
    obtain heq' | ⟨hp, hrest'⟩ := h'.mcr1
    · rw [heq']
      exact h.mcr1
    · obtain heq | ⟨-, hrest⟩ := h.mcr1
      · exact .inr ⟨hp, by rw [hrest', heq]⟩
      · exact .inr ⟨hp, hrest'.trans hrest⟩
  gpio := h'.gpio ∘ h.gpio
  trace := h.trace.trans h'.trace

theorem Works.trans (h : Works p s t) (h' : Works p t u) : Works p s u where
  toTouches := h.toTouches.trans h'.toTouches
  handler := h'.handler.trans h.handler
  fault := h'.fault.trans h.fault
  row := h.row.trans h'.row

/-- A change of MCR[1] (on its own port), the GPIO record, step[FG] and the trace is work on a port. -/
theorem works_update (m : Mcr) (g : GpioMap) (st : FgStep) (es : List Event)
    (hm : m = s.mcr1 ∨ (p = 1 ∧ m.rest = s.mcr1.rest)) (hg : Gpio.wf s.gpio → Gpio.wf g) :
    Works p s { s with mcr1 := m, gpio := g, fgStep := st, trace := s.trace ++ es } where
  platform := rfl
  host := ⟨rfl, rfl, rfl, rfl, rfl, rfl⟩
  others := fun _ _ => rfl
  mcr1 := hm
  gpio := hg
  trace := List.prefix_append _ _
  handler := rfl
  fault := rfl
  row := .refl _

theorem works_emit (es : List Event) : Works p s (s.emit es) := works_update _ _ _ es (.inl rfl) id

theorem works_setFgStep (st : FgStep) : Works p s (s.setFgStep st) := by
  have h := works_update (p := p) (s := s) s.mcr1 s.gpio st [] (.inl rfl) id
  rw [List.append_nil] at h
  exact h

theorem Works.refl (p : Port) (s : State) : Works p s s := works_setFgStep s.fgStep

theorem works_updateMcr (m : Mcr) (hp : p = 1) (hrest : m.rest = s.mcr1.rest) : Works p s (s.updateMcr m) :=
  works_update m _ _ _ (.inr ⟨hp, hrest⟩) id

theorem works_gpioInit (k : Pin) (dir : GpioDir) : Works p s (s.gpioInit k dir) :=
  works_update _ _ _ _ (.inl rfl) (gpioSet_pin_wf _ _ _)

theorem works_gpioWrite (k : Pin) (b : Bool) : Works p s (s.gpioWrite k b) :=
  works_update _ _ _ _ (.inl rfl) (gpioSet_pin_wf _ _ _)

theorem touches_modPort (f : PortState → PortState) : Touches p s (s.modPort p f) where
  platform := rfl
  host := ⟨rfl, rfl, rfl, rfl, rfl, rfl⟩
  others := fun q hq => modPort_port_ne s p q f hq
  mcr1 := .inl rfl
  gpio := id
  trace := List.prefix_refl _

/-- An update of the port's row is work on it, when it keeps the row. -/
theorem works_modPort {f : PortState → PortState} (hf : (s.port p).Keeps (f (s.port p))) :
    Works p s (s.modPort p f) where
  toTouches := touches_modPort f
  handler := rfl
  fault := rfl
  row := by rwa [modPort_port_same]

theorem works_modPort_emit {f : PortState → PortState} {es : List Event} (hf : (s.port p).Keeps (f (s.port p))) :
    Works p s ((s.modPort p f).emit es) :=
  (works_modPort hf).trans (works_emit es)

end

/-! ### The registers of an initialised port (R27-R29, R46, R99, R106) -/

/-- A line-control word as an initialised port holds it: DLAB is clear, and PS is 0 whenever PE is 0. -/
def LcrOk (v : Byte) : Prop := v.getLsbD 7 = false ∧ (v.getLsbD 3 = false → v.extractLsb' 4 2 = 0)

/-- A word with the DLAB, PE and PS of another, or with DLAB clear. -/
theorem LcrOk.of_bits {v w : Byte} (hv : LcrOk v) (hdlab : w.getLsbD 7 = false) (hpe : w.getLsbD 3 = v.getLsbD 3)
    (hps : w.extractLsb' 4 2 = v.extractLsb' 4 2) : LcrOk w :=
  ⟨hdlab, by rw [hpe, hps]; exact hv.2⟩

theorem lcrOk_lcrFormat (bits : BitVec 4) (par : Parity) (stops : BitVec 2) : LcrOk (lcrFormat bits par stops) := by
  constructor
  · have hhigh := congrArg (BitVec.getLsbD · 1) (lcrFormat_breakAndDlab bits par stops)
    simpa using hhigh
  · rw [lcrFormat_parityEnable, lcrFormat_paritySelect]
    cases par <;> decide

/-- The break bit is neither DLAB nor one of the parity bits. -/
theorem LcrOk.withBreak {v : Byte} (hv : LcrOk v) (b : Bool) : LcrOk (withBit v bitBc b) := by
  have hbit := fun k hk => withBit_getLsbD v bitBc k b hk
  refine hv.of_bits ((hbit 7 (by decide)).trans hv.1) (hbit 3 (by decide)) ?_
  apply BitVec.eq_of_getLsbD_eq
  intro i hi
  have hne : ¬ 4 + i = bitBc := by simp only [bitBc]; omega
  simp [hi, hbit (4 + i) (by omega), hne]

/-- The divisor programming leaves DLAB clear and the parity bits as they were (R105). -/
theorem LcrOk.dlabCleared {v : Byte} (hv : LcrOk v) : LcrOk (v &&& 0x7F) := by
  revert v
  unfold LcrOk
  decide

/-- A divisor in range is not 0 in the latch. -/
theorem latch_ne_zero {dl : Nat} (hlo : 1 ≤ dl) (hhi : dl ≤ 0xFFFF) :
    (BitVec.ofNat 8 (dl / 256) ++ BitVec.ofNat 8 (dl % 256) : BitVec 16) ≠ 0 := by
  intro h
  have hvalue : (BitVec.ofNat 8 (dl / 256) ++ BitVec.ofNat 8 (dl % 256) : BitVec 16).toNat = dl := by
    rw [BitVec.toNat_append, ← Nat.shiftLeft_add_eq_or_of_lt (BitVec.isLt _), Nat.shiftLeft_eq, BitVec.toNat_ofNat,
      BitVec.toNat_ofNat]
    omega
  rw [h] at hvalue
  simp at hvalue
  omega

/-- A fraction in range is less than 1 in the fractional divider. -/
theorem fdr_fraction_lt {dav mv : Nat} (hlt : dav < mv) (hmv : mv ≤ 15) :
    (BitVec.ofNat 8 (16 * mv + dav)).extractLsb' 0 4 < (BitVec.ofNat 8 (16 * mv + dav)).extractLsb' 4 4 := by
  rw [BitVec.lt_def, BitVec.extractLsb'_toNat, BitVec.extractLsb'_toNat, BitVec.toNat_ofNat, Nat.shiftRight_zero,
    Nat.shiftRight_eq_div_pow]
  omega

section
variable {q : PortState}

/-- The pin slots and the count are in nothing that a row keeps. -/
theorem keeps_of_slots (rts cts : Pin) (n : Byte) : q.Keeps { q with swRts := rts, swCts := cts, txCount := n } :=
  ⟨⟨id, id, id, id, rfl⟩, rfl, rfl, id, id, id⟩

theorem keeps_of_free : q.Keeps { q with cbId := 0 } :=
  ⟨⟨id, id, id, id, rfl⟩, rfl, rfl, fun h => absurd rfl h, id, id⟩

/-- The registers of a row, when an initialised port stays ready and powered. -/
theorem keeps_of_registers {lcr dll dlm fdr : Byte} {fifoEn : FifoEnable} {trigger : RxTrigger} {power : Power}
    {div : Bool} (hpower : q.power = .on → power = .on) (hdiv : q.pclkDiv1 = true → div = true)
    (hready : q.Ready → PortState.Ready { q with
      lcr := lcr, dll := dll, dlm := dlm, fdr := fdr, fifoEn := fifoEn, rxTrigger := trigger, power := power
      pclkDiv1 := div }) :
    q.Keeps { q with
      lcr := lcr, dll := dll, dlm := dlm, fdr := fdr, fifoEn := fifoEn, rxTrigger := trigger, power := power
      pclkDiv1 := div } :=
  ⟨⟨id, id, hpower, hdiv, rfl⟩, rfl, rfl, id, id, fun h hinit => hready (h hinit)⟩

/-- A write of LCR. -/
theorem keeps_of_lcr {v : Byte} (hv : LcrOk q.lcr → LcrOk v) : q.Keeps { q with lcr := v } :=
  keeps_of_registers id id fun ⟨hdlab, hps, hrest⟩ =>
    have ⟨hdlab', hps'⟩ := hv ⟨hdlab, hps⟩
    ⟨hdlab', hps', hrest⟩

/-- The power, clock and FIFO requests. -/
theorem keeps_of_powered : q.Keeps { q with power := .on, pclkDiv1 := true, fifoEn := .on, rxTrigger := .one } :=
  keeps_of_registers (fun _ => rfl) (fun _ => rfl) fun ⟨hdlab, hps, hdl, hfdr, _⟩ =>
    ⟨hdlab, hps, hdl, hfdr, rfl, rfl, rfl, rfl⟩

/-- An FCR write of the block. -/
theorem keeps_of_fifos : q.Keeps { q with fifoEn := .on, rxTrigger := .one } :=
  keeps_of_registers id id fun ⟨hdlab, hps, hdl, hfdr, _, _, hpower⟩ => ⟨hdlab, hps, hdl, hfdr, rfl, rfl, hpower⟩

/-- The registers of a divisor in range. -/
theorem keeps_of_divisor {d : Triple} (hdl : 1 ≤ d.dl) (hwidth : d.dl ≤ 0xFFFF) (hdav : d.dav < d.mv)
    (hmv : d.mv ≤ 15) :
    q.Keeps { q with
      lcr := q.lcr &&& 0x7F
      dlm := BitVec.ofNat 8 (d.dl / 256)
      dll := BitVec.ofNat 8 (d.dl % 256)
      fdr := BitVec.ofNat 8 (16 * d.mv + d.dav) } :=
  keeps_of_registers id id fun ⟨hdlab, hps, _, _, hrest⟩ =>
    have ⟨hdlab', hps'⟩ := LcrOk.dlabCleared ⟨hdlab, hps⟩
    ⟨hdlab', hps', latch_ne_zero hdl hwidth, fdr_fraction_lt hdav hmv, hrest⟩

/-- INIT's atomic part makes the port ready, whatever it was. -/
theorem keeps_of_broughtUp {d : Triple} (hdl : 1 ≤ d.dl) (hwidth : d.dl ≤ 0xFFFF) (hdav : d.dav < d.mv)
    (hmv : d.mv ≤ 15) : q.Keeps (q.broughtUp d) :=
  have hlcr : LcrOk 0x03 := by unfold LcrOk; decide
  ⟨⟨fun _ => rfl, id, fun _ => rfl, fun _ => rfl, rfl⟩, rfl, rfl, id, id, fun _ _ =>
    ⟨hlcr.1, hlcr.2, latch_ne_zero hdl hwidth, fdr_fraction_lt hdav hmv, rfl, rfl, rfl, rfl⟩⟩

end

/-! ### Requests (R113-R118) -/

/-- A row whose enables, line and vector alone were updated, as the applicator does: a line that is on has its vector
or was on before. -/
structure PortState.LineUpdate (q q' : PortState) : Prop where
  eq   : q' = { q with ier := q'.ier, nvicEn := q'.nvicEn, vec := q'.vec }
  rest : q'.ier.rest = q.ier.rest
  vec  : q.vec = true → q'.vec = true
  line : q'.nvicEn = true → q'.vec = true ∨ q.nvicEn = true

theorem PortState.LineUpdate.keeps {q q' : PortState} (h : q.LineUpdate q') : q.Keeps q' := by
  obtain ⟨heq, hrest, hvec, hline⟩ := h
  rw [heq]
  exact ⟨⟨id, hvec, id, id, hrest⟩, rfl, rfl, id, fun hold hon => (hline hon).elim id fun h => hvec (hold h), id⟩

section
variable {s : State} {p : Port}

/-- The applicator updates enables, line and vector of its port, and the trace. -/
theorem applyRequest_lineUpdate (s : State) (p : Port) (d : Dir) (en : Bool) :
    ∃ f es, s.applyRequest p d en = (s.modPort p f).emit es ∧ (s.port p).LineUpdate (f (s.port p)) := by
  obtain ⟨-, heq⟩ | ⟨-, -, heq⟩ | ⟨-, -, heq⟩ := applyRequest_cases s p d en
  · rw [heq, enableLine_eq]
    exact ⟨_, _, rfl, rfl, rfl, fun _ => rfl, fun _ => .inl rfl⟩
  · rw [heq, disableLine_eq]
    split
    · exact ⟨_, _, rfl, rfl, rfl, id, .inr⟩
    · exact ⟨_, _, rfl, rfl, rfl, id, fun hon => absurd hon Bool.false_ne_true⟩
  · rw [heq]
    exact ⟨id, [], by rw [emit_nil]; exact (modPort_id s p).symm, rfl, rfl, id, .inr⟩

theorem works_applyRequest (d : Dir) (en : Bool) : Works p s (s.applyRequest p d en) := by
  obtain ⟨f, es, heq, hrow⟩ := applyRequest_lineUpdate s p d en
  rw [heq]
  exact works_modPort_emit hrow.keeps

theorem works_requestApi (d : Dir) (en : Bool) : Works p s (s.requestApi p d en) :=
  (works_modPort ⟨⟨id, id, id, id, rfl⟩, rfl, rfl, id, id, id⟩).trans (works_applyRequest d en)

theorem works_requestFlow (d : Dir) (en : Bool) : Works p s (s.requestFlow p d en) :=
  (works_modPort ⟨⟨id, id, id, id, rfl⟩, rfl, rfl, id, id, id⟩).trans (works_applyRequest d en)

/-! ### The other operations -/

theorem works_writeLcr (bits : BitVec 4) (par : Parity) (stops : BitVec 2) :
    Works p s (s.writeLcr p (lcrFormat bits par stops)) :=
  works_modPort_emit (keeps_of_lcr fun _ => lcrOk_lcrFormat bits par stops)

theorem works_setBreak (b : Bool) : Works p s (s.setLcrBit p bitBc b) := by
  rw [setLcrBit_eq]
  exact works_modPort_emit (keeps_of_lcr fun h => h.withBreak b)

theorem works_resetFifos (tx : Bool) : Works p s (s.resetFifos p tx) := by
  rw [resetFifos_eq]
  exact works_modPort_emit keeps_of_fifos

theorem works_initPower : Works p s (s.initPower p) := by
  rw [initPower_eq]
  exact works_modPort_emit keeps_of_powered

/-- The divisor that the calculator answers is in range, so that the port stays ready. -/
theorem works_programDivisor {rate : Nat} {d : Triple} (hd : s.divisor rate = some d) :
    Works p s (s.programDivisor p d.dl d.dav d.mv) := by
  obtain ⟨hdl, hwidth, -, hmv, hdav, -⟩ := divisorTripleIsInRange _ _ _ _ hd
  rw [programDivisor_eq_of_range s p d (by omega) (by omega)]
  exact works_modPort_emit (keeps_of_divisor hdl hwidth hdav hmv)

theorem works_bringUp {rate : Nat} {d : Triple} (hd : s.divisor rate = some d) (txPin rxPin : Pin) :
    Works p s ((s.initPower p).initLine p d txPin rxPin) := by
  obtain ⟨hdl, hwidth, -, hmv, hdav, -⟩ := divisorTripleIsInRange _ _ _ _ hd
  rw [initPower_initLine_eq s p txPin rxPin (by omega) (by omega)]
  exact works_modPort_emit (keeps_of_broughtUp hdl hwidth hdav hmv)

theorem works_evalWritable : Works p s (s.evalWritable p) := by
  rw [evalWritable_eq]
  exact works_modPort_emit (keeps_of_slots _ _ _)

/-! ### Micro-steps (R137, R138, R144-R149) -/

theorem works_pollPutc (b : Byte) : Works p s (s.pollPutc p b) := by
  unfold State.pollPutc
  split
  · rw [sendByte_eq]
    exact (works_modPort_emit (keeps_of_slots _ _ _)).trans (works_setFgStep _)
  · exact .refl _ _

theorem works_pollGetc : Works p s (s.pollGetc p) := by
  unfold State.pollGetc
  split
  · obtain ⟨-, heq⟩ | ⟨-, heq⟩ := acceptByte_cases s p <;> rw [heq]
    · exact (works_emit _).trans (works_setFgStep _)
    · exact ((works_emit _).trans (works_gpioWrite _ _)).trans (works_setFgStep _)
  · exact .refl _ _

theorem works_takeByte : Works p s (s.takeByte p) :=
  ((works_emit _).trans (works_setFgStep _)).trans (works_emit _)

theorem works_endFlow (r : FlowRequest) : Works p s (s.endFlow r) := by
  rw [endFlow_eq]
  exact (works_setFgStep _).trans (works_emit _)

theorem works_flowStep1 (r : FlowRequest) : Works r.port s (s.flowStep1 r) := by
  unfold State.flowStep1
  refine Works.trans ?_ (works_setFgStep _)
  split
  · next hport => exact works_updateMcr _ hport rfl
  · exact .refl _ _

theorem works_flowStep2 (r : FlowRequest) : Works r.port s (s.flowStep2 r) :=
  (works_requestFlow _ _).trans (works_setFgStep _)

theorem works_flowStep3 (r : FlowRequest) : Works r.port s (s.flowStep3 r) :=
  (works_modPort (keeps_of_slots _ _ _)).trans (works_setFgStep _)

theorem works_flowStep4 (r : FlowRequest) : Works r.port s (s.flowStep4 r) := by
  unfold State.flowStep4
  split
  · exact works_endFlow r
  · exact works_setFgStep _

theorem works_connectCts (pin : Pin) : Works p s (s.connectCts p pin) := by
  unfold State.connectCts
  split
  · next hauto => exact (works_emit _).trans (works_updateMcr _ ((autoPin_iff ..).1 hauto).1 rfl)
  · exact (works_gpioInit _ _).trans (works_modPort (keeps_of_slots _ _ _))

theorem works_flowStep5 (r : FlowRequest) : Works r.port s (s.flowStep5 r) := by
  unfold State.flowStep5
  refine Works.trans ?_ (works_setFgStep _)
  split
  · exact works_connectCts _
  · exact .refl _ _

theorem works_connectRts (pin : Pin) : Works p s (s.connectRts p pin) := by
  unfold State.connectRts
  refine (works_resetFifos false).trans ?_
  simp only
  split
  · next hauto => exact (works_emit _).trans (works_updateMcr _ ((autoPin_iff ..).1 hauto).1 rfl)
  · exact (((works_gpioInit _ _).trans (works_gpioWrite _ _)).trans (works_modPort (keeps_of_slots _ _ _))).trans
      (works_requestFlow _ _)

theorem works_flowStep6 (r : FlowRequest) : Works r.port s (s.flowStep6 r) := by
  unfold State.flowStep6
  refine Works.trans ?_ (works_endFlow r)
  split
  · exact works_connectRts _
  · exact .refl _ _

end

/-- The port that FG's command in progress works on; with none in progress, any. -/
def FgStep.WorksOn : FgStep → Port → Prop
  | .idle, _ => True
  | .putcW p _, q => q = p
  | .getcW p, q => q = p
  | .getcB p, q => q = p
  | .sfc1 r, q => q = r.port
  | .sfc2 r, q => q = r.port
  | .sfc3 r, q => q = r.port
  | .sfc4 r, q => q = r.port
  | .sfc5 r, q => q = r.port
  | .sfc6 r, q => q = r.port

section
variable {s : State} {p : Port}

/-- Every micro-step is work on the port of the command in progress. -/
theorem works_advanceFg (h : s.fgStep.WorksOn p) : Works p s s.advanceFg := by
  unfold State.advanceFg
  cases hstep : s.fgStep with
  | idle => exact .refl _ _
  | putcW p' b => rw [hstep] at h; cases h; exact works_pollPutc b
  | getcW p' => rw [hstep] at h; cases h; exact works_pollGetc
  | getcB p' => rw [hstep] at h; cases h; exact works_takeByte
  | sfc1 r => rw [hstep] at h; cases h; exact works_flowStep1 r
  | sfc2 r => rw [hstep] at h; cases h; exact works_flowStep2 r
  | sfc3 r => rw [hstep] at h; cases h; exact works_flowStep3 r
  | sfc4 r => rw [hstep] at h; cases h; exact works_flowStep4 r
  | sfc5 r => rw [hstep] at h; cases h; exact works_flowStep5 r
  | sfc6 r => rw [hstep] at h; cases h; exact works_flowStep6 r

/-- A command that FG enters works on its port, whether or not its first micro-step is taken at once. -/
theorem works_enterFg {st : FgStep} (h : st.WorksOn p) : Works p s (s.enterFg st) := by
  unfold State.enterFg
  simp only
  split
  · exact (works_setFgStep st).trans (works_advanceFg h)
  · exact works_setFgStep st

end

end Sys2Proof.Machine

/-! What follows from what a command and a step can do: faults are precise (60_exceptions.md R163, R171), a handler
polls and nothing else (R129, R178), interrupts leave the foreground alone (R179-R182), no step undoes initialisation
(10_state.md R21, R37, R39, R41), and a command leaves the other ports alone (60_exceptions.md R182). -/

namespace Sys2Proof.Machine

/-! ### Interrupt entry and the handler slot -/

section
variable {s t : State} {p : Port} {i : Instr}

/-- An entry is one update of its ISR's step, of the GPIO record and of the trace. -/
theorem enterIsr_eq (s : State) (p : Port) : ∃ (st : IsrStep) (g : GpioMap) (es : List Event),
    s.enterIsr p = { (s.modPort p fun q => { q with isrStep := st }) with gpio := g, trace := s.trace ++ es } ∧
      (Gpio.wf s.gpio → Gpio.wf g) := by
  cases hev : eventOf s.draw.iir with
  | none =>
    refine ⟨(s.port p).isrStep, s.gpio, [.regRead p (.iir s.draw.iir)], ?_, id⟩
    rw [enterIsr_of_ignored hev, modPort_eq_self s p _ rfl]
    rfl
  | some ev =>
    have hrow : s.modPort p PortState.handlerCalled =
        s.modPort p fun q => { q with isrStep := (s.port p).handlerCalled.isrStep } := modPort_congr s p _ _ rfl
    by_cases hkept : ev = .tx ∨ (s.port p).swRts = NC
    · rw [enterIsr_of_rts_kept hev hkept, hrow]
      exact ⟨_, s.gpio, _, rfl, id⟩
    · obtain ⟨htx, hrts⟩ := not_or.1 hkept
      obtain rfl : ev = .rx := by cases ev with
        | rx => rfl
        | tx => exact absurd rfl htx
      rw [enterIsr_of_rts_raised hev hrts, hrow]
      exact ⟨_, _, _, rfl, gpioSet_pin_wf _ _ _⟩

theorem enterIsr_touches (s : State) (p : Port) :
    Touches p s (s.enterIsr p) ∧ (s.port p).Lasts ((s.enterIsr p).port p) := by
  obtain ⟨st, g, es, heq, hg⟩ := enterIsr_eq s p
  have hrow := modPort_port_same s p fun q => { q with isrStep := st }
  rw [heq]
  refine ⟨(touches_modPort _).trans (works_update (s := s.modPort p fun q => { q with isrStep := st })
    _ g _ es (.inl rfl) hg).toTouches, ?_⟩
  show (s.port p).Lasts ((s.modPort p fun q => { q with isrStep := st }).port p)
  rw [hrow]
  exact ⟨id, id, id, id, rfl⟩

/-- The slot of a handler is the global one, or one of its port's row. -/
theorem setHandler_touches (s : State) (p : Port) (h : HandlerToken) :
    Touches p s (s.setHandler p h) ∧ (s.port p).Lasts ((s.setHandler p h).port p) := by
  cases hslots : s.platform.handlerSlots with
  | global =>
    rw [setHandler_of_global h hslots]
    exact ⟨⟨rfl, ⟨rfl, rfl, rfl, rfl, rfl, rfl⟩, fun _ _ => rfl, .inl rfl, id, List.prefix_refl _⟩, .refl _⟩
  | perPort =>
    rw [setHandler_of_perPort h hslots, modPort_port_same]
    exact ⟨touches_modPort _, id, id, id, id, rfl⟩

/-! ### Commands -/

/-- Every body touches one port, and undoes nothing of its row. -/
theorem performs_touches (h : Performs s i p t) : Touches p s t ∧ (s.port p).Lasts (t.port p) := by
  have of_works : ∀ {u}, Works p s u → Touches p s u ∧ (s.port p).Lasts (u.port p) :=
    fun hw => ⟨hw.toTouches, hw.row.toLasts⟩
  cases h with
  | baud _ hd => exact of_works (works_programDivisor hd)
  | format => exact of_works (works_writeLcr _ _ _)
  | breakSet => exact of_works (works_setBreak _)
  | breakClear => exact of_works (works_setBreak _)
  | irqSet => exact of_works (works_requestApi _ _)
  | flowIrqSet => exact of_works (works_requestFlow _ _)
  | @irqHandler port token ident _ _ =>
    obtain ⟨htouch, hlast⟩ := setHandler_touches (s.modPort p fun q => { q with cbId := ident }) p token
    have hrow : (s.port p).Lasts { s.port p with cbId := ident } := ⟨id, id, id, id, rfl⟩
    rw [modPort_port_same] at hlast
    exact ⟨(touches_modPort _).trans htouch, hrow.trans hlast⟩
  | irqEntry => exact enterIsr_touches s p
  | readable => exact of_works ((works_emit _).trans (works_emit _))
  | writable => exact of_works (works_evalWritable.trans (works_emit _))
  | getc => exact of_works (works_enterFg (by exact rfl))
  | putc => exact of_works (works_enterFg (by exact rfl))
  | setFlowControl => exact of_works (works_enterFg (by exact rfl))
  | init _ _ hd => exact of_works ((works_bringUp hd _ _).trans (works_enterFg (by exact rfl)))
  | initLowClock =>
    obtain ⟨htouch, hlast⟩ := of_works works_initPower
    exact ⟨⟨htouch.platform, htouch.host, htouch.others, htouch.mcr1, htouch.gpio, htouch.trace⟩, hlast⟩
  | free => exact of_works (works_modPort keeps_of_free)
  | clear => exact of_works (works_resetFifos true)

/-- A body raises no fault, except INIT's on a low clock. -/
theorem performs_fault (h : Performs s i p t) : t.fault = s.fault ∨
    (i.op = .init ∧ t = (s.initPower p).raise (.configurationError .baudRange) Op.init.code 0) := by
  cases h with
  | baud _ hd => exact .inl (works_programDivisor hd).fault
  | format => exact .inl rfl
  | breakSet => exact .inl rfl
  | breakClear => exact .inl rfl
  | irqSet => exact .inl (works_requestApi _ _).fault
  | flowIrqSet => exact .inl (works_requestFlow _ _).fault
  | irqHandler =>
    left
    unfold State.setHandler
    split <;> rfl
  | irqEntry =>
    obtain ⟨st, g, es, heq, -⟩ := enterIsr_eq s p
    rw [heq]
    exact .inl rfl
  | readable => exact .inl rfl
  | writable => exact .inl (works_evalWritable.trans (works_emit _)).fault
  | getc => exact .inl (works_enterFg (by exact rfl)).fault
  | putc => exact .inl (works_enterFg (by exact rfl)).fault
  | setFlowControl => exact .inl (works_enterFg (by exact rfl)).fault
  | init _ _ hd => exact .inl ((works_bringUp hd _ _).trans (works_enterFg (by exact rfl))).fault
  | initLowClock => exact .inr ⟨rfl, rfl⟩
  | free => exact .inl rfl
  | clear => exact .inl rfl

/-- A body was allowed by its context. -/
theorem performs_may (h : Performs s i p t) : mayPresent s.agent i.op = true := by
  cases h with
  | irqEntry hctl => rw [hctl]; rfl
  | init hmay => exact hmay
  | initLowClock hmay => exact hmay
  | _ h => exact h.may

/-- The pins of a resolution that succeeds select the port. -/
theorem pinmap_of_resolvePins {plat : Platform} {txPin rxPin : Pin} (h : resolvePins plat txPin rxPin = .ok p) :
    pinmap plat txPin .tx = some p := by
  unfold resolvePins at h
  split at h
  · cases h
  · next a ha =>
    split at h
    · cases h
    · split at h
      · cases h
        exact ha
      · cases h

/-- The port of a body is the one that the command names, for INIT by its TX pin. -/
theorem performs_port (h : Performs s i p t) : (i.op ≠ .init → i.portField.toNat = p.val) ∧
    (∀ txPin rxPin, i = .init txPin rxPin → pinmap s.platform txPin .tx = some p) := by
  cases h with
  | irqEntry _ hport => exact ⟨fun _ => (portOf_eq_some _ _).1 hport, fun _ _ h => by cases h⟩
  | init _ hpins =>
    exact ⟨fun h => absurd rfl h, fun _ _ h => by cases h; exact pinmap_of_resolvePins hpins⟩
  | initLowClock _ hpins =>
    exact ⟨fun h => absurd rfl h, fun _ _ h => by cases h; exact pinmap_of_resolvePins hpins⟩
  | _ h => exact ⟨fun _ => (portOf_eq_some _ _).1 h.port, fun _ _ h => by cases h⟩

end

/-! ### What a handler's command does (R129, R178) -/

section
variable {s t : State} {p q : Port} {i : Instr}

/-- A poll: only the trace and the count of the named port may differ, and only WRITABLE sets the count, to 0. -/
def Polls (s : State) (i : Instr) (p : Port) (t : State) : Prop :=
  (i.op = .readable ∨ i.op = .writable) ∧ i.portField.toNat = p.val ∧
  ∃ (n : Byte) (es : List Event), t = (s.modPort p fun q => { q with txCount := n }).emit es ∧
    (n = (s.port p).txCount ∨ (i.op = .writable ∧ n = 0))

/-- The commands that a handler's context allows are the two polls. -/
theorem polls_of_handler (hisr : s.agent = .isr q) (h : Performs s i p t) : Polls s i p t := by
  obtain ⟨hport, -⟩ := performs_port h
  have hmay := performs_may h
  rw [hisr] at hmay
  cases h with
  | readable =>
    rw [State.readLsr, State.respond, emit_emit]
    exact ⟨.inl rfl, hport nofun, (s.port p).txCount, _,
      congrArg (State.emit · _) (modPort_eq_self s p (fun q => { q with txCount := (s.port p).txCount }) rfl).symm,
      .inl rfl⟩
  | writable =>
    rw [evalWritable_eq, State.respond, emit_emit]
    refine ⟨.inr rfl, hport nofun, _, _, congrArg (State.emit · _) (modPort_congr s p _ _ rfl), ?_⟩
    split
    · exact .inr ⟨rfl, rfl⟩
    · exact .inl rfl
  | _ => cases hmay

end

/-- Settles O59: a body touches its own port, and a rejected command none. -/
theorem commandsLeaveOtherPortsAlone : Obligations.CommandsLeaveOtherPortsAlone := by
  unfold Obligations.CommandsLeaveOtherPortsAlone
  intro i s t q h hinit hother
  obtain ⟨c, rfl⟩ | ⟨p, hp⟩ := exec_cases h
  · exact ⟨rfl, fun _ => rfl⟩
  obtain ⟨hport, hpins⟩ := performs_port hp
  have hne : q ≠ p := by
    rintro rfl
    by_cases hop : i.op = .init
    · cases i with
      | init txPin rxPin => exact hinit _ _ rfl (hpins _ _ rfl)
      | _ => cases hop
    · exact hother hop (hport hop)
  obtain ⟨htouch, -⟩ := performs_touches hp
  refine ⟨htouch.others q hne, fun hq => htouch.mcr1.resolve_right fun h => hne (hq.trans h.1.symm)⟩

/-- Settles O16: a command that is not rejected was allowed in the handler's context, so that it is a poll. -/
theorem handlerMayOnlyPoll : Obligations.HandlerMayOnlyPoll := by
  unfold Obligations.HandlerMayOnlyPoll
  intro i q s t hisr h hsame hnone
  obtain ⟨c, rfl⟩ | ⟨p, hp⟩ := exec_cases h
  · rw [hnone] at hsame
    cases hsame
  · obtain ⟨hop, hport, n, es, rfl, hn⟩ := polls_of_handler hisr hp
    exact ⟨hop, p, hport, onlyPort_modPort_emit .., n, modPort_emit_port_same .., hn⟩

/-! ### The foreground under interrupts (R179-R182) -/

/-- The enables, the line, the vector and the requesters of a row are as before. -/
def PortState.SameLines (q q' : PortState) : Prop :=
  q'.ier = q.ier ∧ q'.nvicEn = q.nvicEn ∧ q'.vec = q.vec ∧ q'.irqApi = q.irqApi ∧ q'.irqFlow = q.irqFlow

/-- An update of one row that keeps them keeps every port's. -/
theorem modPort_sameLines (s : State) (p : Port) (f : PortState → PortState)
    (hf : (s.port p).SameLines (f (s.port p))) (r : Port) : (s.port r).SameLines ((s.modPort p f).port r) := by
  by_cases hr : r = p
  · rw [hr, modPort_port_same]
    exact hf
  · rw [modPort_port_ne s p r f hr]
    exact ⟨rfl, rfl, rfl, rfl, rfl⟩

/-- Settles O13: an entry and a return update the step of one ISR, and a handler's command is a poll. -/
theorem interruptsLeaveTheForegroundAlone : Obligations.InterruptsLeaveTheForegroundAlone := by
  unfold Obligations.InterruptsLeaveTheForegroundAlone
  intro s t hmove h
  obtain ⟨-, hstep⟩ := step_cases h
  cases hstep with
  | stutter => exact ⟨rfl, rfl, fun _ => ⟨rfl, rfl, rfl, rfl, rfl⟩⟩
  | refused hu =>
    cases hu with
    | fg _ hfg => exact absurd hfg hmove
    | isr => exact ⟨rfl, rfl, fun _ => ⟨rfl, rfl, rfl, rfl, rfl⟩⟩
  | command hu hexec =>
    cases hu with
    | fg _ hfg => exact absurd hfg hmove
    | isr p rest =>
      obtain ⟨c, rfl⟩ | ⟨r, hr⟩ := exec_cases hexec
      · exact ⟨rfl, rfl, fun _ => ⟨rfl, rfl, rfl, rfl, rfl⟩⟩
      · obtain ⟨-, -, n, es, rfl, -⟩ := polls_of_handler rfl hr
        exact ⟨rfl, rfl, modPort_sameLines ((s.takeInput.setIsrWords p rest).presentedBy (.isr p)) r
          (fun q => { q with txCount := n }) ⟨rfl, rfl, rfl, rfl, rfl⟩⟩
  | advance hfg => exact absurd hfg hmove
  | entry p =>
    obtain ⟨st, g, es, heq, -⟩ := enterIsr_eq (s.takeInput.presentedBy .controller) p
    rw [heq]
    exact ⟨rfl, rfl, modPort_sameLines (s.takeInput.presentedBy .controller) p
      (fun q => { q with isrStep := st }) ⟨rfl, rfl, rfl, rfl, rfl⟩⟩
  | ret p => exact ⟨rfl, rfl, modPort_sameLines s.takeInput p (fun q => { q with isrStep := .idle })
      ⟨rfl, rfl, rfl, rfl, rfl⟩⟩

/-! ### Faults (R163, R171) -/

/-- Some port is the one that FG's command in progress works on. -/
theorem exists_worksOn (st : FgStep) : ∃ p, st.WorksOn p := by
  cases st with
  | idle => exact ⟨0, trivial⟩
  | _ => exact ⟨_, rfl⟩

/-- Settles O15: a rejected command records its fault alone, and INIT's body is the one that raises a fault. -/
theorem faultsArePrecise : Obligations.FaultsArePrecise := by
  unfold Obligations.FaultsArePrecise
  refine ⟨fun i s t h hfault => ?_, fun _ _ _ => rfl, fun s => ?_, fun p s hctl => ?_⟩
  · obtain ⟨c, rfl⟩ | ⟨p, hp⟩ := exec_cases h
    · exact .inl rfl
    obtain hsame | ⟨hop, rfl⟩ := performs_fault hp
    · exact absurd hsame hfault
    · have hrow := modPort_port_same s p fun q =>
        { q with power := .on, pclkDiv1 := true, fifoEn := .on, rxTrigger := .one }
      rw [initPower_eq]
      exact .inr ⟨hop, p, rfl, onlyPort_raise (onlyPort_modPort_emit ..) _ _ _, hrow, rfl⟩
  · obtain ⟨p, hp⟩ := exists_worksOn s.fgStep
    exact (works_advanceFg hp).fault
  · obtain ⟨st, g, es, heq, -⟩ := enterIsr_eq s p
    refine ⟨_, exec_irqEntry_controller hctl ((portOf_eq_some _ _).1 (portOf_fieldOfPort p)), ?_⟩
    rw [heq]
    rfl

/-! ### What no step undoes (R21, R37, R39, R41) -/

theorem persists_of_touches {s t : State} {p : Port} (h : Touches p s t) (hrow : (s.port p).Lasts (t.port p)) :
    Persists s t := by
  refine ⟨h.platform, h.trace, h.mcr1.elim (congrArg Mcr.rest) And.right, fun r => ?_⟩
  obtain ⟨hinit, hvec, hpower, hdiv, hrest⟩ : (s.port r).Lasts (t.port r) := by
    by_cases hr : r = p
    · rwa [hr]
    · rw [h.others r hr]
      exact .refl _
  exact ⟨hinit, hvec, hpower, hdiv, hrest⟩

/-- A step that leaves the ports, MCR[1], the parameters and the trace as they were. -/
theorem persists_of_same {s t : State} (hplatform : t.platform = s.platform) (hports : ∀ p, t.port p = s.port p)
    (hmcr : t.mcr1 = s.mcr1) (htrace : t.trace = s.trace) : Persists s t := by
  refine ⟨hplatform, htrace ▸ List.prefix_refl _, by rw [hmcr], fun p => ?_⟩
  rw [hports p]
  exact ⟨id, id, id, id, rfl⟩

/-- Settles O57: every step is at work on one port, or leaves all of them as they are. -/
theorem noStepUndoesInitialisation : Obligations.NoStepUndoesInitialisation := by
  unfold Obligations.NoStepUndoesInitialisation
  intro s t h
  obtain ⟨-, hstep⟩ := step_cases h
  cases hstep with
  | stutter => exact persists_of_same rfl (fun _ => rfl) rfl rfl
  | refused hu => cases hu <;> exact persists_of_same rfl (fun _ => rfl) rfl rfl
  | @command u _ _ hu hexec =>
    have hpersist : Persists u t := by
      obtain ⟨c, rfl⟩ | ⟨p, hp⟩ := exec_cases hexec
      · exact persists_of_same rfl (fun _ => rfl) rfl rfl
      · obtain ⟨htouch, hlast⟩ := performs_touches hp
        exact persists_of_touches htouch hlast
    cases hu <;> exact hpersist
  | advance =>
    obtain ⟨p, hp⟩ := exists_worksOn s.fgStep
    have hw := works_advanceFg (s := s.takeInput) hp
    exact persists_of_touches (s := s.takeInput) hw.toTouches hw.row.toLasts
  | entry p =>
    obtain ⟨htouch, hlast⟩ := enterIsr_touches (s.takeInput.presentedBy .controller) p
    exact persists_of_touches (s := s.takeInput.presentedBy .controller) htouch hlast
  | ret p =>
    refine persists_of_touches (s := s.takeInput) (touches_modPort _) ?_
    rw [State.returnFromIsr, modPort_port_same]
    exact ⟨id, id, id, id, rfl⟩

end Sys2Proof.Machine

/-! Who writes what (10_state.md R18-R25, R27-R30, R35-R37): each command's own fields, as one table over its OP. -/

namespace Sys2Proof.Machine

/-! ### The fields a command may write -/

/-- Row `q` with the fields of `q'` that a command of opcode `op` is a writer of. -/
def PortState.withWritesOf (q : PortState) (op : Op) (q' : PortState) : PortState where
  irqApi := if op = .irqSet then q'.irqApi else q.irqApi
  irqFlow := if op = .flowIrqSet then q'.irqFlow else q.irqFlow
  ier := if op = .irqSet ∨ op = .flowIrqSet then q'.ier else q.ier
  nvicEn := if op = .irqSet ∨ op = .flowIrqSet then q'.nvicEn else q.nvicEn
  vec := if op = .irqSet ∨ op = .flowIrqSet then q'.vec else q.vec
  cbId := if op = .irqHandler ∨ op = .free then q'.cbId else q.cbId
  handler := if op = .irqHandler then q'.handler else q.handler
  lcr := if op = .baud ∨ op = .format ∨ op = .breakSet ∨ op = .breakClear ∨ op = .init then q'.lcr else q.lcr
  dll := if op = .baud ∨ op = .init then q'.dll else q.dll
  dlm := if op = .baud ∨ op = .init then q'.dlm else q.dlm
  fdr := if op = .baud ∨ op = .init then q'.fdr else q.fdr
  txCount := if op = .writable ∨ op = .putc then q'.txCount else q.txCount
  initialized := if op = .init then q'.initialized else q.initialized
  power := if op = .init then q'.power else q.power
  pclkDiv1 := if op = .init then q'.pclkDiv1 else q.pclkDiv1
  fifoEn := if op = .init ∨ op = .clear then q'.fifoEn else q.fifoEn
  rxTrigger := if op = .init ∨ op = .clear then q'.rxTrigger else q.rxTrigger
  isrStep := if op = .irqEntry then q'.isrStep else q.isrStep
  swRts := q.swRts
  swCts := q.swCts

theorem PortState.withWritesOf_self (q : PortState) (op : Op) : q = q.withWritesOf op q := by
  simp only [PortState.withWritesOf, ite_self]

/-- Only the fields that a command of opcode `op` is a writer of may differ, of port `p`'s row and of the rest. -/
structure Writes (op : Op) (p : Port) (s t : State) : Prop where
  row     : t.port p = (s.port p).withWritesOf op (t.port p)
  handler : t.handler = if op = .irqHandler then t.handler else s.handler
  mcr1    : t.mcr1 = if op = .setFlowControl ∨ op = .init then t.mcr1 else s.mcr1
  gpio    : t.gpio = if op = .irqEntry ∨ op = .getc then t.gpio else s.gpio
  fgStep  : t.fgStep =
    if op = .getc ∨ op = .putc ∨ op = .setFlowControl ∨ op = .init then t.fgStep else s.fgStep

/-- A field that differs is one that may be written. -/
theorem may_of_ne {α : Type} {a b : α} {c : Prop} [Decidable c] (h : a = if c then a else b) (hne : a ≠ b) : c := by
  by_contra hc
  exact hne (h.trans (if_neg hc))

/-- A field that is as before meets any restriction on its writers. -/
theorem eq_ite_of_eq {α : Type} {a b : α} {c : Prop} [Decidable c] (h : a = b) : a = if c then a else b := by
  rw [h, ite_self]

/-- A row that is known, and writes what the command may. -/
theorem row_written {q q' r : PortState} {op : Op} (h : r = q') (hq : q' = q.withWritesOf op q') :
    r = q.withWritesOf op r := by
  rwa [h]

section
variable {s t : State} {p : Port} {i : Instr} {op : Op}

/-- A command that updates one row and the trace writes what its update writes. -/
theorem writes_of_onlyPort (h : OnlyPort p s t) (hrow : t.port p = (s.port p).withWritesOf op (t.port p)) :
    Writes op p s t := by
  obtain ⟨⟨-, hhandler, -⟩, -, hmcr, hgpio, hfg⟩ := h
  exact ⟨hrow, eq_ite_of_eq hhandler, eq_ite_of_eq hmcr, eq_ite_of_eq hgpio, eq_ite_of_eq hfg⟩

theorem writes_modPort_emit (f : PortState → PortState) (es : List Event)
    (hf : f (s.port p) = (s.port p).withWritesOf op (f (s.port p))) : Writes op p s ((s.modPort p f).emit es) :=
  writes_of_onlyPort (onlyPort_modPort_emit ..) (row_written (modPort_emit_port_same ..) hf)

/-- A requester's slot is written, then the applicator updates enables, line and vector. -/
theorem writes_request (f : PortState → PortState) (d : Dir) (en : Bool)
    (hf : ∀ q', (f (s.port p)).LineUpdate q' → q' = (s.port p).withWritesOf op q') :
    Writes op p s ((s.modPort p f).applyRequest p d en) := by
  obtain ⟨g, es, heq, hline⟩ := applyRequest_lineUpdate (s.modPort p f) p d en
  rw [modPort_port_same] at hline
  rw [heq, modPort_modPort]
  exact writes_modPort_emit _ _ (hf _ hline)

/-- The identifier, and the slot that HANDLER_SLOTS selects. -/
theorem writes_setHandler (token : HandlerToken) (ident : Word) :
    Writes .irqHandler p s ((s.modPort p fun q => { q with cbId := ident }).setHandler p token) := by
  cases hslots : s.platform.handlerSlots with
  | global =>
    rw [setHandler_of_global (s := s.modPort p fun q => { q with cbId := ident }) _ hslots]
    exact ⟨row_written (modPort_port_same s p fun q => { q with cbId := ident }) rfl, rfl, rfl, rfl, rfl⟩
  | perPort =>
    rw [setHandler_of_perPort (s := s.modPort p fun q => { q with cbId := ident }) _ hslots, modPort_modPort]
    exact writes_of_onlyPort (onlyPort_modPort ..) (row_written (modPort_port_same ..) rfl)

/-- GETC enters its hold, or accepts the byte: the RTS pin and step[FG]. -/
theorem writes_getc : Writes .getc p s (s.enterFg (.getcW p)) := by
  by_cases h : s.draw.prompt = true ∧ s.readable = true
  · obtain ⟨⟨-, hhandler, -⟩, hports, hmcr, -⟩ := acceptByte_frame s p
    rw [enterFg_getcW_of_accept h.1 h.2]
    have hrow : (s.acceptByte p).port p = s.port p := by rw [State.port, hports]; rfl
    exact ⟨row_written hrow rfl, hhandler, hmcr, rfl, rfl⟩
  · rw [enterFg_getcW_of_hold (by simpa [imp_iff_not_or] using h)]
    exact ⟨rfl, rfl, rfl, rfl, rfl⟩

/-- PUTC enters its hold, or sends the byte: the count and step[FG]. -/
theorem writes_putc (b : Byte) : Writes .putc p s (s.enterFg (.putcW p b)) := by
  by_cases h : s.draw.prompt = true ∧ s.writable p = true
  · obtain ⟨⟨⟨-, hhandler, -⟩, -, hmcr, hgpio, -⟩, hrow, -⟩ := sendByte_frame (b := b) h.2
    rw [enterFg_putcW_of_send h.1 h.2]
    exact ⟨row_written hrow rfl, hhandler, hmcr, hgpio, rfl⟩
  · rw [enterFg_putcW_of_hold (by simpa [imp_iff_not_or] using h)]
    exact ⟨rfl, rfl, rfl, rfl, rfl⟩

/-- A flow sequence that is entered, its step 1 done or not: MCR[1] and step[FG]. -/
theorem enterFg_sfc1_eq (s : State) (r : FlowRequest) :
    ∃ st m es, s.enterFg (.sfc1 r) = { s with mcr1 := m, fgStep := st, trace := s.trace ++ es } := by
  cases hprompt : s.draw.prompt with
  | false => exact ⟨.sfc1 r, s.mcr1, [], by rw [enterFg_sfc1_of_wait r hprompt, List.append_nil]; rfl⟩
  | true => exact ⟨_, _, _, (enterFg_sfc1_of_prompt r hprompt).trans (flowStep1_eq s r)⟩

/-- Every body writes its command's own fields. -/
theorem performs_writes (h : Performs s i p t) : Writes i.op p s t := by
  cases h with
  | baud _ hd =>
    obtain ⟨-, -, -, hmv, hdav, -⟩ := divisorTripleIsInRange _ _ _ _ hd
    rw [programDivisor_eq_of_range s p _ (by omega) (by omega)]
    exact writes_modPort_emit _ _ rfl
  | format => exact writes_modPort_emit (fun q => { q with lcr := _ }) _ rfl
  | breakSet =>
    rw [setLcrBit_eq]
    exact writes_modPort_emit _ _ rfl
  | breakClear =>
    rw [setLcrBit_eq]
    exact writes_modPort_emit _ _ rfl
  | irqSet => exact writes_request _ _ _ fun q' h => by rw [h.eq]; rfl
  | flowIrqSet => exact writes_request _ _ _ fun q' h => by rw [h.eq]; rfl
  | irqHandler => exact writes_setHandler _ _
  | irqEntry =>
    obtain ⟨st, g, es, heq, -⟩ := enterIsr_eq s p
    rw [heq]
    exact ⟨row_written (modPort_port_same s p fun q => { q with isrStep := st }) rfl, rfl, rfl, rfl, rfl⟩
  | readable => exact ⟨rfl, rfl, rfl, rfl, rfl⟩
  | writable =>
    rw [evalWritable_eq, State.respond, emit_emit]
    exact writes_modPort_emit _ _ rfl
  | getc => exact writes_getc
  | putc => exact writes_putc _
  | setFlowControl =>
    obtain ⟨st, m, es, heq⟩ := enterFg_sfc1_eq s _
    rw [heq]
    exact ⟨rfl, rfl, rfl, rfl, rfl⟩
  | @init _ _ _ d _ _ hd =>
    obtain ⟨-, -, -, hmv, hdav, -⟩ := divisorTripleIsInRange _ _ _ _ hd
    rw [initPower_initLine_eq s p _ _ (by omega) (by omega)]
    obtain ⟨st, m, es, heq⟩ := enterFg_sfc1_eq ((s.modPort p (·.broughtUp d)).emit _) _
    rw [heq]
    exact ⟨row_written (modPort_port_same s p (·.broughtUp d)) rfl, rfl, rfl, rfl, rfl⟩
  | initLowClock =>
    have hrow := modPort_port_same s p fun q =>
      { q with power := .on, pclkDiv1 := true, fifoEn := .on, rxTrigger := .one }
    rw [initPower_eq]
    exact ⟨row_written hrow rfl, rfl, rfl, rfl, rfl⟩
  | free => exact writes_of_onlyPort (onlyPort_modPort ..) (row_written (modPort_port_same ..) rfl)
  | clear =>
    rw [resetFifos_eq]
    exact writes_modPort_emit _ _ rfl

/-- A rejected command writes no field, and a body no other port's row. -/
theorem exec_writes (h : exec i s = .next t) (q : Port) : Writes i.op q s t := by
  obtain ⟨c, rfl⟩ | ⟨p, hp⟩ := exec_cases h
  · exact ⟨PortState.withWritesOf_self .., eq_ite_of_eq rfl, eq_ite_of_eq rfl, eq_ite_of_eq rfl, eq_ite_of_eq rfl⟩
  · obtain ⟨hrow, hhandler, hmcr, hgpio, hfg⟩ := performs_writes hp
    refine ⟨?_, hhandler, hmcr, hgpio, hfg⟩
    by_cases hq : q = p
    · rwa [hq]
    · rw [(performs_touches hp).1.others q hq]
      exact PortState.withWritesOf_self ..

end

/-- Settles O58: a field that differs is one of the command's own, by the table. -/
theorem eachFieldHasItsWriters : Obligations.EachFieldHasItsWriters := by
  unfold Obligations.EachFieldHasItsWriters
  intro i s t h q
  obtain ⟨hrow, hhandler, hmcr, hgpio, hfg⟩ := exec_writes h q
  exact ⟨may_of_ne (congrArg PortState.irqApi hrow),
    may_of_ne (congrArg PortState.irqFlow hrow),
    (Or.elim · (may_of_ne (congrArg PortState.ier hrow))
      (Or.elim · (may_of_ne (congrArg PortState.nvicEn hrow)) (may_of_ne (congrArg PortState.vec hrow)))),
    may_of_ne (congrArg PortState.cbId hrow),
    (Or.elim · (may_of_ne (congrArg PortState.handler hrow)) (may_of_ne hhandler)),
    may_of_ne (congrArg PortState.lcr hrow),
    (Or.elim · (may_of_ne (congrArg PortState.dll hrow))
      (Or.elim · (may_of_ne (congrArg PortState.dlm hrow)) (may_of_ne (congrArg PortState.fdr hrow)))),
    may_of_ne (congrArg PortState.txCount hrow),
    (Or.elim · (may_of_ne (congrArg PortState.initialized hrow))
      (Or.elim · (may_of_ne (congrArg PortState.power hrow)) (may_of_ne (congrArg PortState.pclkDiv1 hrow)))),
    (Or.elim · (may_of_ne (congrArg PortState.fifoEn hrow)) (may_of_ne (congrArg PortState.rxTrigger hrow))),
    may_of_ne (congrArg PortState.isrStep hrow),
    (congrArg PortState.swRts hrow :), (congrArg PortState.swCts hrow :),
    may_of_ne hmcr, may_of_ne hgpio, may_of_ne hfg⟩

end Sys2Proof.Machine

/-! Every step keeps the invariant (10_state.md R21-R46, 42_interrupt_arbiter.md, 43_tx_credit.md R142). R43-R45 are
`State.Consistent`, kept by `step_consistent`; the rest speaks of one port's row and its handler slot (`Sound`), and of
FG's command in progress (`progressOk`). -/

namespace Sys2Proof.Machine

/-! ### The invariant beyond R43-R45 -/

/-- What the invariant says of a row and of the handler slot that serves it, besides R43-R45: about the two values
alone, so that a state that differs elsewhere has the same one. -/
structure PortState.Sound (q : PortState) (slot : Option HandlerToken) : Prop where
  line       : q.nvicEn = true → q.vec = true
  registered : q.cbId ≠ 0 → slot ≠ none
  running    : q.isrStep = .inHandler → q.vec = true
  ready      : q.initialized = true → q.Ready
  fresh      : q.initialized = false → q.Fresh

def State.Sound (s : State) : Prop := ∀ p, (s.port p).Sound (s.handlerOf p)

theorem inv_iff (s : State) :
    s.Inv ↔ s.Consistent ∧ s.Sound ∧ Gpio.wf s.gpio ∧ s.progressOk = true := by
  constructor
  · rintro ⟨hports, hrest⟩
    refine ⟨fun p => ?_, fun p => ?_, hrest⟩ <;>
      obtain ⟨hrx, htx, hon, hline, hcount, hreg, hrun, hready, hfresh⟩ := hports p
    · refine ⟨fun d => ?_, hon, hcount⟩
      cases d with
      | rx => exact hrx
      | tx => exact htx
    · exact ⟨hline, hreg, hrun, hready, hfresh⟩
  · rintro ⟨hcons, hsound, hrest⟩
    refine ⟨fun p => ?_, hrest⟩
    obtain ⟨henable, hon, hcount⟩ := hcons p
    obtain ⟨hline, hreg, hrun, hready, hfresh⟩ := hsound p
    exact ⟨henable .rx, henable .tx, hon, hline, hcount, hreg, hrun, hready, hfresh⟩

section
variable {s t : State} {p : Port} {i : Instr}

theorem handlerOf_congr (hplatform : t.platform = s.platform) (hhandler : t.handler = s.handler)
    (hrow : (t.port p).handler = (s.port p).handler) : t.handlerOf p = s.handlerOf p := by
  rw [State.handlerOf, State.handlerOf, hplatform, hhandler, hrow]

/-- What touches one port and no global slot leaves the other ports sound. -/
theorem sound_of_touches (hs : s.Sound) (h : Touches p s t) (hhandler : t.handler = s.handler)
    (hp : (t.port p).Sound (t.handlerOf p)) : t.Sound := by
  intro q
  by_cases hq : q = p
  · rwa [hq]
  · have hrow := h.others q hq
    rw [handlerOf_congr h.platform hhandler (congrArg PortState.handler hrow), hrow]
    exact hs q

/-- Work on a port that is initialised, or has nothing requested, counted or registered, keeps it sound. -/
theorem sound_of_works (hs : s.Sound) (h : Works p s t)
    (hfresh : (t.port p).initialized = false → (t.port p).Fresh) : t.Sound := by
  refine sound_of_touches hs h.toTouches h.handler ?_
  rw [handlerOf_congr h.platform h.handler h.row.handler]
  obtain ⟨hline, hreg, hrun, hready, -⟩ := hs p
  exact ⟨h.row.line hline, hreg ∘ h.row.cbId, fun hisr => h.row.vec (hrun (h.row.isrStep.symm.trans hisr)),
    h.row.ready hready, hfresh⟩

/-- Work on an initialised port. -/
theorem sound_of_works_initialized (hs : s.Sound) (h : Works p s t) (hinit : (s.port p).initialized = true) :
    t.Sound :=
  sound_of_works hs h fun hno => by cases (h.row.initialized hinit).symm.trans hno

/-! ### Interrupt entry, return and the handler slot -/

/-- An ISR's step is free on a port whose vector is installed; idle, it is free on every port. -/
theorem sound_of_isrStep (hs : s.Sound) (st : IsrStep) (hvec : st = .inHandler → (s.port p).vec = true)
    (hp : t.port p = { s.port p with isrStep := st }) (h : Touches p s t) (hhandler : t.handler = s.handler) :
    t.Sound := by
  refine sound_of_touches hs h hhandler ?_
  rw [handlerOf_congr h.platform hhandler (by rw [hp]), hp]
  obtain ⟨hline, hreg, -, hready, hfresh⟩ := hs p
  exact ⟨hline, hreg, hvec, hready, hfresh⟩

theorem enterIsr_sound (hs : s.Sound) (hvec : (s.port p).vec = true) : (s.enterIsr p).Sound := by
  have htouch := (enterIsr_touches s p).1
  obtain ⟨st, g, es, heq, -⟩ := enterIsr_eq s p
  rw [heq] at htouch ⊢
  exact sound_of_isrStep hs st (fun _ => hvec) (modPort_port_same s p fun q => { q with isrStep := st }) htouch rfl

theorem returnFromIsr_sound (hs : s.Sound) : (s.returnFromIsr p).Sound :=
  sound_of_isrStep hs .idle nofun (modPort_port_same ..) (touches_modPort _) rfl

/-- A token in its slot is what a registered identifier needs. -/
theorem PortState.Sound.register {q : PortState} {slot : Option HandlerToken} (h : q.Sound slot)
    (hinit : q.initialized = true) (ident : Word) (own : Option HandlerToken) (token : HandlerToken) :
    PortState.Sound { q with cbId := ident, handler := own } (some token) :=
  ⟨h.line, fun _ => nofun, h.running, h.ready, fun hno => by cases hinit.symm.trans hno⟩

theorem PortState.Sound.withSlot {q : PortState} {slot : Option HandlerToken} (h : q.Sound slot)
    (token : HandlerToken) : q.Sound (some token) :=
  ⟨h.line, fun _ => nofun, h.running, h.ready, h.fresh⟩

/-- A registration fills the slot of every port that HANDLER_SLOTS makes it serve. -/
theorem setHandler_sound (hs : s.Sound) (hinit : (s.port p).initialized = true) (token : HandlerToken)
    (ident : Word) : ((s.modPort p fun q => { q with cbId := ident }).setHandler p token).Sound := by
  have hslot := setHandler_handlerOf (s.modPort p fun q => { q with cbId := ident }) p token
  have htouch := (setHandler_touches (s.modPort p fun q => { q with cbId := ident }) p token).1
  cases hslots : s.platform.handlerSlots with
  | global =>
    rw [setHandler_of_global (s := s.modPort p fun q => { q with cbId := ident }) _ hslots]
    intro q
    have hserves : State.handlerOf
        { s.modPort p fun q => { q with cbId := ident } with handler := some token } q = some token := by
      simp only [State.handlerOf, modPort_platform, hslots]
    rw [hserves]
    by_cases hq : q = p
    · rw [hq]
      show PortState.Sound ((s.modPort p fun q => { q with cbId := ident }).port p) _
      rw [modPort_port_same]
      exact (hs p).register hinit ident _ token
    · show PortState.Sound ((s.modPort p fun q => { q with cbId := ident }).port q) _
      rw [modPort_port_ne s p q _ hq]
      exact (hs q).withSlot token
  | perPort =>
    rw [setHandler_of_perPort (s := s.modPort p fun q => { q with cbId := ident }) _ hslots] at hslot htouch ⊢
    refine sound_of_touches hs ((touches_modPort _).trans htouch) rfl ?_
    rw [hslot, modPort_modPort, modPort_port_same]
    exact (hs p).register hinit ident _ token

/-! ### Commands -/

/-- INIT's atomic part marks the port as initialised. -/
theorem bringUp_initialized {rate : Nat} {d : Triple} (hd : s.divisor rate = some d) (txPin rxPin : Pin) :
    (((s.initPower p).initLine p d txPin rxPin).port p).initialized = true := by
  obtain ⟨-, -, -, hmv, hdav, -⟩ := divisorTripleIsInRange _ _ _ _ hd
  rw [initPower_initLine_eq s p txPin rxPin (by omega) (by omega), modPort_emit_port_same]
  rfl

/-- Every body keeps the ports sound: it works on a port that passed the checks, or is INIT's or a registration. -/
theorem performs_sound (hs : s.Sound) (hagent : s.agent ≠ .controller) (h : Performs s i p t) : t.Sound := by
  cases h with
  | baud h hd => exact sound_of_works_initialized hs (works_programDivisor hd) h.init
  | format h => exact sound_of_works_initialized hs (works_writeLcr _ _ _) h.init
  | breakSet h => exact sound_of_works_initialized hs (works_setBreak _) h.init
  | breakClear h => exact sound_of_works_initialized hs (works_setBreak _) h.init
  | irqSet h => exact sound_of_works_initialized hs (works_requestApi _ _) h.init
  | flowIrqSet h => exact sound_of_works_initialized hs (works_requestFlow _ _) h.init
  | irqHandler h => exact setHandler_sound hs h.init _ _
  | irqEntry hctl => exact absurd hctl hagent
  | readable h => exact sound_of_works_initialized hs ((works_emit _).trans (works_emit _)) h.init
  | writable h => exact sound_of_works_initialized hs (works_evalWritable.trans (works_emit _)) h.init
  | getc h => exact sound_of_works_initialized hs (works_enterFg (by exact rfl)) h.init
  | putc h => exact sound_of_works_initialized hs (works_enterFg (by exact rfl)) h.init
  | setFlowControl h => exact sound_of_works_initialized hs (works_enterFg (by exact rfl)) h.init
  | @init txPin rxPin _ d hmay hpins hd =>
    refine sound_of_works hs ((works_bringUp hd txPin rxPin).trans (works_enterFg (by exact rfl))) fun hno => ?_
    have henter : Works p _ (((s.initPower p).initLine p d txPin rxPin).enterFg (.sfc1 (initRequest p))) :=
      works_enterFg (by exact rfl)
    cases (henter.row.initialized (bringUp_initialized hd txPin rxPin)).symm.trans hno
  | initLowClock =>
    have hfresh : ((s.initPower p).port p).initialized = false → ((s.initPower p).port p).Fresh := by
      rw [initPower_eq, modPort_emit_port_same]
      exact (hs p).fresh
    exact (sound_of_works hs works_initPower hfresh :)
  | free h => exact sound_of_works_initialized hs (works_modPort keeps_of_free) h.init
  | clear h => exact sound_of_works_initialized hs (works_resetFifos true) h.init

end

/-! ### FG's command in progress -/

section
variable {s t : State} {p : Port} {r : FlowRequest} {i : Instr}

theorem progressOk_of_idle (h : s.fgStep = .idle) : s.progressOk = true := by rw [State.progressOk, h]

theorem flowOk_iff : s.flowOk r = true ↔
    (s.port r.port).initialized = true ∧ (r.respond = false ∨ r.mode = .none) := by
  simp only [State.flowOk, Bool.and_eq_true, Bool.or_eq_true, Bool.not_eq_true', beq_iff_eq]

theorem flowOk_congr (h : (t.port r.port).initialized = (s.port r.port).initialized) : t.flowOk r = s.flowOk r := by
  rw [State.flowOk, State.flowOk, h]

theorem progressOk_sfc3 (h : s.fgStep = .sfc3 r) :
    s.progressOk = true ↔ s.flowOk r = true ∧ (s.port r.port).irqFlow.rx = false := by
  simp only [State.progressOk, h, Bool.and_eq_true, Bool.not_eq_true']

theorem progressOk_sfc4 (h : s.fgStep = .sfc4 r) : s.progressOk = true ↔
    s.flowOk r = true ∧ (s.port r.port).irqFlow.rx = false ∧ (s.port r.port).swRts = NC := by
  simp only [State.progressOk, h, Bool.and_eq_true, Bool.not_eq_true', beq_iff_eq, and_assoc]

theorem progressOk_sfc5 (h : s.fgStep = .sfc5 r) : s.progressOk = true ↔
    s.flowOk r = true ∧ (s.port r.port).irqFlow.rx = false ∧ (s.port r.port).swRts = NC ∧ r.mode ≠ .none := by
  simp only [State.progressOk, h, Bool.and_eq_true, Bool.not_eq_true', beq_iff_eq, bne_iff_ne, ne_eq, and_assoc]

theorem progressOk_sfc6 (h : s.fgStep = .sfc6 r) : s.progressOk = true ↔
    s.flowOk r = true ∧ (s.port r.port).irqFlow.rx = false ∧ (s.port r.port).swRts = NC ∧ r.mode ≠ .none := by
  simp only [State.progressOk, h, Bool.and_eq_true, Bool.not_eq_true', beq_iff_eq, bne_iff_ne, ne_eq, and_assoc]

/-- A command in progress is on an initialised port. -/
theorem initialized_of_progressOk (h : s.progressOk = true) (hbusy : s.fgStep ≠ .idle) (hp : s.fgStep.WorksOn p) :
    (s.port p).initialized = true := by
  unfold State.progressOk State.flowOk at h
  cases hstep : s.fgStep with
  | idle => exact absurd hstep hbusy
  | _ =>
    rw [hstep] at h hp
    cases hp
    simp only [Bool.and_eq_true] at h
    tauto

/-- The command in progress depends on step[FG], and on three fields of the rows. -/
theorem progressOk_congr (hfg : t.fgStep = s.fgStep)
    (hrows : ∀ p, (t.port p).initialized = (s.port p).initialized ∧ (t.port p).irqFlow = (s.port p).irqFlow ∧
      (t.port p).swRts = (s.port p).swRts) : t.progressOk = s.progressOk := by
  have hinit := fun p => (hrows p).1
  have hflow := fun p => (hrows p).2.1
  have hrts := fun p => (hrows p).2.2
  simp only [State.progressOk, State.flowOk, hfg, hinit, hflow, hrts]

theorem modPort_progressOk (f : PortState → PortState) (hinit : (f (s.port p)).initialized = (s.port p).initialized)
    (hflow : (f (s.port p)).irqFlow = (s.port p).irqFlow) (hrts : (f (s.port p)).swRts = (s.port p).swRts) :
    (s.modPort p f).progressOk = s.progressOk := by
  refine progressOk_congr rfl fun q => ?_
  by_cases hq : q = p
  · rw [hq, modPort_port_same]
    exact ⟨hinit, hflow, hrts⟩
  · rw [modPort_port_ne s p q f hq]
    exact ⟨rfl, rfl, rfl⟩

theorem pollPutc_progressOk (b : Byte) (h : s.progressOk = true) : (s.pollPutc p b).progressOk = true := by
  unfold State.pollPutc
  split
  · exact progressOk_of_idle rfl
  · exact h

theorem pollGetc_progressOk (h : s.progressOk = true) (hstep : s.fgStep = .getcW p) :
    (s.pollGetc p).progressOk = true := by
  unfold State.pollGetc
  split
  · obtain ⟨-, hports, -, hnext⟩ := acceptByte_frame s p
    rw [State.progressOk, hstep] at h
    rw [State.progressOk, hnext]
    simp only [State.port, hports]
    exact h
  · exact h

theorem flowStep2_progressOk (h : s.flowOk r = true) : (s.flowStep2 r).progressOk = true := by
  obtain ⟨hflow, hinit, -⟩ := requestFlow_port s r.port .rx false
  exact (progressOk_sfc3 rfl).2 ⟨(flowOk_congr hinit).trans h, congrArg PerDir.rx hflow⟩

theorem flowStep3_progressOk (h : s.flowOk r = true) (hflow : (s.port r.port).irqFlow.rx = false) :
    (s.flowStep3 r).progressOk = true := by
  have hrow := modPort_port_same s r.port PortState.withoutFlowPins
  rw [flowStep3_eq]
  rw [progressOk_sfc4 rfl, setFgStep_port, hrow]
  exact ⟨(flowOk_congr (by rw [setFgStep_port, hrow]; rfl)).trans h, hflow, rfl⟩

theorem endFlow_progressOk (s : State) (r : FlowRequest) : (s.endFlow r).progressOk = true :=
  progressOk_of_idle (by rw [endFlow_eq]; rfl)

theorem flowStep4_progressOk (h : s.flowOk r = true) (hflow : (s.port r.port).irqFlow.rx = false)
    (hrts : (s.port r.port).swRts = NC) : (s.flowStep4 r).progressOk = true := by
  by_cases hmode : r.mode = .none
  · rw [flowStep4_of_mode_none s hmode]
    exact endFlow_progressOk s r
  · rw [flowStep4_of_mode_ne_none s hmode]
    exact (progressOk_sfc5 rfl).2 ⟨h, hflow, hrts, hmode⟩

theorem flowStep5_progressOk (h : s.flowOk r = true) (hflow : (s.port r.port).irqFlow.rx = false)
    (hrts : (s.port r.port).swRts = NC) (hmode : r.mode ≠ .none) : (s.flowStep5 r).progressOk = true := by
  rw [progressOk_sfc6 rfl]
  obtain ⟨-, hrow | ⟨hrow, -⟩⟩ := flowStep5_row s r
  · rw [flowOk_congr (s := s) (by rw [hrow]), hrow]
    exact ⟨h, hflow, hrts, hmode⟩
  · rw [flowOk_congr (s := s) (by rw [hrow]), hrow]
    exact ⟨h, hflow, hrts, hmode⟩

/-- Every micro-step leaves the command in progress as its steps should. -/
theorem advanceFg_progressOk (h : s.progressOk = true) : s.advanceFg.progressOk = true := by
  cases hstep : s.fgStep with
  | idle => rwa [advanceFg_of_idle hstep]
  | putcW p b =>
    rw [advanceFg_of_putcW hstep]
    exact pollPutc_progressOk b h
  | getcW p =>
    rw [advanceFg_of_getcW hstep]
    exact pollGetc_progressOk h hstep
  | getcB p =>
    rw [advanceFg_of_getcB hstep]
    exact progressOk_of_idle rfl
  | sfc1 r =>
    rw [State.progressOk, hstep] at h
    rw [advanceFg_of_sfc1 hstep, flowStep1_eq]
    exact h
  | sfc2 r =>
    rw [State.progressOk, hstep] at h
    rw [advanceFg_of_sfc2 hstep]
    exact flowStep2_progressOk h
  | sfc3 r =>
    obtain ⟨hok, hflow⟩ := (progressOk_sfc3 hstep).1 h
    rw [advanceFg_of_sfc3 hstep]
    exact flowStep3_progressOk hok hflow
  | sfc4 r =>
    obtain ⟨hok, hflow, hrts⟩ := (progressOk_sfc4 hstep).1 h
    rw [advanceFg_of_sfc4 hstep]
    exact flowStep4_progressOk hok hflow hrts
  | sfc5 r =>
    obtain ⟨hok, hflow, hrts, hmode⟩ := (progressOk_sfc5 hstep).1 h
    rw [advanceFg_of_sfc5 hstep]
    exact flowStep5_progressOk hok hflow hrts hmode
  | sfc6 r =>
    rw [advanceFg_of_sfc6 hstep]
    exact endFlow_progressOk _ r

theorem enterFg_progressOk (st : FgStep) (h : (s.setFgStep st).progressOk = true) :
    (s.enterFg st).progressOk = true := by
  unfold State.enterFg
  simp only
  split
  · exact advanceFg_progressOk h
  · exact h

theorem enterFg_sfc1_progressOk (h : s.flowOk r = true) : (s.enterFg (.sfc1 r)).progressOk = true :=
  enterFg_progressOk (.sfc1 r) h

/-- A command that FG takes ends, or is in progress on a port that it initialised or found so. -/
theorem performs_progressOk (hidle : s.fgStep = .idle) (h : Performs s i p t) : t.progressOk = true := by
  have hwrites := (performs_writes h).fgStep
  cases h with
  | getc h => exact enterFg_progressOk _ h.init
  | putc h => exact enterFg_progressOk _ h.init
  | setFlowControl h => exact enterFg_sfc1_progressOk (flowOk_iff.2 ⟨h.init, .inl rfl⟩)
  | init _ _ hd => exact enterFg_sfc1_progressOk (flowOk_iff.2 ⟨bringUp_initialized hd _ _, .inr rfl⟩)
  | initLowClock => exact progressOk_of_idle hidle
  | _ => exact progressOk_of_idle (hwrites.trans hidle)

/-- A poll leaves what the command in progress depends on. -/
theorem polls_progressOk (h : Polls s i p t) : t.progressOk = s.progressOk := by
  obtain ⟨-, -, n, es, rfl, -⟩ := h
  exact modPort_progressOk (s := s) (p := p) (fun q => { q with txCount := n }) rfl rfl rfl

theorem enterIsr_progressOk (s : State) (p : Port) : (s.enterIsr p).progressOk = s.progressOk := by
  obtain ⟨st, g, es, heq, -⟩ := enterIsr_eq s p
  rw [heq]
  exact modPort_progressOk (s := s) (p := p) (fun q => { q with isrStep := st }) rfl rfl rfl

end

/-! ### Every step -/

section
variable {s t : State} {i : Instr}

/-- A command that FG takes while it is idle, or that a handler takes. -/
theorem exec_keeps (h : exec i s = .next t)
    (hcontext : (s.agent = .fg ∧ s.fgStep = .idle) ∨ ∃ q, s.agent = .isr q) (hsound : s.Sound)
    (hwf : Gpio.wf s.gpio) (hprogress : s.progressOk = true) : t.Sound ∧ Gpio.wf t.gpio ∧ t.progressOk = true := by
  obtain ⟨c, rfl⟩ | ⟨p, hp⟩ := exec_cases h
  · exact ⟨hsound, hwf, hprogress⟩
  have hwf' := (performs_touches hp).1.gpio hwf
  obtain ⟨hfg, hidle⟩ | ⟨q, hisr⟩ := hcontext
  · exact ⟨performs_sound hsound (by rw [hfg]; nofun) hp, hwf', performs_progressOk hidle hp⟩
  · exact ⟨performs_sound hsound (by rw [hisr]; nofun) hp, hwf',
      (polls_progressOk (polls_of_handler hisr hp)).trans hprogress⟩

theorem stepped_keeps (hsound : s.Sound) (hwf : Gpio.wf s.gpio) (hprogress : s.progressOk = true)
    (h : Stepped s t) : t.Sound ∧ Gpio.wf t.gpio ∧ t.progressOk = true := by
  cases h with
  | stutter => exact ⟨hsound, hwf, hprogress⟩
  | refused hu => cases hu <;> exact ⟨hsound, hwf, hprogress⟩
  | command hu hexec =>
    cases hu with
    | fg _ _ hidle => exact exec_keeps hexec (.inl ⟨rfl, hidle⟩) hsound hwf hprogress
    | isr p => exact exec_keeps hexec (.inr ⟨p, rfl⟩) hsound hwf hprogress
  | advance _ hbusy =>
    obtain ⟨p, hp⟩ := exists_worksOn s.fgStep
    have hwork := works_advanceFg (s := s.takeInput) hp
    exact ⟨sound_of_works_initialized (s := s.takeInput) hsound hwork (initialized_of_progressOk hprogress hbusy hp),
      hwork.gpio hwf, advanceFg_progressOk (s := s.takeInput) hprogress⟩
  | entry p _ hcan =>
    obtain ⟨⟨-, hvec, -⟩, -⟩ := irqCanStart_iff.1 hcan
    exact ⟨enterIsr_sound (s := s.takeInput.presentedBy .controller) hsound hvec, (enterIsr_touches _ p).1.gpio hwf,
      (enterIsr_progressOk _ p).trans hprogress⟩
  | ret p =>
    exact ⟨returnFromIsr_sound (s := s.takeInput) hsound, hwf,
      (modPort_progressOk (s := s.takeInput) (fun q => { q with isrStep := .idle }) rfl rfl rfl).trans hprogress⟩

end

/-- Settles O55: R43-R45 by `step_consistent`, the rest by the cases of a step. -/
theorem everyStepKeepsTheInvariant : Obligations.EveryStepKeepsTheInvariant := by
  unfold Obligations.EveryStepKeepsTheInvariant
  intro s t hinv h
  obtain ⟨hcons, hsound, hwf, hprogress⟩ := (inv_iff s).1 hinv
  obtain ⟨-, hstep⟩ := step_cases h
  exact (inv_iff t).2 ⟨step_consistent hcons h, stepped_keeps hsound hwf hprogress hstep⟩

end Sys2Proof.Machine
